-- ==== Sys2Proof/Word.lean ====
section
/-! DEFINITION. The words of the block (00_scope.md R9): every byte is a `u8`, the address register a
`u16`, the SD command argument and the OCR and R7 words a `u32`. All values are unsigned. -/

namespace Sys2Proof

/-- A byte, `u8` (00_scope.md R9). -/
abbrev Byte := BitVec 8

/-- A device address, `u16` (10_state.md R29, `ADDR_W` = 16 of 00_scope.md R7). -/
abbrev Addr := BitVec 16

/-- A 32-bit word: an SD command argument (30_encoding.md R92), the OCR word (R99), the R7 word (R101). -/
abbrev Word32 := BitVec 32

/-- A text operand (`path`, `ctx` of 30_encoding.md R110), carried as its bytes; no rule reads inside
one. DESIGN CHOICE, safe: log entry 11. -/
abbrev Text := List Byte

end Sys2Proof
end

