-- ==== Sys2Proof/Machine/Types.lean ====
section
/-! DEFINITION. The data the rules name: patterns (00_scope.md R12), chip-select targets and response
shapes (30_encoding.md R100, R105), SD responses (44_sd_response.md R280), error records
(60_exceptions.md R330), results of the host port (10_state.md R21), host requests (30_encoding.md
R110), and what arrives on the receive stream (10_state.md R22). -/

namespace Sys2Proof

/-- One element of a response pattern (00_scope.md R12). -/
inductive PatElem where
  | fix (b : Byte)   -- the received byte must equal `b`
  | any              -- any byte, not returned
  | cap              -- any byte, returned as a capture
  deriving DecidableEq, Repr

/-- A response pattern (00_scope.md R12, 40_framing_codec.md R132). -/
abbrev Pattern := List PatElem

/-- What a chip-select operation selects (10_state.md R30, 42_spi_bridge.md R213). -/
inductive Target where
  | flash | rtc | sd | none
  deriving DecidableEq, Repr

/-- A shadow register that is UNKNOWN until the block first writes it (10_state.md R30, R31). -/
inductive Shadow (α : Type) where
  | unknown
  | known (a : α)
  deriving DecidableEq, Repr

/-- LINK (10_state.md R26). -/
inductive Link where
  | closed | opened
  deriving DecidableEq, Repr

/-- The response shapes of the shape tables (43_sd_command.md R240, R241). -/
inductive Shape where
  | r1 | r1b | r2 | r3 | r7
  deriving DecidableEq, Repr

/-- The outcome of one wait for the next received byte (10_state.md R22): a byte, or the receive
timeout expiring before one arrives. -/
inductive RxEvent where
  | byte (b : Byte)
  | timeout
  deriving DecidableEq, Repr, Inhabited

/-- The open outcome INIT draws (41_debug_core.md R170). -/
inductive OpenOutcome where
  | opened | failed
  deriving DecidableEq, Repr, Inhabited

/-- `R1rec` of 44_sd_response.md R280. -/
structure R1Rec where
  inIdleState : Bool
  eraseReset : Bool
  illegalCommand : Bool
  comCrcError : Bool
  eraseSequenceError : Bool
  addressError : Bool
  parameterError : Bool
  token : Byte
  deriving DecidableEq, Repr

/-- The fields an R1b response adds to R1 (44_sd_response.md R280). -/
structure R1bRec where
  r1 : R1Rec
  busy : Bool
  busyByte : Byte
  deriving DecidableEq, Repr

/-- The fields an R2 response adds to R1 (44_sd_response.md R280). -/
structure R2Rec where
  r1 : R1Rec
  cardIsLocked : Bool
  wpEraseSkipOrLockUnlockFailed : Bool
  error : Bool
  ccError : Bool
  cardEccFailed : Bool
  wpViolation : Bool
  eraseParam : Bool
  outOfRangeOrCsdOverwrite : Bool
  r2Byte : Byte
  deriving DecidableEq, Repr

/-- The fields an R3 response adds to R1 (44_sd_response.md R280). `vdd` is a (low, high) pair in units
of 0.1 V (00_scope.md R14), or none. -/
structure R3Rec where
  r1 : R1Rec
  ocr : Word32
  busy : Bool
  ccs : Bool
  uhs2Status : Bool
  co2t : Bool
  s19a : Bool
  lowVoltageRange : Bool
  vdd : Option (Nat × Nat)
  deriving DecidableEq, Repr

/-- The voltage-accepted enumeration (30_encoding.md R102). -/
inductive VoltageAccepted where
  | v27_36 | lowVoltageRange | notDefined
  deriving DecidableEq, Repr

/-- The fields an R7 response adds to R1 (44_sd_response.md R280). -/
structure R7Rec where
  r1 : R1Rec
  cmdVersion : BitVec 4
  voltageAccepted : VoltageAccepted
  voltageAcceptedRaw : BitVec 4
  checkPattern : Byte
  deriving DecidableEq, Repr

/-- An SD response, "tagged union over {R1, R1b, R2, R3, R7}" (44_sd_response.md R280). -/
inductive SDResponse where
  | r1 (r : R1Rec)
  | r1b (r : R1bRec)
  | r2 (r : R2Rec)
  | r3 (r : R3Rec)
  | r7 (r : R7Rec)
  deriving DecidableEq, Repr

/-- What an SD command that succeeds returns: the decoded response (43_sd_command.md R245), and its raw bytes, the poll
bytes in order followed by the extension bytes (R247). R280 gives the response no field for them, so they stand beside
it: DEDUCED, log entry 15. -/
structure SdReply where
  response : SDResponse
  raw : List Byte
  deriving DecidableEq, Repr

/-- The operation a StateError names (60_exceptions.md R330): a host operation of 30_encoding.md R110,
or one of the five packets of R81 that the block sends, where it is run as a row of its own (log 7). -/
inductive OpName where
  | init | close | enableCore | disableCore | setAddress | setAutoIncrement | enableAutoIncrement
  | disableAutoIncrement | readConfig | write | read | withCoreEnabled | sendAndExpect | scatter
  | spiSetSpeed | spiSelect | spiDeselect | spiWriteRead | spiWrite | sdBuildFrame | sdSendCmd
  | sdSendAcmd | sdDecodeR1 | sdDecodeR1b | sdDecodeR2 | sdDecodeR3 | sdDecodeR7 | sdError | crc7
  | cfgRd | cfgWr | setAddr | rd | wr
  deriving DecidableEq, Repr

/-- `required` of a StateError (60_exceptions.md R330). -/
inductive Required where
  | linkOpen | linkClosed | enabled | disabled
  deriving DecidableEq, Repr

/-- `param` of a RangeError (60_exceptions.md R330, R335). -/
inductive Param where
  | addr | length | k | targetHz | cmd | arg
  deriving DecidableEq, Repr

/-- `reason` of a ValueError (60_exceptions.md R330, R337). -/
inductive ValueReason where
  | unknownCommand (index : Nat)
  | inconsistentVdd (low high : Nat)
  | invalidToken (value : Byte)
  deriving DecidableEq, Repr

/-- `context` of a ProtocolError: the text a SEND_AND_EXPECT carries, or which exchange of the block's
own it was. The text is not normative (40_framing_codec.md R138): DESIGN CHOICE, log entry 14. -/
inductive Context where
  | text (t : Text)
  | flush | cfgWr | cfgRd | setAddr | rdHdr | wrHdr | wrData | rdData
  deriving DecidableEq, Repr

/-- An error record (60_exceptions.md R330), with the info fields of its kind. -/
inductive ErrorRecord where
  | connection (path : Text)
  | transport (requested : Nat) (received : List Byte)
  | protocol (expected : Pattern) (expectedLength : Nat) (actual : List Byte) (context : Context)
  | state (op : OpName) (required : Required)
  | range (param : Param) (value : Rat)
  | sd (cmd : Nat) (arg : Word32) (raw : List Byte) (decoded : Option SDResponse)
  | value (reason : ValueReason)
  deriving DecidableEq, Repr

mutual
/-- The value an operation returns (10_state.md R21; the result column of 30_encoding.md R110). -/
inductive Value where
  | unit
  | byte (b : Byte)
  | bytes (bs : List Byte)
  | chunks (cs : List (List Nat))
  | rational (q : Rat)
  | bit (b : Bool)
  | crc (c : BitVec 7)
  | r1 (r : R1Rec)
  | response (r : SDResponse)
  | reply (r : SdReply)
  | results (rs : Values)
  deriving DecidableEq, Repr
/-- The list of results of a session (41_debug_core.md R183): each element stands for `Ok` of it, since
the session returns a list only when every request of its body succeeded. -/
inductive Values where
  | nil
  | cons (v : Value) (vs : Values)
  deriving DecidableEq, Repr
end

/-- A result on the host port (10_state.md R21). -/
inductive Result where
  | ok (v : Value)
  | err (e : ErrorRecord)
  deriving DecidableEq, Repr

mutual
/-- A host request `(op, operands)` (10_state.md R21), one constructor per tag of 30_encoding.md R110.
Integer operands are integers of any sign and size: values out of range are not ill-formed, they raise
RangeError (R111). -/
inductive Request where
  | init (path : Text)
  | close
  | enableCore
  | disableCore
  | setAddress (addr : Int)
  | setAutoIncrement (flag : Bool)
  | enableAutoIncrement
  | disableAutoIncrement
  | readConfig
  | write (data : List Byte)
  | read (length : Int)
  | withCoreEnabled (body : Requests)
  | sendAndExpect (packet : List Byte) (pattern : Pattern) (n : Nat) (ctx : Text)
  | scatter (xs : List Nat) (k : Int)
  | spiSetSpeed (targetHz : Rat)
  | spiSelect (target : Target)
  | spiDeselect
  | spiWriteRead (data : List Byte)
  | spiWrite (data : List Byte)
  | sdBuildFrame (cmd arg : Int)
  | sdSendCmd (cmd arg : Int) (keep : Bool)
  | sdSendAcmd (acmd arg : Int) (keep : Bool)
  | sdDecodeR1 (t : Byte)
  | sdDecodeR1b (t b : Byte)
  | sdDecodeR2 (t b : Byte)
  | sdDecodeR3 (t b1 b2 b3 b4 : Byte)
  | sdDecodeR7 (t b1 b2 b3 b4 : Byte)
  | sdError (resp : SDResponse)
  | crc7 (bytes : List Byte)
  deriving DecidableEq, Repr
/-- The body of a session: a list of host requests (41_debug_core.md R183). -/
inductive Requests where
  | nil
  | cons (r : Request) (rs : Requests)
  deriving DecidableEq, Repr
end

/-- The encoding spaces of 30_encoding.md, which share bit patterns (log entry 10): host requests (R110,
tags never transmitted), wire packets (R81), SD command frames read by `CMD_SHAPE` (R94), and SD command
frames read by `ACMD_SHAPE`, sent after the CMD55 frame (R96). -/
inductive Port where
  | host | wire | sd | sdApp
  deriving DecidableEq, Repr

/-- One thing waiting to be performed: its encoding space and its bytes (log entry 5). -/
structure Submission where
  port : Port
  bytes : List Byte
  deriving DecidableEq, Repr

end Sys2Proof
end

