-- ==== Sys2Proof/Config.lean ====
section
/-! DEFINITION. The parameters of the block (00_scope.md R7) as one record, the OPEN parameters as opaque
constants, and the free values the environment supplies (00_scope.md R13). "Configuration is not state"
(10_state.md R32): the record is an argument of the model, carried beside the state, and no step writes it
(log entry 1). -/

namespace Sys2Proof

/-- `CS_MASK` (00_scope.md R7, 30_encoding.md R100): the byte written to SPI_CS for each target. -/
structure CsMasks where
  flash : Byte
  rtc : Byte
  sd : Byte
  none : Byte
  deriving DecidableEq, Repr

/-- A shape table (43_sd_command.md R240, R241): index and shape; an index not listed is undefined. -/
abbrev ShapeTable := List (Nat × Shape)

/-- The parameters of 00_scope.md R7. `ADDR_W` is fixed by the type `Addr`. The line parameters and the
timeout are carried and read by no rule (10_state.md R23, 60_exceptions.md R350). `flushAck` is a pattern
whose length is its expected length (R8) by construction: INIT expects exactly its length. -/
structure Config where
  maxBurst : Nat
  subpkt : Nat
  rxChunk : Nat
  ncrMax : Nat
  dummy : Byte
  flushN : Nat
  fdivMax : Byte
  spiCtrlAddr : Addr
  spiFdivAddr : Addr
  spiCsAddr : Addr
  spiDataAddr : Addr
  baud : Nat
  dataBits : Nat
  parityBits : Nat
  stopBits : Nat
  fClk : Nat
  timeout : Nat
  flushReq : List Byte
  flushAck : Pattern
  cmdShape : ShapeTable
  acmdShape : ShapeTable
  csMask : CsMasks
  r1ErrMask : Byte
  r2ErrMask : Byte
  deriving DecidableEq, Repr

/-- `F_CLK` less one: `F_CLK` is OPEN, "a positive integer" (00_scope.md R7, 92 D19). -/
opaque Config.openFClkPred : Nat

/-- `TIMEOUT`, OPEN (00_scope.md R7, 92 D34). -/
opaque Config.openTimeout : Nat

/-- `FLUSH_REQ`, OPEN (00_scope.md R7, 92 D12). -/
opaque Config.openFlushReq : List Byte

/-- `FLUSH_ACK`, OPEN (00_scope.md R7, 92 D12). -/
opaque Config.openFlushAck : Pattern

/-- The receive draw (00_scope.md R13, 10_state.md R22): what the `n`-th wait for a byte beyond the known
arrivals gives. Free: nothing constrains it (log entry 2). -/
opaque Config.rxDraw : Nat → RxEvent

/-- The open draw of INIT (41_debug_core.md R170). Free: nothing constrains it (log entry 3). -/
opaque Config.openDraw : Nat → OpenOutcome

end Sys2Proof
end

