-- ==== Sys2Proof/Machine/Tables.lean ====
section
/-! DEFINITION. The default parameters (00_scope.md R7) and the default tables of 30_encoding.md R100 and
43_sd_command.md R240, R241. -/

namespace Sys2Proof.Machine

/-- `CMD_SHAPE`, default (43_sd_command.md R240). -/
def defaultCmdShape : ShapeTable :=
  [(0, .r1), (1, .r1), (6, .r1), (8, .r7), (9, .r1), (10, .r1), (12, .r1b), (13, .r2), (16, .r1),
   (17, .r1), (18, .r1), (24, .r1), (25, .r1), (27, .r1), (28, .r1b), (29, .r1b), (30, .r1), (32, .r1),
   (33, .r1), (38, .r1b), (42, .r1), (55, .r1), (56, .r1), (58, .r3), (59, .r1)]

/-- `ACMD_SHAPE`, default (43_sd_command.md R241). -/
def defaultAcmdShape : ShapeTable :=
  [(13, .r2), (22, .r1), (23, .r1), (41, .r1), (42, .r1), (51, .r1)]

/-- `csmask(t) = 0xFF & ~(1 << bit(t))` for a peripheral on line `bit` (30_encoding.md R100). -/
def oneHotInverted (bit : Nat) : Byte := 0xFF#8 &&& ~~~(1#8 <<< bit)

/-- `CS_MASK`, default: FLASH bit 0, RTC bit 1, SD bit 2, NONE no bit (30_encoding.md R100). -/
def defaultCsMasks : CsMasks :=
  { flash := oneHotInverted 0, rtc := oneHotInverted 1, sd := oneHotInverted 2, none := 0xFF }

/-- The parameters with their defaults (00_scope.md R7) and the OPEN ones as given. -/
def defaultsWith (fClk timeout : Nat) (flushReq : List Byte) (flushAck : Pattern) : Config :=
  { maxBurst := 256, subpkt := 32, rxChunk := 32, ncrMax := 8, dummy := 0xFF, flushN := 2, fdivMax := 255,
    spiCtrlAddr := 0xA600, spiFdivAddr := 0xA601, spiCsAddr := 0xA602, spiDataAddr := 0xA603,
    baud := 115200, dataBits := 8, parityBits := 0, stopBits := 1,
    fClk := fClk, timeout := timeout, flushReq := flushReq, flushAck := flushAck,
    cmdShape := defaultCmdShape, acmdShape := defaultAcmdShape, csMask := defaultCsMasks,
    r1ErrMask := 0x7E, r2ErrMask := 0xFE }

/-- The parameters of the machine after reset: the defaults, and the opaque constants for the OPEN ones. -/
def resetConfig : Config :=
  defaultsWith (Config.openFClkPred + 1) Config.openTimeout Config.openFlushReq Config.openFlushAck

end Sys2Proof.Machine
end

