-- ==== Sys2Proof/Machine/State.lean ====
section
/-! DEFINITION. The state of the block (10_state.md R22, R23, R26 to R31, R42) as plain data, the two ways a
step can end without a next state, and reset (70_reset_and_hazards.md R370). -/

namespace Sys2Proof.Machine

/-- The block. `link` to `fdiv` are its registers (10_state.md R26 to R31); `tx` and `rx` its serial streams
(R22, R23); `results` what the host port has delivered (R21, R23). `requests`, `opens`, `draws` and `cfg` are
the model's own: the requests waiting on the host port (log 5), the outcomes of opening the port (log 3), the
counter of free draws (log 4), the parameters (log 1). -/
structure State where
  cfg : Config
  link : Link
  en : Bool
  ai : Bool
  addr : Addr
  cs : Shadow Target
  fdiv : Shadow Byte
  tx : List Byte
  rx : List RxEvent
  opens : List OpenOutcome
  draws : Nat
  requests : List Submission
  results : List Result
  deriving DecidableEq, Repr

/-- Why bytes are no instruction: the decoder's rejections, each by name (30_encoding.md R111, R89, R91,
93_implementation_defined.md U18). -/
inductive DecodeError where
  /-- The request is empty. -/
  | empty
  /-- A host request's tag is not in 30_encoding.md R110. -/
  | unknownTag (tag : Byte)
  /-- A wire packet's opcode is not in 30_encoding.md R81. -/
  | unknownOpcode (opcode : Byte)
  /-- The bytes end before the operands do. -/
  | truncated
  /-- An operand is not of its listed type (30_encoding.md R111). -/
  | badOperand (b : Byte)
  /-- A fixed bit of the encoding does not have its value (30_encoding.md R82, R93). -/
  | fixedBits (b : Byte)
  /-- A byte other than padding follows the operands. -/
  | trailing
  deriving DecidableEq, Repr

/-- The machine never stops with a fault: every error of 60_exceptions.md R330 is a result on the host port,
after which "the block accepts the next request" (R343), so it is a next state (log entry 6). The type has no
constructor: a claim that no step faults holds of every step. -/
inductive Fault where
  deriving DecidableEq, Repr

/-- What the spec calls *refuse* (93_implementation_defined.md): the model gives the request no meaning, no
state change and no wire I/O. -/
inductive Refusal where
  /-- Raised by an arm of `exec` for an instruction that has no meaning yet. Safe: nothing is claimed. -/
  | notModelled (mnemonic : String)
  /-- Raised by `step` for bytes that are no request (30_encoding.md R111, 93_implementation_defined.md U18). Safe: the
  spec refuses them. -/
  | badRequest (reason : DecodeError)
  /-- Raised by SEND_AND_EXPECT when the pattern's length is not the expected length (40_framing_codec.md
  R133). Safe: the spec refuses it. -/
  | patternLength
  /-- Raised by WITH_CORE_ENABLED when a request of its body is one that is refused (30_encoding.md R111:
  its operand is not a list of requests). Safe: the spec refuses it before any wire I/O. -/
  | badBody
  /-- Raised by `step` when the parameters break 00_scope.md R8. Safe: the spec refuses them. -/
  | badConfiguration
  deriving DecidableEq, Repr

/-- The block when it comes into existence (70_reset_and_hazards.md R370, 10_state.md R42). -/
def State.reset : State :=
  { cfg := resetConfig, link := .closed, en := false, ai := false, addr := 0, cs := .unknown,
    fdiv := .unknown, tx := [], rx := [], opens := [], draws := 0, requests := [], results := [] }

end Sys2Proof.Machine
end

