-- ==== Sys2Proof/Machine/Operands.lean ====
section
/-! DEFINITION. Everything the rules compute from operands without touching the state: bytes of words,
patterns (40_framing_codec.md R132), chunking (R136, R139), the packets of 30_encoding.md R81 to R87, the
chip-select masks (R100), rounding and the clock divider (42_spi_bridge.md R211, R212), CRC7
(45_crc7.md R320, R321), the SD command frame (30_encoding.md R93), the shape lookup (43_sd_command.md
R242), and the well-formedness of the parameters (00_scope.md R8). -/

namespace Sys2Proof.Machine

/-! ### Bytes of words: big-endian throughout (20_memory.md R55) -/

/-- `a[15:8]`. -/
def addrHi (a : Addr) : Byte := a.extractLsb' 8 8

/-- `a[7:0]`. -/
def addrLo (a : Addr) : Byte := a.extractLsb' 0 8

/-- The address of a high and a low byte (30_encoding.md R85). -/
def addrOfBytes (hi lo : Byte) : Addr := hi ++ lo

/-- The four bytes of a word, most significant first (20_memory.md R55). -/
def wordBytes (w : Word32) : List Byte :=
  [w.extractLsb' 24 8, w.extractLsb' 16 8, w.extractLsb' 8 8, w.extractLsb' 0 8]

/-- `b1 << 24 | b2 << 16 | b3 << 8 | b4` (44_sd_response.md R287, R289). -/
def wordOfBytes (b1 b2 b3 b4 : Byte) : Word32 := b1 ++ b2 ++ b3 ++ b4

/-! ### Patterns (00_scope.md R12, 40_framing_codec.md R132) -/

/-- Whether one element accepts one byte. -/
def elemAccepts : PatElem → Byte → Bool
  | .fix b, r => r == b
  | .any, _ => true
  | .cap, _ => true

/-- `Match(pat, bs)` (40_framing_codec.md R132). -/
def matchPattern : Pattern → List Byte → Bool
  | [], [] => true
  | e :: es, b :: bs => elemAccepts e b && matchPattern es bs
  | _, _ => false

/-- `Captures(pat, bs)` (40_framing_codec.md R132). -/
def captures : Pattern → List Byte → List Byte
  | .cap :: es, b :: bs => b :: captures es bs
  | _ :: es, _ :: bs => captures es bs
  | _, _ => []

/-- `Fix*(bs)` (00_scope.md R12). -/
def fixAll (bs : List Byte) : Pattern := bs.map .fix

/-- `Cap*(n)` (00_scope.md R12). -/
def capAll (n : Nat) : Pattern := List.replicate n .cap

/-! ### Chunking (40_framing_codec.md R136, R139) -/

/-- `ceil(n / k)`. -/
def ceilDiv (n k : Nat) : Nat := (n + k - 1) / k

/-- `scatter(xs, k)` for `k >= 1`: `[ xs[i*k .. min((i+1)*k, len(xs))] for i in 0 .. ceil(len(xs)/k) - 1 ]`
(40_framing_codec.md R136). -/
def chunksOf {α : Type} (xs : List α) (k : Nat) : List (List α) :=
  (List.range (ceilDiv xs.length k)).map fun i => (xs.drop (i * k)).take k

/-- The lengths of `scatter` of a list of `n` elements (40_framing_codec.md R139). -/
def chunkSizes (n k : Nat) : List Nat :=
  (List.range (ceilDiv n k)).map fun i => min k (n - i * k)

/-! ### Packets (30_encoding.md R81 to R87) -/

/-- `cfg(en, ai) = zext_8(en) | (zext_8(ai) << 1)` (30_encoding.md R82). -/
def cfgByte (en ai : Bool) : Byte :=
  (BitVec.ofBool en).zeroExtend 8 ||| ((BitVec.ofBool ai).zeroExtend 8 <<< 1)

/-- The length byte of a burst of `n` bytes, `n - 1` (30_encoding.md R84). -/
def lengthByte (n : Nat) : Byte := BitVec.ofNat 8 (n - 1)

/-- CFG_RD, `[0x02]` (30_encoding.md R81, R83). -/
def cfgRdPacket : List Byte := [0x02]
/-- CFG_RD_ACK, `[0x03, cfg]` (30_encoding.md R81, R83). -/
def cfgRdAckPacket (cfg : Byte) : List Byte := [0x03, cfg]
/-- CFG_WR, `[0x04, cfg]` (30_encoding.md R81, R83). -/
def cfgWrPacket (cfg : Byte) : List Byte := [0x04, cfg]
/-- CFG_WR_ACK, `[0x05]` (30_encoding.md R81, R83). -/
def cfgWrAckPacket : List Byte := [0x05]
/-- SET_ADDR, `[0x10, a[15:8], a[7:0]]` (30_encoding.md R85). -/
def setAddrPacket (a : Addr) : List Byte := [0x10, addrHi a, addrLo a]
/-- SET_ADDR_ACK, the echo `[0x11, a[15:8], a[7:0]]` (30_encoding.md R85). -/
def setAddrAckPacket (a : Addr) : List Byte := [0x11, addrHi a, addrLo a]
/-- RD, `[0x20, n - 1]`, from its length byte (30_encoding.md R86). -/
def rdPacket (lenByte : Byte) : List Byte := [0x20, lenByte]
/-- RD_ACK, `[0x21]` (30_encoding.md R86). -/
def rdAckPacket : List Byte := [0x21]
/-- WR, `[0x30, n - 1]`, from its length byte (30_encoding.md R87). -/
def wrPacket (lenByte : Byte) : List Byte := [0x30, lenByte]
/-- WR_ACK, `[0x31]` (30_encoding.md R87). -/
def wrAckPacket : List Byte := [0x31]

/-! ### SPI register bytes (30_encoding.md R100, R106) -/

/-- `csmask(t)` (30_encoding.md R100), from the parameter `CS_MASK`. -/
def csMaskOf (m : CsMasks) : Target → Byte
  | .flash => m.flash
  | .rtc => m.rtc
  | .sd => m.sd
  | .none => m.none

/-- `round_half_even` of the quotient `a / b` (42_spi_bridge.md R212). -/
def roundHalfEven (a b : Nat) : Nat :=
  let q := a / b
  let r := a % b
  if 2 * r < b then q
  else if b < 2 * r then q + 1
  else if q % 2 = 0 then q else q + 1

/-- `clamp(round_half_even(F_CLK / target_hz) - 1, 0, FDIV_MAX)` for `target_hz > 0` (42_spi_bridge.md
R211). The quotient is `fClk * den / num`; the natural subtraction stops at 0, which is the lower clamp. -/
def fdivFor (fClk : Nat) (fdivMax : Byte) (targetHz : Rat) : Byte :=
  BitVec.ofNat 8 (min (roundHalfEven (fClk * targetHz.den) targetHz.num.toNat - 1) fdivMax.toNat)

/-- The SPI clock of a divider, `F_CLK / (fdiv + 1)`, exact (30_encoding.md R106, 42_spi_bridge.md R211). -/
def spiClock (fClk : Nat) (fdiv : Byte) : Rat := mkRat fClk (fdiv.toNat + 1)

/-! ### CRC7 (45_crc7.md R320, R321) -/

/-- One bit of the 7-bit register: `fb <- c[6] ^ bit; c <- (c << 1) & 0x7F; if fb = 1: c <- c ^ 0x09`. -/
def crc7Bit (c : BitVec 7) (bit : Bool) : BitVec 7 :=
  if (c.getLsbD 6 ^^ bit) then (c <<< 1) ^^^ 0x09#7 else c <<< 1

/-- The bits of a byte, most significant first. -/
def byteBits (b : Byte) : List Bool :=
  [b.getLsbD 7, b.getLsbD 6, b.getLsbD 5, b.getLsbD 4, b.getLsbD 3, b.getLsbD 2, b.getLsbD 1, b.getLsbD 0]

/-- One byte of the message, "for i in 7 down to 0". -/
def crc7Byte (c : BitVec 7) (b : Byte) : BitVec 7 := (byteBits b).foldl crc7Bit c

/-- `crc7(bytes)` (45_crc7.md R320). -/
def crc7Of (bs : List Byte) : BitVec 7 := bs.foldl crc7Byte 0

/-- One bit of the left-aligned 8-bit form (45_crc7.md R321): shift left, and XOR with 0x12 when the bit
shifted out XOR the message bit is 1. -/
def crc7Bit8 (r : Byte) (bit : Bool) : Byte :=
  if (r.getLsbD 7 ^^ bit) then (r <<< 1) ^^^ 0x12#8 else r <<< 1

/-- The 8-bit register after a message (45_crc7.md R321). -/
def crc7Of8 (bs : List Byte) : Byte := bs.foldl (fun r b => (byteBits b).foldl crc7Bit8 r) 0

/-! ### SD command frames (30_encoding.md R92, R93; 43_sd_command.md R242, R243) -/

/-- Frame bytes 0 to 4: `[0x40 | cmd, arg[31:24], arg[23:16], arg[15:8], arg[7:0]]` (30_encoding.md R93). -/
def frameHeader (cmd : Nat) (arg : Word32) : List Byte := (0x40#8 ||| BitVec.ofNat 8 cmd) :: wordBytes arg

/-- Frame byte 5 from its CRC field: `(crc << 1) | 1` (30_encoding.md R92). -/
def crcByte (c : BitVec 7) : Byte := c ++ 1#1

/-- `frame(cmd, arg)` (30_encoding.md R93). The CRC is computed from the five bytes each time
(43_sd_command.md R249). -/
def sdFrame (cmd : Nat) (arg : Word32) : List Byte :=
  frameHeader cmd arg ++ [crcByte (crc7Of (frameHeader cmd arg))]

/-- Whether a CRC7 field is the one R92 gives the frame of an index and an argument. -/
def frameCrcOk (cmd : Nat) (arg : Word32) (crc : BitVec 7) : Bool := crc == crc7Of (frameHeader cmd arg)

/-- `shape(table, i)` (43_sd_command.md R242): the entry of an index, if there is one. Of two entries for
one index the first counts (log entry 21). -/
def lookupShape (t : ShapeTable) (i : Nat) : Option Shape := t.lookup i

/-- `extra(shape)`, the bytes read after the token (43_sd_command.md R242, 30_encoding.md R105). -/
def extraBytes : Shape → Nat
  | .r1 => 0
  | .r1b => 1
  | .r2 => 1
  | .r3 => 4
  | .r7 => 4

/-! ### Requests and parameters -/

mutual
/-- Whether every SEND_AND_EXPECT of a request has a pattern of its expected length; a request that
breaks this is refused (40_framing_codec.md R133, 30_encoding.md R111). -/
def requestAdmissible : Request → Bool
  | .sendAndExpect _ pattern n _ => pattern.length == n
  | .withCoreEnabled body => requestsAdmissible body
  | _ => true
/-- `requestAdmissible` of every request of a body. -/
def requestsAdmissible : Requests → Bool
  | .nil => true
  | .cons r rs => requestAdmissible r && requestsAdmissible rs
end

/-- Parameter well-formedness (00_scope.md R8); "FLUSH_ACK is a pattern whose length is its expected
length" holds by construction. -/
def configOk (c : Config) : Bool :=
  decide (1 ≤ c.subpkt) && decide (c.subpkt ≤ c.maxBurst) && decide (1 ≤ c.rxChunk) &&
    decide (c.rxChunk ≤ c.maxBurst) && decide (c.maxBurst ≤ 256) && decide (1 ≤ c.ncrMax) && decide (1 ≤ c.fClk)

end Sys2Proof.Machine
end

