-- ==== Sys2Proof/Machine/Flags.lean ====
section
/-! DEFINITION. The flags of the SD responses: the decoders (44_sd_response.md R281 to R290) and the error
predicates (R282, R286, R291). The block's own flags are EN and AI (10_state.md R40); it has no condition
codes. -/

namespace Sys2Proof.Machine

/-- `DECODE_R1(t)` (44_sd_response.md R281; layout 30_encoding.md R97): the seven flags of a token whose
bit 7 is 0. -/
def decodeR1 (t : Byte) : Except ErrorRecord R1Rec :=
  if t.getLsbD 7 then .error (.value (.invalidToken t))
  else .ok
    { inIdleState := t.getLsbD 0, eraseReset := t.getLsbD 1, illegalCommand := t.getLsbD 2,
      comCrcError := t.getLsbD 3, eraseSequenceError := t.getLsbD 4, addressError := t.getLsbD 5,
      parameterError := t.getLsbD 6, token := t }

/-- `DECODE_R1B(t, b)` (44_sd_response.md R284): busy when all 8 bits of the byte are 0 (30_encoding.md
R104). -/
def decodeR1b (t b : Byte) : Except ErrorRecord R1bRec :=
  (decodeR1 t).map fun r => { r1 := r, busy := b == 0x00, busyByte := b }

/-- `DECODE_R2(t, b)` (44_sd_response.md R285; layout 30_encoding.md R98). -/
def decodeR2 (t b : Byte) : Except ErrorRecord R2Rec :=
  (decodeR1 t).map fun r =>
    { r1 := r, cardIsLocked := b.getLsbD 0, wpEraseSkipOrLockUnlockFailed := b.getLsbD 1,
      error := b.getLsbD 2, ccError := b.getLsbD 3, cardEccFailed := b.getLsbD 4,
      wpViolation := b.getLsbD 5, eraseParam := b.getLsbD 6, outOfRangeOrCsdOverwrite := b.getLsbD 7,
      r2Byte := b }

/-- The windows of the VDD bitmap, lowest first: bit `i` is `27 + i` to `28 + i` (30_encoding.md R103). -/
def vddBits : List Nat := List.range 9

/-- `VDD_RANGE(m)` (44_sd_response.md R288): none for an empty bitmap, else the low end of the lowest window
and the high end of the highest. -/
def vddRange (m : BitVec 9) : Except ErrorRecord (Option (Nat × Nat)) :=
  match vddBits.find? m.getLsbD, vddBits.reverse.find? m.getLsbD with
  | some lo, some hi =>
    let low := 27 + lo
    let high := 28 + hi
    if high < low then .error (.value (.inconsistentVdd low high)) else .ok (some (low, high))
  | _, _ => .ok none

/-- `DECODE_R3(t, [b1, b2, b3, b4])` (44_sd_response.md R287; layout 30_encoding.md R99). -/
def decodeR3 (t b1 b2 b3 b4 : Byte) : Except ErrorRecord R3Rec :=
  let ocr := wordOfBytes b1 b2 b3 b4
  match decodeR1 t with
  | .error e => .error e
  | .ok r =>
    (vddRange (ocr.extractLsb' 15 9)).map fun vdd =>
      { r1 := r, ocr := ocr, busy := !ocr.getLsbD 31, ccs := ocr.getLsbD 30,
        uhs2Status := ocr.getLsbD 29, co2t := ocr.getLsbD 27, s19a := ocr.getLsbD 24,
        lowVoltageRange := ocr.getLsbD 7, vdd := vdd }

/-- `va(x)` (30_encoding.md R102). -/
def voltageAccepted (x : BitVec 4) : VoltageAccepted :=
  if x = 0b0001#4 then .v27_36 else if x = 0b0010#4 then .lowVoltageRange else .notDefined

/-- `DECODE_R7(t, [b1, b2, b3, b4])` (44_sd_response.md R289; layout 30_encoding.md R101). -/
def decodeR7 (t b1 b2 b3 b4 : Byte) : Except ErrorRecord R7Rec :=
  let w := wordOfBytes b1 b2 b3 b4
  (decodeR1 t).map fun r =>
    { r1 := r, cmdVersion := w.extractLsb' 28 4, voltageAccepted := voltageAccepted (w.extractLsb' 8 4),
      voltageAcceptedRaw := w.extractLsb' 8 4, checkPattern := w.extractLsb' 0 8 }

/-- The extension byte `i`, of those read after the token. -/
def extByte (ext : List Byte) (i : Nat) : Byte := ext.getD i 0

/-- `DECODE(shape, t, ext)` (44_sd_response.md R290), where `ext` holds `extra(shape)` bytes. -/
def decodeResponse (shape : Shape) (t : Byte) (ext : List Byte) : Except ErrorRecord SDResponse :=
  match shape with
  | .r1 => (decodeR1 t).map .r1
  | .r1b => (decodeR1b t (extByte ext 0)).map .r1b
  | .r2 => (decodeR2 t (extByte ext 0)).map .r2
  | .r3 => (decodeR3 t (extByte ext 0) (extByte ext 1) (extByte ext 2) (extByte ext 3)).map .r3
  | .r7 => (decodeR7 t (extByte ext 0) (extByte ext 1) (extByte ext 2) (extByte ext 3)).map .r7

/-- `r1_error` (44_sd_response.md R282). -/
def r1Error (mask : Byte) (r : R1Rec) : Bool := (r.token &&& mask) != 0

/-- `r2_error` (44_sd_response.md R286). -/
def r2Error (m1 m2 : Byte) (r : R2Rec) : Bool := r1Error m1 r.r1 || (r.r2Byte &&& m2) != 0

/-- `sd_error` (44_sd_response.md R291), with the parameters `R1_ERR_MASK` and `R2_ERR_MASK`. -/
def sdErrorOf (m1 m2 : Byte) : SDResponse → Bool
  | .r1 r => r1Error m1 r
  | .r1b r => r1Error m1 r.r1
  | .r2 r => r2Error m1 m2 r
  | .r3 r => r1Error m1 r.r1
  | .r7 r => r1Error m1 r.r1

/-- The shape, token and extension bytes a response was decoded from; the reserved bits of an R7 word,
which the response does not keep (30_encoding.md R101), are written 0. -/
def responseBytes : SDResponse → Shape × Byte × List Byte
  | .r1 r => (.r1, r.token, [])
  | .r1b r => (.r1b, r.r1.token, [r.busyByte])
  | .r2 r => (.r2, r.r1.token, [r.r2Byte])
  | .r3 r => (.r3, r.r1.token, wordBytes r.ocr)
  | .r7 r => (.r7, r.r1.token, wordBytes (r.cmdVersion ++ 0#16 ++ r.voltageAcceptedRaw ++ r.checkPattern))

/-- Whether a record is an SD response: one built from a token and its bytes (44_sd_response.md R280,
"built once all its bytes are known"). -/
def isResponse (r : SDResponse) : Bool :=
  let p := responseBytes r
  decide (decodeResponse p.1 p.2.1 p.2.2 = .ok r)

end Sys2Proof.Machine
end

