-- ==== Sys2Proof/Syntax.lean ====
section
/-! DEFINITION. The instruction set: one constructor per row of spec/opcode_table.json. Host requests
(30_encoding.md R110), wire packets (R81), SD command frames (R92 to R96, one per defined index of
43_sd_command.md R240 and R241). -/

namespace Sys2Proof

/-- The rows of the opcode table.

* Host requests carry the operands of 30_encoding.md R110 (typed as `Request` has them).
* Wire packets carry the fields of their row: the CFG byte or its two bits (R82), the address (R85), the
  length byte `n - 1` (R84).
* SD command frames carry the argument (bits 39:8) and the CRC7 field (bits 7:1) of the 48-bit frame (R92),
  and `keep`, the `keep_selected` operand of 43_sd_command.md R245 and R248, which the frame has no bit for
  (log entry 9). -/
inductive Instr where
  -- host requests
  | init (path : Text)
  | close
  | enableCore
  | disableCore
  | setAddress (addr : Int)
  | setAutoIncrement (flag : Bool)
  | enableAutoIncrement
  | disableAutoIncrement
  | readConfig
  | write (data : List Byte)
  | read (length : Int)
  | withCoreEnabled (body : Requests)
  | sendAndExpect (packet : List Byte) (pattern : Pattern) (n : Nat) (ctx : Text)
  | scatter (xs : List Nat) (k : Int)
  | spiSetSpeed (targetHz : Rat)
  | spiSelect (target : Target)
  | spiDeselect
  | spiWriteRead (data : List Byte)
  | spiWrite (data : List Byte)
  | sdBuildFrame (cmd arg : Int)
  | sdSendCmd (cmd arg : Int) (keep : Bool)
  | sdSendAcmd (acmd arg : Int) (keep : Bool)
  | sdDecodeR1 (t : Byte)
  | sdDecodeR1b (t b : Byte)
  | sdDecodeR2 (t b : Byte)
  | sdDecodeR3 (t b1 b2 b3 b4 : Byte)
  | sdDecodeR7 (t b1 b2 b3 b4 : Byte)
  | sdError (resp : SDResponse)
  | crc7 (bytes : List Byte)
  -- wire packets
  | cfgRd
  | cfgRdAck (cfg : Byte)
  | cfgWr (en ai : Bool)
  | cfgWrAck
  | setAddr (addr : Addr)
  | setAddrAck (addr : Addr)
  | rd (lenByte : Byte)
  | rdAck
  | wr (lenByte : Byte)
  | wrAck
  -- SD command frames
  | cmd0GoIdleState (arg : Word32) (crc : BitVec 7) (keep : Bool)
  | cmd1SendOpCond (arg : Word32) (crc : BitVec 7) (keep : Bool)
  | cmd6SwitchFunc (arg : Word32) (crc : BitVec 7) (keep : Bool)
  | cmd8SendIfCond (arg : Word32) (crc : BitVec 7) (keep : Bool)
  | cmd9SendCsd (arg : Word32) (crc : BitVec 7) (keep : Bool)
  | cmd10SendCid (arg : Word32) (crc : BitVec 7) (keep : Bool)
  | cmd12StopTransmission (arg : Word32) (crc : BitVec 7) (keep : Bool)
  | cmd13SendStatus (arg : Word32) (crc : BitVec 7) (keep : Bool)
  | cmd16SetBlocklen (arg : Word32) (crc : BitVec 7) (keep : Bool)
  | cmd17ReadSingleBlock (arg : Word32) (crc : BitVec 7) (keep : Bool)
  | cmd18ReadMultipleBlock (arg : Word32) (crc : BitVec 7) (keep : Bool)
  | cmd24WriteBlock (arg : Word32) (crc : BitVec 7) (keep : Bool)
  | cmd25WriteMultipleBlock (arg : Word32) (crc : BitVec 7) (keep : Bool)
  | cmd27ProgramCsd (arg : Word32) (crc : BitVec 7) (keep : Bool)
  | cmd28SetWriteProt (arg : Word32) (crc : BitVec 7) (keep : Bool)
  | cmd29ClrWriteProt (arg : Word32) (crc : BitVec 7) (keep : Bool)
  | cmd30SendWriteProt (arg : Word32) (crc : BitVec 7) (keep : Bool)
  | cmd32EraseWrBlkStartAddr (arg : Word32) (crc : BitVec 7) (keep : Bool)
  | cmd33EraseWrBlkEndAddr (arg : Word32) (crc : BitVec 7) (keep : Bool)
  | cmd38Erase (arg : Word32) (crc : BitVec 7) (keep : Bool)
  | cmd42LockUnlock (arg : Word32) (crc : BitVec 7) (keep : Bool)
  | cmd55AppCmd (arg : Word32) (crc : BitVec 7) (keep : Bool)
  | cmd56GenCmd (arg : Word32) (crc : BitVec 7) (keep : Bool)
  | cmd58ReadOcr (arg : Word32) (crc : BitVec 7) (keep : Bool)
  | cmd59CrcOnOff (arg : Word32) (crc : BitVec 7) (keep : Bool)
  | acmd13SdStatus (arg : Word32) (crc : BitVec 7) (keep : Bool)
  | acmd22SendNumWrBlocks (arg : Word32) (crc : BitVec 7) (keep : Bool)
  | acmd23SetWrBlkEraseCount (arg : Word32) (crc : BitVec 7) (keep : Bool)
  | acmd41SdSendOpCond (arg : Word32) (crc : BitVec 7) (keep : Bool)
  | acmd42SetClrCardDetect (arg : Word32) (crc : BitVec 7) (keep : Bool)
  | acmd51SendScr (arg : Word32) (crc : BitVec 7) (keep : Bool)
  deriving DecidableEq, Repr

end Sys2Proof
end

