-- ==== Sys2Proof/WellFormed.lean ====
section
/-! DEFINITION. Well-formed instructions: those the encodings of 30_encoding.md can carry. -/

namespace Sys2Proof

open Sys2Proof.Machine

mutual
/-- Whether a host request's operands are of their listed types (30_encoding.md R111): a pattern of its expected
length (40_framing_codec.md R133), a response built from its bytes (44_sd_response.md R280), a body of well-formed
requests. -/
def requestWellFormed : Request → Bool
  | .sendAndExpect _ pattern n _ => pattern.length == n
  | .sdError resp => isResponse resp
  | .withCoreEnabled body => requestsWellFormed body
  | .init _ | .close | .enableCore | .disableCore | .setAddress _ | .setAutoIncrement _
  | .enableAutoIncrement | .disableAutoIncrement | .readConfig | .write _ | .read _ | .scatter _ _
  | .spiSetSpeed _ | .spiSelect _ | .spiDeselect | .spiWriteRead _ | .spiWrite _ | .sdBuildFrame _ _
  | .sdSendCmd _ _ _ | .sdSendAcmd _ _ _ | .sdDecodeR1 _ | .sdDecodeR1b _ _ | .sdDecodeR2 _ _
  | .sdDecodeR3 _ _ _ _ _ | .sdDecodeR7 _ _ _ _ _ | .crc7 _ => true
/-- `requestWellFormed` of every request of a body. -/
def requestsWellFormed : Requests → Bool
  | .nil => true
  | .cons r rs => requestWellFormed r && requestsWellFormed rs
end

/-- Whether an instruction is one its encoding can carry: host requests as `requestWellFormed`, SD frames whose CRC
field is that of their first five bytes (30_encoding.md R92). -/
def Instr.wellFormed : Instr → Bool
  | .sendAndExpect _ pattern n _ => pattern.length == n
  | .sdError resp => isResponse resp
  | .withCoreEnabled body => requestsWellFormed body
  | .init _ | .close | .enableCore | .disableCore | .setAddress _ | .setAutoIncrement _
  | .enableAutoIncrement | .disableAutoIncrement | .readConfig | .write _ | .read _ | .scatter _ _
  | .spiSetSpeed _ | .spiSelect _ | .spiDeselect | .spiWriteRead _ | .spiWrite _ | .sdBuildFrame _ _
  | .sdSendCmd _ _ _ | .sdSendAcmd _ _ _ | .sdDecodeR1 _ | .sdDecodeR1b _ _ | .sdDecodeR2 _ _
  | .sdDecodeR3 _ _ _ _ _ | .sdDecodeR7 _ _ _ _ _ | .crc7 _ => true
  | .cfgRd | .cfgRdAck _ | .cfgWr _ _ | .cfgWrAck | .setAddr _ | .setAddrAck _ | .rd _ | .rdAck | .wr _
  | .wrAck => true
  | .cmd0GoIdleState arg crc _ => frameCrcOk 0 arg crc
  | .cmd1SendOpCond arg crc _ => frameCrcOk 1 arg crc
  | .cmd6SwitchFunc arg crc _ => frameCrcOk 6 arg crc
  | .cmd8SendIfCond arg crc _ => frameCrcOk 8 arg crc
  | .cmd9SendCsd arg crc _ => frameCrcOk 9 arg crc
  | .cmd10SendCid arg crc _ => frameCrcOk 10 arg crc
  | .cmd12StopTransmission arg crc _ => frameCrcOk 12 arg crc
  | .cmd13SendStatus arg crc _ => frameCrcOk 13 arg crc
  | .cmd16SetBlocklen arg crc _ => frameCrcOk 16 arg crc
  | .cmd17ReadSingleBlock arg crc _ => frameCrcOk 17 arg crc
  | .cmd18ReadMultipleBlock arg crc _ => frameCrcOk 18 arg crc
  | .cmd24WriteBlock arg crc _ => frameCrcOk 24 arg crc
  | .cmd25WriteMultipleBlock arg crc _ => frameCrcOk 25 arg crc
  | .cmd27ProgramCsd arg crc _ => frameCrcOk 27 arg crc
  | .cmd28SetWriteProt arg crc _ => frameCrcOk 28 arg crc
  | .cmd29ClrWriteProt arg crc _ => frameCrcOk 29 arg crc
  | .cmd30SendWriteProt arg crc _ => frameCrcOk 30 arg crc
  | .cmd32EraseWrBlkStartAddr arg crc _ => frameCrcOk 32 arg crc
  | .cmd33EraseWrBlkEndAddr arg crc _ => frameCrcOk 33 arg crc
  | .cmd38Erase arg crc _ => frameCrcOk 38 arg crc
  | .cmd42LockUnlock arg crc _ => frameCrcOk 42 arg crc
  | .cmd55AppCmd arg crc _ => frameCrcOk 55 arg crc
  | .cmd56GenCmd arg crc _ => frameCrcOk 56 arg crc
  | .cmd58ReadOcr arg crc _ => frameCrcOk 58 arg crc
  | .cmd59CrcOnOff arg crc _ => frameCrcOk 59 arg crc
  | .acmd13SdStatus arg crc _ => frameCrcOk 13 arg crc
  | .acmd22SendNumWrBlocks arg crc _ => frameCrcOk 22 arg crc
  | .acmd23SetWrBlkEraseCount arg crc _ => frameCrcOk 23 arg crc
  | .acmd41SdSendOpCond arg crc _ => frameCrcOk 41 arg crc
  | .acmd42SetClrCardDetect arg crc _ => frameCrcOk 42 arg crc
  | .acmd51SendScr arg crc _ => frameCrcOk 51 arg crc

end Sys2Proof
end

