-- ==== Sys2Proof/Decode.lean ====
section
/-! DEFINITION. The decoder, total on any bytes and rejecting by name, and after it the encoder.

The tags of host requests are 30_encoding.md R110's. The layout of their operands is the model's (the spec gives
none; log entry 5): naturals in groups of seven bits, lowest group first, bit 7 set on every byte but the last;
integers as `2n` for `n >= 0` and `2(-n) - 1` for `n < 0`; a list as its length and its elements; a rational as its
numerator and its denominator less one; a session body as its requests, each after a byte 1, ended by a byte 0.
Wire packets and SD frames are laid out as 30_encoding.md R81 to R87 and R92 give them. -/

namespace Sys2Proof

open Sys2Proof.Machine

/-! ### Reading bytes -/

/-- A reader takes its bytes from the front and leaves the rest. -/
abbrev Reader (α : Type) := List Byte → Except DecodeError (α × List Byte)

/-- Nothing read, `a` returned. -/
def readPure {α : Type} (a : α) : Reader α := fun bs => .ok (a, bs)

/-- `m`, then `k` of what it read. -/
def readThen {α β : Type} (m : Reader α) (k : α → Reader β) : Reader β := fun bs =>
  match m bs with
  | .ok (a, rest) => k a rest
  | .error e => .error e

/-- `f` of what `m` read. -/
def readMap {α β : Type} (f : α → β) (m : Reader α) : Reader β := readThen m fun a => readPure (f a)

/-- One byte. -/
def readByte : Reader Byte
  | [] => .error .truncated
  | b :: bs => .ok (b, bs)

/-- A natural number: seven bits a byte, lowest first, bit 7 set on every byte but the last. -/
def readNat : Reader Nat
  | [] => .error .truncated
  | b :: bs =>
    if b.toNat < 128 then .ok (b.toNat, bs)
    else
      match readNat bs with
      | .ok (n, rest) => .ok (b.toNat - 128 + 128 * n, rest)
      | .error e => .error e

/-- The integer of a natural: even numbers are the non-negative ones. -/
def intOfNat (m : Nat) : Int := if m % 2 = 0 then Int.ofNat (m / 2) else Int.negSucc (m / 2)

/-- An integer. -/
def readInt : Reader Int := readMap intOfNat readNat

/-- A bit: 0 or 1. -/
def readBool : Reader Bool :=
  readThen readByte fun b =>
  if b = 0 then readPure false else if b = 1 then readPure true else fun _ => .error (.badOperand b)

/-- `n` items. -/
def readItems {α : Type} (m : Reader α) : Nat → Reader (List α)
  | 0 => readPure []
  | n + 1 => readThen m fun a => readThen (readItems m n) fun as => readPure (a :: as)

/-- A list: its length, then its elements. -/
def readList {α : Type} (m : Reader α) : Reader (List α) := readThen readNat fun n => readItems m n

/-- A byte list (or a text). -/
def readBytes : Reader (List Byte) := readList readByte

/-- A pattern element: 0 and the byte of `Fix`, 1 for `Any`, 2 for `Cap`. -/
def readPatElem : Reader PatElem :=
  readThen readByte fun t =>
  if t = 0 then readMap .fix readByte
  else if t = 1 then readPure .any
  else if t = 2 then readPure .cap
  else fun _ => .error (.badOperand t)

/-- A rational: numerator, and denominator less one. -/
def readRat : Reader Rat := readThen readInt fun n => readMap (fun d => mkRat n (d + 1)) readNat

/-- A chip-select target: 0 to 3 in the order of 30_encoding.md R100. -/
def readTarget : Reader Target :=
  readThen readByte fun t =>
  if t = 0 then readPure .flash
  else if t = 1 then readPure .rtc
  else if t = 2 then readPure .sd
  else if t = 3 then readPure .none
  else fun _ => .error (.badOperand t)

/-- A shape: 0 to 4 in the order of 30_encoding.md R105. -/
def readShape : Reader Shape :=
  readThen readByte fun t =>
  if t = 0 then readPure .r1
  else if t = 1 then readPure .r1b
  else if t = 2 then readPure .r2
  else if t = 3 then readPure .r3
  else if t = 4 then readPure .r7
  else fun _ => .error (.badOperand t)

/-- An SD response: its shape, its token and its extension bytes, decoded (44_sd_response.md R290). -/
def readResponse : Reader SDResponse :=
  readThen readShape fun sh =>
  readThen readByte fun t =>
  readThen (readItems readByte (extraBytes sh)) fun ext =>
  match decodeResponse sh t ext with
  | .ok r => readPure r
  | .error _ => fun _ => .error (.badOperand t)

/-! ### Host requests (30_encoding.md R110) -/

/-- The operands of every request but a session, by tag; a tag that is not in 30_encoding.md R110 is refused
(R111). -/
def readOperands (tag : Byte) : Reader Request :=
  match tag.toNat with
  | 0x01 => readMap .init readBytes
  | 0x02 => readPure .close
  | 0x03 => readPure .enableCore
  | 0x04 => readPure .disableCore
  | 0x05 => readMap .setAddress readInt
  | 0x06 => readMap .setAutoIncrement readBool
  | 0x07 => readPure .enableAutoIncrement
  | 0x08 => readPure .disableAutoIncrement
  | 0x09 => readPure .readConfig
  | 0x0A => readMap .write readBytes
  | 0x0B => readMap .read readInt
  | 0x10 =>
    readThen readBytes fun packet => readThen (readList readPatElem) fun pat => readThen readNat fun n =>
    readThen readBytes fun ctx =>
    if pat.length = n then readPure (.sendAndExpect packet pat n ctx) else fun _ => .error (.badOperand tag)
  | 0x11 => readThen (readList readNat) fun xs => readMap (.scatter xs) readInt
  | 0x20 => readMap .spiSetSpeed readRat
  | 0x21 => readMap .spiSelect readTarget
  | 0x22 => readPure .spiDeselect
  | 0x23 => readMap .spiWriteRead readBytes
  | 0x24 => readMap .spiWrite readBytes
  | 0x30 => readThen readInt fun cmd => readMap (.sdBuildFrame cmd) readInt
  | 0x31 => readThen readInt fun cmd => readThen readInt fun arg => readMap (.sdSendCmd cmd arg) readBool
  | 0x32 => readThen readInt fun cmd => readThen readInt fun arg => readMap (.sdSendAcmd cmd arg) readBool
  | 0x40 => readMap .sdDecodeR1 readByte
  | 0x41 => readThen readByte fun t => readMap (.sdDecodeR1b t) readByte
  | 0x42 => readThen readByte fun t => readMap (.sdDecodeR2 t) readByte
  | 0x43 =>
    readThen readByte fun t => readThen readByte fun b1 => readThen readByte fun b2 => readThen readByte fun b3 =>
    readMap (.sdDecodeR3 t b1 b2 b3) readByte
  | 0x44 =>
    readThen readByte fun t => readThen readByte fun b1 => readThen readByte fun b2 => readThen readByte fun b3 =>
    readMap (.sdDecodeR7 t b1 b2 b3) readByte
  | 0x45 => readMap .sdError readResponse
  | 0x50 => readMap .crc7 readBytes
  | _ => fun _ => .error (.unknownTag tag)

mutual
/-- A host request: its tag, then its operands. The first argument bounds the nesting of sessions. -/
def readRequest : Nat → Reader Request
  | 0 => fun _ => .error .truncated
  | f + 1 =>
    readThen readByte fun tag =>
    if tag = 0x0C then readMap .withCoreEnabled (readBody f) else readOperands tag
/-- The body of a session (41_debug_core.md R183). -/
def readBody : Nat → Reader Requests
  | 0 => fun _ => .error .truncated
  | f + 1 =>
    readThen readByte fun b =>
    if b = 0 then readPure .nil
    else if b = 1 then readThen (readRequest f) fun r => readMap (.cons r) (readBody f)
    else fun _ => .error (.badOperand b)
end

/-- A host request as the row of the opcode table it is. -/
def Instr.ofRequest : Request → Instr
  | .init path => .init path
  | .close => .close
  | .enableCore => .enableCore
  | .disableCore => .disableCore
  | .setAddress addr => .setAddress addr
  | .setAutoIncrement flag => .setAutoIncrement flag
  | .enableAutoIncrement => .enableAutoIncrement
  | .disableAutoIncrement => .disableAutoIncrement
  | .readConfig => .readConfig
  | .write data => .write data
  | .read length => .read length
  | .withCoreEnabled body => .withCoreEnabled body
  | .sendAndExpect packet pattern n ctx => .sendAndExpect packet pattern n ctx
  | .scatter xs k => .scatter xs k
  | .spiSetSpeed targetHz => .spiSetSpeed targetHz
  | .spiSelect target => .spiSelect target
  | .spiDeselect => .spiDeselect
  | .spiWriteRead data => .spiWriteRead data
  | .spiWrite data => .spiWrite data
  | .sdBuildFrame cmd arg => .sdBuildFrame cmd arg
  | .sdSendCmd cmd arg keep => .sdSendCmd cmd arg keep
  | .sdSendAcmd acmd arg keep => .sdSendAcmd acmd arg keep
  | .sdDecodeR1 t => .sdDecodeR1 t
  | .sdDecodeR1b t b => .sdDecodeR1b t b
  | .sdDecodeR2 t b => .sdDecodeR2 t b
  | .sdDecodeR3 t b1 b2 b3 b4 => .sdDecodeR3 t b1 b2 b3 b4
  | .sdDecodeR7 t b1 b2 b3 b4 => .sdDecodeR7 t b1 b2 b3 b4
  | .sdError resp => .sdError resp
  | .crc7 bytes => .crc7 bytes

/-- A host request, from all its bytes. -/
def decodeHost : Reader Instr := fun bs => readMap Instr.ofRequest (readRequest (bs.length + 1)) bs

/-! ### Wire packets (30_encoding.md R81 to R89) -/

/-- A CFG_WR byte: bits 7:2 are 0 (30_encoding.md R82). -/
def readCfgWr : Reader Instr :=
  readThen readByte fun c =>
  if c.extractLsb' 2 6 = 0#6 then readPure (.cfgWr (c.getLsbD 0) (c.getLsbD 1)) else fun _ => .error (.fixedBits c)

/-- An address, high byte first (30_encoding.md R85). -/
def readAddr : Reader Addr := readThen readByte fun hi => readMap (addrOfBytes hi) readByte

/-- A wire packet by its opcode (30_encoding.md R81); any other opcode is rejected (R89, R91). -/
def decodeWire : Reader Instr :=
  readThen readByte fun op =>
  match op.toNat with
  | 0x02 => readPure .cfgRd
  | 0x03 => readMap .cfgRdAck readByte
  | 0x04 => readCfgWr
  | 0x05 => readPure .cfgWrAck
  | 0x10 => readMap .setAddr readAddr
  | 0x11 => readMap .setAddrAck readAddr
  | 0x20 => readMap .rd readByte
  | 0x21 => readPure .rdAck
  | 0x30 => readMap .wr readByte
  | 0x31 => readPure .wrAck
  | _ => fun _ => .error (.unknownOpcode op)

/-! ### SD command frames (30_encoding.md R92 to R96) -/

/-- The CMD row of an index (43_sd_command.md R240). -/
def cmdRowOf (index : Nat) : Option (Word32 → BitVec 7 → Bool → Instr) :=
  match index with
  | 0 => some .cmd0GoIdleState
  | 1 => some .cmd1SendOpCond
  | 6 => some .cmd6SwitchFunc
  | 8 => some .cmd8SendIfCond
  | 9 => some .cmd9SendCsd
  | 10 => some .cmd10SendCid
  | 12 => some .cmd12StopTransmission
  | 13 => some .cmd13SendStatus
  | 16 => some .cmd16SetBlocklen
  | 17 => some .cmd17ReadSingleBlock
  | 18 => some .cmd18ReadMultipleBlock
  | 24 => some .cmd24WriteBlock
  | 25 => some .cmd25WriteMultipleBlock
  | 27 => some .cmd27ProgramCsd
  | 28 => some .cmd28SetWriteProt
  | 29 => some .cmd29ClrWriteProt
  | 30 => some .cmd30SendWriteProt
  | 32 => some .cmd32EraseWrBlkStartAddr
  | 33 => some .cmd33EraseWrBlkEndAddr
  | 38 => some .cmd38Erase
  | 42 => some .cmd42LockUnlock
  | 55 => some .cmd55AppCmd
  | 56 => some .cmd56GenCmd
  | 58 => some .cmd58ReadOcr
  | 59 => some .cmd59CrcOnOff
  | _ => none

/-- The ACMD row of an index (43_sd_command.md R241). -/
def acmdRowOf (index : Nat) : Option (Word32 → BitVec 7 → Bool → Instr) :=
  match index with
  | 13 => some .acmd13SdStatus
  | 22 => some .acmd22SendNumWrBlocks
  | 23 => some .acmd23SetWrBlkEraseCount
  | 41 => some .acmd41SdSendOpCond
  | 42 => some .acmd42SetClrCardDetect
  | 51 => some .acmd51SendScr
  | _ => none

/-- The last byte of a frame: the CRC7 field and the end bit, which is 1 (30_encoding.md R92). -/
def readCrcByte : Reader (BitVec 7) :=
  readThen readByte fun b =>
  if b.getLsbD 0 then readPure (b.extractLsb' 1 7) else fun _ => .error (.fixedBits b)

/-- The argument of a frame, big-endian (30_encoding.md R92). -/
def readWord : Reader Word32 :=
  readThen readByte fun b1 => readThen readByte fun b2 => readThen readByte fun b3 =>
  readMap (wordOfBytes b1 b2 b3) readByte

/-- The `keep` operand of a frame, which has no bit for it: the byte after it, or clear when the frame stands alone (log
entry 9). -/
def readKeep : Reader Bool
  | [] => .ok (false, [])
  | b :: bs => readBool (b :: bs)

/-- The instruction of a frame by the CMD rows: an index without a row is SD_SEND_CMD of that index, which raises the
ValueError (30_encoding.md R94, R95; log entry 9). -/
def cmdFrame (index : Nat) (arg : Word32) (crc : BitVec 7) (keep : Bool) : Instr :=
  match cmdRowOf index with
  | some row => row arg crc keep
  | none => .sdSendCmd index arg.toNat keep

/-- The instruction of a frame by the ACMD rows: an index without a row is SD_SEND_ACMD of that index, which raises the
ValueError (30_encoding.md R94, R95; log entry 9). -/
def acmdFrame (index : Nat) (arg : Word32) (crc : BitVec 7) (keep : Bool) : Instr :=
  match acmdRowOf index with
  | some row => row arg crc keep
  | none => .sdSendAcmd index arg.toNat keep

/-- The index field of a frame's first byte (30_encoding.md R92). -/
def frameIndex (b0 : Byte) : Nat := (b0.extractLsb' 0 6).toNat

/-- A frame (30_encoding.md R92), then the `keep` operand, as the instruction of its index. -/
def decodeFrame (instrOf : Nat → Word32 → BitVec 7 → Bool → Instr) : Reader Instr :=
  readThen readByte fun b0 =>
  if b0.extractLsb' 6 2 = 0b01#2 then
    readThen readWord fun arg => readThen readCrcByte fun crc => readMap (instrOf (frameIndex b0) arg crc) readKeep
  else fun _ => .error (.fixedBits b0)

/-! ### The decoder -/

/-- The instruction at the front of some bytes, by encoding space. -/
def decode : Port → Reader Instr
  | .host => decodeHost
  | .wire => decodeWire
  | .sd => decodeFrame cmdFrame
  | .sdApp => decodeFrame acmdFrame

/-- The instruction of a submission: nothing but padding zeros may follow it (log entry 20). -/
def decodeSubmission (x : Submission) : Except DecodeError Instr :=
  if x.bytes = [] then .error .empty
  else
    match decode x.port x.bytes with
    | .error e => .error e
    | .ok (i, rest) => if rest.all (· == 0) then .ok i else .error .trailing

/-! ### The encoder -/

/-- A natural number (`readNat`); the first argument bounds the number of bytes. -/
def encodeNatFuel : Nat → Nat → List Byte
  | 0, n => [BitVec.ofNat 8 n]
  | f + 1, n =>
    if n < 128 then [BitVec.ofNat 8 n] else BitVec.ofNat 8 (n % 128 + 128) :: encodeNatFuel f (n / 128)

/-- A natural number (`readNat`). -/
def encodeNat (n : Nat) : List Byte := encodeNatFuel n n

/-- The natural of an integer (`intOfNat`). -/
def natOfInt : Int → Nat
  | .ofNat n => 2 * n
  | .negSucc n => 2 * n + 1

/-- An integer (`readInt`). -/
def encodeInt (n : Int) : List Byte := encodeNat (natOfInt n)

/-- A bit (`readBool`). -/
def encodeBool (b : Bool) : List Byte := [if b then 1 else 0]

/-- A list (`readList`). -/
def encodeList {α : Type} (enc : α → List Byte) (xs : List α) : List Byte :=
  encodeNat xs.length ++ xs.flatMap enc

/-- A byte list (`readBytes`). -/
def encodeBytes (bs : List Byte) : List Byte := encodeList (fun b => [b]) bs

/-- A pattern element (`readPatElem`). -/
def encodePatElem : PatElem → List Byte
  | .fix b => [0, b]
  | .any => [1]
  | .cap => [2]

/-- A rational (`readRat`). -/
def encodeRat (q : Rat) : List Byte := encodeInt q.num ++ encodeNat (q.den - 1)

/-- A chip-select target (`readTarget`). -/
def encodeTarget : Target → List Byte
  | .flash => [0]
  | .rtc => [1]
  | .sd => [2]
  | .none => [3]

/-- A shape (`readShape`). -/
def encodeShape : Shape → List Byte
  | .r1 => [0]
  | .r1b => [1]
  | .r2 => [2]
  | .r3 => [3]
  | .r7 => [4]

/-- An SD response (`readResponse`). -/
def encodeResponse (r : SDResponse) : List Byte :=
  let p := responseBytes r
  encodeShape p.1 ++ p.2.1 :: p.2.2

mutual
/-- A host request: its tag of 30_encoding.md R110, then its operands. -/
def encodeRequest : Request → List Byte
  | .init path => 0x01 :: encodeBytes path
  | .close => [0x02]
  | .enableCore => [0x03]
  | .disableCore => [0x04]
  | .setAddress addr => 0x05 :: encodeInt addr
  | .setAutoIncrement flag => 0x06 :: encodeBool flag
  | .enableAutoIncrement => [0x07]
  | .disableAutoIncrement => [0x08]
  | .readConfig => [0x09]
  | .write data => 0x0A :: encodeBytes data
  | .read length => 0x0B :: encodeInt length
  | .withCoreEnabled body => 0x0C :: encodeBody body
  | .sendAndExpect packet pattern n ctx =>
    0x10 :: (encodeBytes packet ++ encodeList encodePatElem pattern ++ encodeNat n ++ encodeBytes ctx)
  | .scatter xs k => 0x11 :: (encodeList encodeNat xs ++ encodeInt k)
  | .spiSetSpeed targetHz => 0x20 :: encodeRat targetHz
  | .spiSelect target => 0x21 :: encodeTarget target
  | .spiDeselect => [0x22]
  | .spiWriteRead data => 0x23 :: encodeBytes data
  | .spiWrite data => 0x24 :: encodeBytes data
  | .sdBuildFrame cmd arg => 0x30 :: (encodeInt cmd ++ encodeInt arg)
  | .sdSendCmd cmd arg keep => 0x31 :: (encodeInt cmd ++ encodeInt arg ++ encodeBool keep)
  | .sdSendAcmd acmd arg keep => 0x32 :: (encodeInt acmd ++ encodeInt arg ++ encodeBool keep)
  | .sdDecodeR1 t => [0x40, t]
  | .sdDecodeR1b t b => [0x41, t, b]
  | .sdDecodeR2 t b => [0x42, t, b]
  | .sdDecodeR3 t b1 b2 b3 b4 => [0x43, t, b1, b2, b3, b4]
  | .sdDecodeR7 t b1 b2 b3 b4 => [0x44, t, b1, b2, b3, b4]
  | .sdError resp => 0x45 :: encodeResponse resp
  | .crc7 bytes => 0x50 :: encodeBytes bytes
/-- The body of a session (`readBody`). -/
def encodeBody : Requests → List Byte
  | .nil => [0]
  | .cons r rs => 1 :: (encodeRequest r ++ encodeBody rs)
end

/-- An SD frame with its `keep` operand (30_encoding.md R92; log entry 9). -/
def encodeFrame (cmd : Nat) (arg : Word32) (crc : BitVec 7) (keep : Bool) : List Byte :=
  frameHeader cmd arg ++ crcByte crc :: encodeBool keep

/-- The encoding space of an instruction. -/
def portOf : Instr → Port
  | .init _ | .close | .enableCore | .disableCore | .setAddress _ | .setAutoIncrement _
  | .enableAutoIncrement | .disableAutoIncrement | .readConfig | .write _ | .read _ | .withCoreEnabled _
  | .sendAndExpect _ _ _ _ | .scatter _ _
  | .spiSetSpeed _ | .spiSelect _ | .spiDeselect | .spiWriteRead _ | .spiWrite _ | .sdBuildFrame _ _
  | .sdSendCmd _ _ _ | .sdSendAcmd _ _ _ | .sdDecodeR1 _ | .sdDecodeR1b _ _ | .sdDecodeR2 _ _
  | .sdDecodeR3 _ _ _ _ _ | .sdDecodeR7 _ _ _ _ _ | .sdError _ | .crc7 _ => .host
  | .cfgRd | .cfgRdAck _ | .cfgWr _ _ | .cfgWrAck | .setAddr _ | .setAddrAck _ | .rd _ | .rdAck | .wr _
  | .wrAck => .wire
  | .cmd0GoIdleState _ _ _ | .cmd1SendOpCond _ _ _ | .cmd6SwitchFunc _ _ _ | .cmd8SendIfCond _ _ _
  | .cmd9SendCsd _ _ _ | .cmd10SendCid _ _ _ | .cmd12StopTransmission _ _ _ | .cmd13SendStatus _ _ _
  | .cmd16SetBlocklen _ _ _ | .cmd17ReadSingleBlock _ _ _ | .cmd18ReadMultipleBlock _ _ _ | .cmd24WriteBlock _ _ _
  | .cmd25WriteMultipleBlock _ _ _ | .cmd27ProgramCsd _ _ _ | .cmd28SetWriteProt _ _ _ | .cmd29ClrWriteProt _ _ _
  | .cmd30SendWriteProt _ _ _ | .cmd32EraseWrBlkStartAddr _ _ _ | .cmd33EraseWrBlkEndAddr _ _ _ | .cmd38Erase _ _ _
  | .cmd42LockUnlock _ _ _ | .cmd55AppCmd _ _ _ | .cmd56GenCmd _ _ _ | .cmd58ReadOcr _ _ _
  | .cmd59CrcOnOff _ _ _ => .sd
  | .acmd13SdStatus _ _ _ | .acmd22SendNumWrBlocks _ _ _ | .acmd23SetWrBlkEraseCount _ _ _
  | .acmd41SdSendOpCond _ _ _ | .acmd42SetClrCardDetect _ _ _ | .acmd51SendScr _ _ _ => .sdApp

/-- The bytes of an instruction in its encoding space. -/
def encode : Instr → List Byte
  | .init path => encodeRequest (.init path)
  | .close => encodeRequest .close
  | .enableCore => encodeRequest .enableCore
  | .disableCore => encodeRequest .disableCore
  | .setAddress addr => encodeRequest (.setAddress addr)
  | .setAutoIncrement flag => encodeRequest (.setAutoIncrement flag)
  | .enableAutoIncrement => encodeRequest .enableAutoIncrement
  | .disableAutoIncrement => encodeRequest .disableAutoIncrement
  | .readConfig => encodeRequest .readConfig
  | .write data => encodeRequest (.write data)
  | .read length => encodeRequest (.read length)
  | .withCoreEnabled body => encodeRequest (.withCoreEnabled body)
  | .sendAndExpect packet pattern n ctx => encodeRequest (.sendAndExpect packet pattern n ctx)
  | .scatter xs k => encodeRequest (.scatter xs k)
  | .spiSetSpeed targetHz => encodeRequest (.spiSetSpeed targetHz)
  | .spiSelect target => encodeRequest (.spiSelect target)
  | .spiDeselect => encodeRequest .spiDeselect
  | .spiWriteRead data => encodeRequest (.spiWriteRead data)
  | .spiWrite data => encodeRequest (.spiWrite data)
  | .sdBuildFrame cmd arg => encodeRequest (.sdBuildFrame cmd arg)
  | .sdSendCmd cmd arg keep => encodeRequest (.sdSendCmd cmd arg keep)
  | .sdSendAcmd acmd arg keep => encodeRequest (.sdSendAcmd acmd arg keep)
  | .sdDecodeR1 t => encodeRequest (.sdDecodeR1 t)
  | .sdDecodeR1b t b => encodeRequest (.sdDecodeR1b t b)
  | .sdDecodeR2 t b => encodeRequest (.sdDecodeR2 t b)
  | .sdDecodeR3 t b1 b2 b3 b4 => encodeRequest (.sdDecodeR3 t b1 b2 b3 b4)
  | .sdDecodeR7 t b1 b2 b3 b4 => encodeRequest (.sdDecodeR7 t b1 b2 b3 b4)
  | .sdError resp => encodeRequest (.sdError resp)
  | .crc7 bytes => encodeRequest (.crc7 bytes)
  | .cfgRd => cfgRdPacket
  | .cfgRdAck cfg => cfgRdAckPacket cfg
  | .cfgWr en ai => cfgWrPacket (cfgByte en ai)
  | .cfgWrAck => cfgWrAckPacket
  | .setAddr addr => setAddrPacket addr
  | .setAddrAck addr => setAddrAckPacket addr
  | .rd lenByte => rdPacket lenByte
  | .rdAck => rdAckPacket
  | .wr lenByte => wrPacket lenByte
  | .wrAck => wrAckPacket
  | .cmd0GoIdleState arg crc keep => encodeFrame 0 arg crc keep
  | .cmd1SendOpCond arg crc keep => encodeFrame 1 arg crc keep
  | .cmd6SwitchFunc arg crc keep => encodeFrame 6 arg crc keep
  | .cmd8SendIfCond arg crc keep => encodeFrame 8 arg crc keep
  | .cmd9SendCsd arg crc keep => encodeFrame 9 arg crc keep
  | .cmd10SendCid arg crc keep => encodeFrame 10 arg crc keep
  | .cmd12StopTransmission arg crc keep => encodeFrame 12 arg crc keep
  | .cmd13SendStatus arg crc keep => encodeFrame 13 arg crc keep
  | .cmd16SetBlocklen arg crc keep => encodeFrame 16 arg crc keep
  | .cmd17ReadSingleBlock arg crc keep => encodeFrame 17 arg crc keep
  | .cmd18ReadMultipleBlock arg crc keep => encodeFrame 18 arg crc keep
  | .cmd24WriteBlock arg crc keep => encodeFrame 24 arg crc keep
  | .cmd25WriteMultipleBlock arg crc keep => encodeFrame 25 arg crc keep
  | .cmd27ProgramCsd arg crc keep => encodeFrame 27 arg crc keep
  | .cmd28SetWriteProt arg crc keep => encodeFrame 28 arg crc keep
  | .cmd29ClrWriteProt arg crc keep => encodeFrame 29 arg crc keep
  | .cmd30SendWriteProt arg crc keep => encodeFrame 30 arg crc keep
  | .cmd32EraseWrBlkStartAddr arg crc keep => encodeFrame 32 arg crc keep
  | .cmd33EraseWrBlkEndAddr arg crc keep => encodeFrame 33 arg crc keep
  | .cmd38Erase arg crc keep => encodeFrame 38 arg crc keep
  | .cmd42LockUnlock arg crc keep => encodeFrame 42 arg crc keep
  | .cmd55AppCmd arg crc keep => encodeFrame 55 arg crc keep
  | .cmd56GenCmd arg crc keep => encodeFrame 56 arg crc keep
  | .cmd58ReadOcr arg crc keep => encodeFrame 58 arg crc keep
  | .cmd59CrcOnOff arg crc keep => encodeFrame 59 arg crc keep
  | .acmd13SdStatus arg crc keep => encodeFrame 13 arg crc keep
  | .acmd22SendNumWrBlocks arg crc keep => encodeFrame 22 arg crc keep
  | .acmd23SetWrBlkEraseCount arg crc keep => encodeFrame 23 arg crc keep
  | .acmd41SdSendOpCond arg crc keep => encodeFrame 41 arg crc keep
  | .acmd42SetClrCardDetect arg crc keep => encodeFrame 42 arg crc keep
  | .acmd51SendScr arg crc keep => encodeFrame 51 arg crc keep

/-! ### Words of the opcode table -/

/-- The bytes of a table word of `nbits` bits: the table writes a row as one number, byte 0 its most significant
byte (98_reader.md), and zeros follow. -/
def tableBytes (nbits w : Nat) : List Byte :=
  (List.range (nbits / 8)).map (fun i => BitVec.ofNat 8 (w >>> (8 * (nbits / 8 - 1 - i)))) ++ List.replicate 16 0

/-- The first of some encoding spaces in which the bytes are an instruction. -/
def firstPort (bs : List Byte) : List Port → Option Port
  | [] => none
  | p :: ps =>
    match decodeSubmission ⟨p, bs⟩ with
    | .ok _ => some p
    | .error _ => firstPort bs ps

/-- The encoding space of a frame: an ACMD row's when its index has an ACMD row and no CMD row, else a CMD frame's (log
entry 10). -/
def framePort (index : Nat) : Port := if (cmdRowOf index).isNone ∧ (acmdRowOf index).isSome then .sdApp else .sd

/-- The submission of a table word: 8-bit rows are host tags, or else wire packets; 48-bit rows are SD frames; the others
are wire packets (log entry 10). -/
def tableSubmission (nbits w : Nat) : Submission :=
  let bs := tableBytes nbits w
  ⟨if nbits = 48 then framePort (frameIndex (bs.headD 0))
   else if nbits = 8 then (firstPort bs [.host, .wire]).getD .wire else .wire, bs⟩

/-- The instruction of a table word. -/
def decodeTableWord (nbits w : Nat) : Option Instr :=
  match decodeSubmission (tableSubmission nbits w) with
  | .ok i => some i
  | .error _ => none

end Sys2Proof
end

