-- ==== Sys2Proof/Machine/Ops.lean ====
section
/-! DEFINITION. The shared operations over the state: sequencing and errors (60_exceptions.md R339, R340, R346),
delivery of the result (10_state.md R21), the transport primitives (40_framing_codec.md R130, R131), the exchange
(R134), the entry checks (41_debug_core.md R182, 60_exceptions.md R345), the exchanges of the packets (R140 to
R146) and the bursts (R147, R148). -/

namespace Sys2Proof.Machine

/-- What an operation does: it ends with a value or with the first error it raises, and in both cases leaves a
state, since what completed before an error stays done (60_exceptions.md R340). -/
abbrev Op (α : Type) := State → Except ErrorRecord α × State

/-- The operation that does nothing and returns a value. -/
def done {α : Type} (a : α) : Op α := fun s => (.ok a, s)

/-- `raise e` (00_scope.md R11, 60_exceptions.md R340), the block's error entry: the operation ends here with
`e`; nothing is saved, no control is transferred, no mode changes (R342), and the state stays as the completed
steps left it. There is no return from an error (R343): the next request starts from that state. -/
def raise {α : Type} (e : ErrorRecord) : Op α := fun s => (.error e, s)

/-- The code of an error record (60_exceptions.md R330). -/
def errorCode : ErrorRecord → Nat
  | .connection _ => 1
  | .transport _ _ => 2
  | .protocol _ _ _ _ => 3
  | .state _ _ => 4
  | .range _ _ => 5
  | .sd _ _ _ _ => 6
  | .value _ => 7

/-- `m`, then `k` of its value; an error of `m` ends both (60_exceptions.md R339, R340). -/
def andThen {α β : Type} (m : Op α) (k : α → Op β) : Op β := fun s =>
  match m s with
  | (.ok a, t) => k a t
  | (.error e, t) => (.error e, t)

/-- The state changed by `f`, no value. -/
def update (f : State → State) : Op Unit := fun s => (.ok (), f s)

/-- An operation that reads the state first. -/
def withState {α : Type} (f : State → Op α) : Op α := fun s => f s s

/-- A result that needs no state: a pure operation (30_encoding.md R110). -/
def computed {α : Type} (r : Except ErrorRecord α) : Op α := fun s => (r, s)

/-- The value `f a` in place of `a`. -/
def mapValue {α β : Type} (f : α → β) (m : Op α) : Op β := andThen m fun a => done (f a)

/-- The result of a main part and of the cleanup that ran after it (60_exceptions.md R346): an error of the main
part is reported and the cleanup's discarded; after a success the cleanup's error is the result. -/
def firstError {α : Type} : Except ErrorRecord α → Except ErrorRecord Unit → Except ErrorRecord α
  | .error e, _ => .error e
  | .ok _, .error e => .error e
  | .ok a, .ok _ => .ok a

/-- `try { m } cleanup { c }` (00_scope.md R11, 60_exceptions.md R346). -/
def withCleanup {α : Type} (m : Op α) (c : Op Unit) : Op α := fun s =>
  match m s with
  | (r, t) =>
    match c t with
    | (d, u) => (firstError r d, u)

/-- The result delivered on the host port (10_state.md R21). -/
def deliver (r : Result) (s : State) : State := { s with results := s.results ++ [r] }

/-- A performed request: its result on the host port and the state it left (10_state.md R21, 60_exceptions.md
R340, R343). `Err(e)` is delivered like `Ok`: the block goes on with the next request. -/
def answer {α : Type} (f : α → Value) (m : Op α) (s : State) : Host.Outcome State Fault Refusal :=
  .next <|
    match m s with
    | (.ok a, t) => deliver (.ok (f a)) t
    | (.error e, t) => deliver (.err e) t

/-- The unit value. -/
def unitValue : Unit → Value := fun _ => .unit

/-! ### Transport primitives (40_framing_codec.md R130, R131) -/

/-- `Send(bs)` (40_framing_codec.md R130). -/
def send (bs : List Byte) : Op Unit := update fun s => { s with tx := s.tx ++ bs }

/-- What the next wait for a received byte gives: the head of RX, or a draw when nothing more is known of what
the device sends (10_state.md R22; log entry 2). -/
def nextRx (s : State) : RxEvent × State :=
  match s.rx with
  | e :: rest => (e, { s with rx := rest })
  | [] => (Config.rxDraw s.draws, { s with draws := s.draws + 1 })

/-- The bytes that arrive, at most `n`, until the timeout expires. -/
def recvUpTo : Nat → State → List Byte × State
  | 0, s => ([], s)
  | n + 1, s =>
    match nextRx s with
    | (.byte b, t) =>
      match recvUpTo n t with
      | (bs, u) => (b :: bs, u)
    | (.timeout, t) => ([], t)

/-- `RecvExact(n)` (40_framing_codec.md R131). -/
def recvExact (n : Nat) : Op (List Byte) := fun s =>
  match recvUpTo n s with
  | (bs, t) => if bs.length = n then (.ok bs, t) else (.error (.transport n bs), t)

/-- `Expect(packet, pat, n, ctx)` (40_framing_codec.md R134): send, receive all `n` bytes, then match. -/
def expect (packet : List Byte) (pat : Pattern) (n : Nat) (ctx : Context) : Op (List Byte) :=
  andThen (send packet) fun _ =>
  andThen (recvExact n) fun bs =>
  if matchPattern pat bs then done (captures pat bs)
  else raise (.protocol pat n bs ctx)

/-! ### Entry checks (41_debug_core.md R182, 60_exceptions.md R339, R345) -/

/-- `require LINK = Open` (60_exceptions.md R345). -/
def requireLink (op : OpName) : Op Unit := fun s =>
  match s.link with
  | .opened => (.ok (), s)
  | .closed => (.error (.state op .linkOpen), s)

/-- `if not EN: raise StateError` (41_debug_core.md R182). -/
def requireEnabled (op : OpName) : Op Unit := fun s =>
  if s.en then (.ok (), s) else (.error (.state op .enabled), s)

/-- The link check, then the enablement check (60_exceptions.md R339). -/
def requireOpenEnabled (op : OpName) : Op Unit := andThen (requireLink op) fun _ => requireEnabled op

/-- `if v < lo or v > hi: raise RangeError` (60_exceptions.md R335). -/
def requireRange (p : Param) (v lo hi : Int) : Op Unit := fun s =>
  if lo ≤ v ∧ v ≤ hi then (.ok (), s) else (.error (.range p (Rat.ofInt v)), s)

/-! ### The exchanges (40_framing_codec.md R140 to R146) -/

/-- A value that is not used. -/
def discard {α : Type} (m : Op α) : Op Unit := mapValue (fun _ => ()) m

/-- `XCFG_WR(cfg)` (40_framing_codec.md R140). -/
def xCfgWr (cfg : Byte) : Op Unit := discard (expect (cfgWrPacket cfg) (fixAll cfgWrAckPacket) 1 .cfgWr)

/-- `XCFG_RD()` (40_framing_codec.md R141): the captured CFG byte. -/
def xCfgRd : Op Byte := mapValue (fun c => c.headD 0) (expect cfgRdPacket [.fix 0x03, .cap] 2 .cfgRd)

/-- `XSET_ADDR(a)` (40_framing_codec.md R142): the whole echo is compared. -/
def xSetAddr (a : Addr) : Op Unit := discard (expect (setAddrPacket a) (fixAll (setAddrAckPacket a)) 3 .setAddr)

/-- `XRD_HDR(n)` (40_framing_codec.md R143), by its length byte `n - 1`. -/
def xRdHdr (lenByte : Byte) : Op Unit := discard (expect (rdPacket lenByte) (fixAll rdAckPacket) 1 .rdHdr)

/-- `XWR_HDR(n)` (40_framing_codec.md R144), by its length byte `n - 1`. -/
def xWrHdr (lenByte : Byte) : Op Unit := discard (expect (wrPacket lenByte) (fixAll wrAckPacket) 1 .wrHdr)

/-- `XWR_DATA(s)` (40_framing_codec.md R145): the raw bytes, then their echo. -/
def xWrData (bs : List Byte) : Op Unit := discard (expect bs (fixAll bs) bs.length .wrData)

/-- `XRD_DATA(k)` (40_framing_codec.md R146): nothing is sent, `k` bytes are received and returned. -/
def xRdData (k : Nat) : Op (List Byte) := expect [] (capAll k) k .rdData

/-! ### Bursts (40_framing_codec.md R147, R148) -/

/-- `if AI: ADDR <- (ADDR + k) mod 2^16` (10_state.md R29, 20_memory.md R58). -/
def advanceAddr (k : Nat) : Op Unit :=
  update fun s => if s.ai then { s with addr := s.addr + BitVec.ofNat 16 k } else s

/-- The sub-packets of a burst: each is sent, echoed, and then counted into ADDR (40_framing_codec.md R147). -/
def writeSubPackets : List (List Byte) → Op Unit
  | [] => done ()
  | p :: ps => andThen (xWrData p) fun _ => andThen (advanceAddr p.length) fun _ => writeSubPackets ps

/-- `WR_BURST(burst)` (40_framing_codec.md R147). -/
def writeBurst (burst : List Byte) : Op Unit :=
  withState fun s =>
  andThen (xWrHdr (lengthByte burst.length)) fun _ => writeSubPackets (chunksOf burst s.cfg.subpkt)

/-- The bursts of a WRITE, in order (41_debug_core.md R180). -/
def writeBursts : List (List Byte) → Op Unit
  | [] => done ()
  | b :: bs => andThen (writeBurst b) fun _ => writeBursts bs

/-- The sub-chunks of a burst, appended to what was read (40_framing_codec.md R148). -/
def readSubChunks : List Nat → List Byte → Op (List Byte)
  | [], out => done out
  | k :: ks, out =>
    andThen (xRdData k) fun bs => andThen (advanceAddr k) fun _ => readSubChunks ks (out ++ bs)

/-- `RD_BURST(n)` (40_framing_codec.md R148). -/
def readBurst (n : Nat) : Op (List Byte) :=
  withState fun s =>
  andThen (xRdHdr (lengthByte n)) fun _ => readSubChunks (chunkSizes n s.cfg.rxChunk) []

/-- The bursts of a READ, appended to what was read (41_debug_core.md R181). -/
def readBursts : List Nat → List Byte → Op (List Byte)
  | [], out => done out
  | n :: ns, out => andThen (readBurst n) fun bs => readBursts ns (out ++ bs)

end Sys2Proof.Machine
end

