-- ==== Sys2Proof/Machine/DebugCore.lean ====
section
/-! DEFINITION. The debug-core command sequencer (41_debug_core.md): the operations, and the meaning of each of
its rows of the opcode table but WITH_CORE_ENABLED (Machine/Session.lean). -/

namespace Sys2Proof.Machine

/-! ### The operations -/

/-- `EN <- false; AI <- false; ADDR <- 0; CS <- UNKNOWN; FDIV <- UNKNOWN` with the link set (41_debug_core.md
R170, R171). -/
def resetShadows (l : Link) (s : State) : State :=
  { s with link := l, en := false, ai := false, addr := 0, cs := .unknown, fdiv := .unknown }

/-- The open draw (41_debug_core.md R170; log entry 3). -/
def drawOpen (s : State) : OpenOutcome × State :=
  match s.opens with
  | o :: rest => (o, { s with opens := rest })
  | [] => (Config.openDraw s.draws, { s with draws := s.draws + 1 })

/-- The four exchanges of INIT: flush handshake, enable, address 0, disable (41_debug_core.md R170). -/
def initExchanges : Op Unit :=
  withState fun s =>
  andThen (expect s.cfg.flushReq s.cfg.flushAck s.cfg.flushAck.length .flush) fun _ =>
  andThen (xCfgWr (cfgByte true false)) fun _ =>
  andThen (xSetAddr 0) fun _ =>
  xCfgWr (cfgByte false false)

/-- INIT (41_debug_core.md R170). -/
def opInit (path : Text) : Op Unit := fun s =>
  match s.link with
  | .opened => (.error (.state .init .linkClosed), s)
  | .closed =>
    match drawOpen s with
    | (.failed, t) => (.error (.connection path), t)
    | (.opened, t) =>
      match initExchanges { t with link := .opened } with
      | (.error e, u) => (.error e, resetShadows .closed u)
      | (.ok _, u) => (.ok (), resetShadows .opened u)

/-- CLOSE (41_debug_core.md R171): all six registers; the streams are left as they are (log entry 30). -/
def opClose : Op Unit := update (resetShadows .closed)

/-- ENABLE_CORE (41_debug_core.md R173). -/
def opEnableCore : Op Unit :=
  andThen (requireLink .enableCore) fun _ =>
  withState fun s =>
  if s.en then raise (.state .enableCore .disabled)
  else andThen (xCfgWr (cfgByte true s.ai)) fun _ => update fun t => { t with en := true }

/-- DISABLE_CORE (41_debug_core.md R174). -/
def opDisableCore : Op Unit :=
  andThen (requireOpenEnabled .disableCore) fun _ =>
  withState fun s =>
  andThen (xCfgWr (cfgByte false s.ai)) fun _ => update fun t => { t with en := false }

/-- SET_ADDRESS (41_debug_core.md R176). -/
def opSetAddress (addr : Int) : Op Unit :=
  andThen (requireRange .addr addr 0 0xFFFF) fun _ =>
  andThen (requireOpenEnabled .setAddress) fun _ =>
  andThen (xSetAddr (BitVec.ofInt 16 addr)) fun _ =>
  update fun t => { t with addr := BitVec.ofInt 16 addr }

/-- SET_AUTO_INCREMENT (41_debug_core.md R177). -/
def opSetAutoIncrement (flag : Bool) : Op Unit :=
  andThen (requireOpenEnabled .setAutoIncrement) fun _ =>
  andThen (xCfgWr (cfgByte true flag)) fun _ => update fun t => { t with ai := flag }

/-- READ_CONFIG (41_debug_core.md R175): no enablement precondition, no shadow written. -/
def opReadConfig : Op Byte := andThen (requireLink .readConfig) fun _ => xCfgRd

/-- WRITE (41_debug_core.md R180). -/
def opWrite (data : List Byte) : Op Unit :=
  andThen (requireOpenEnabled .write) fun _ =>
  withState fun s => writeBursts (chunksOf data s.cfg.maxBurst)

/-- READ (41_debug_core.md R181). -/
def opRead (length : Int) : Op (List Byte) :=
  andThen (requireRange .length length 1 0xFFFF) fun _ =>
  andThen (requireOpenEnabled .read) fun _ =>
  withState fun s => readBursts (chunkSizes length.toNat s.cfg.maxBurst) []

/-! ### The meanings -/

/-- INIT (41_debug_core.md R170). -/
def execInit (path : Text) (s : State) : Host.Outcome State Fault Refusal := answer unitValue (opInit path) s

/-- CLOSE (41_debug_core.md R171). -/
def execClose (s : State) : Host.Outcome State Fault Refusal := answer unitValue opClose s

/-- ENABLE_CORE (41_debug_core.md R173). -/
def execEnableCore (s : State) : Host.Outcome State Fault Refusal := answer unitValue opEnableCore s

/-- DISABLE_CORE (41_debug_core.md R174). -/
def execDisableCore (s : State) : Host.Outcome State Fault Refusal := answer unitValue opDisableCore s

/-- SET_ADDRESS (41_debug_core.md R176). -/
def execSetAddress (addr : Int) (s : State) : Host.Outcome State Fault Refusal :=
  answer unitValue (opSetAddress addr) s

/-- SET_AUTO_INCREMENT (41_debug_core.md R177). -/
def execSetAutoIncrement (flag : Bool) (s : State) : Host.Outcome State Fault Refusal :=
  answer unitValue (opSetAutoIncrement flag) s

/-- ENABLE_AUTO_INCREMENT (41_debug_core.md R178): exactly `SET_AUTO_INCREMENT(true)`, its errors too (log entry
13). -/
def execEnableAutoIncrement (s : State) : Host.Outcome State Fault Refusal :=
  answer unitValue (opSetAutoIncrement true) s

/-- DISABLE_AUTO_INCREMENT (41_debug_core.md R179): exactly `SET_AUTO_INCREMENT(false)` (log entry 13). -/
def execDisableAutoIncrement (s : State) : Host.Outcome State Fault Refusal :=
  answer unitValue (opSetAutoIncrement false) s

/-- READ_CONFIG (41_debug_core.md R175). -/
def execReadConfig (s : State) : Host.Outcome State Fault Refusal := answer .byte opReadConfig s

/-- WRITE (41_debug_core.md R180). -/
def execWrite (data : List Byte) (s : State) : Host.Outcome State Fault Refusal := answer unitValue (opWrite data) s

/-- READ (41_debug_core.md R181). -/
def execRead (length : Int) (s : State) : Host.Outcome State Fault Refusal := answer .bytes (opRead length) s

end Sys2Proof.Machine
end

