-- ==== Sys2Proof/Machine/SpiBridge.lean ====
section
/-! DEFINITION. The SPI multiplexer and chip-select controller (42_spi_bridge.md), built from SET_ADDRESS, WRITE
and READ of the debug core and nothing else. -/

namespace Sys2Proof.Machine

/-! ### The operations -/

/-- `if target_hz <= 0: raise RangeError` (42_spi_bridge.md R211). -/
def requirePositiveHz (q : Rat) : Op Unit := fun s =>
  if q.num ≤ 0 then (.error (.range .targetHz q), s) else (.ok (), s)

/-- SPI_SET_SPEED (42_spi_bridge.md R211): the SPI clock the written divider gives. -/
def opSpiSetSpeed (targetHz : Rat) : Op Rat :=
  andThen (requirePositiveHz targetHz) fun _ =>
  andThen (requireOpenEnabled .spiSetSpeed) fun _ =>
  withState fun s =>
  let fdiv := fdivFor s.cfg.fClk s.cfg.fdivMax targetHz
  andThen (opSetAddress s.cfg.spiFdivAddr.toNat) fun _ =>
  andThen (opWrite [fdiv]) fun _ =>
  andThen (update fun t => { t with fdiv := .known fdiv }) fun _ =>
  done (spiClock s.cfg.fClk fdiv)

/-- SPI_SELECT (42_spi_bridge.md R213). -/
def opSpiSelect (target : Target) : Op Unit :=
  andThen (requireOpenEnabled .spiSelect) fun _ =>
  withState fun s =>
  andThen (opSetAutoIncrement false) fun _ =>
  andThen (opSetAddress s.cfg.spiCsAddr.toNat) fun _ =>
  andThen (opWrite [csMaskOf s.cfg.csMask target]) fun _ =>
  update fun t => { t with cs := .known target }

/-- One SPI byte exchange, XCHG of 42_spi_bridge.md R215: address SPI_DATA, write the byte, read one byte. -/
def spiExchange (b : Byte) : Op (List Byte) :=
  withState fun s =>
  andThen (opSetAddress s.cfg.spiDataAddr.toNat) fun _ =>
  andThen (opWrite [b]) fun _ =>
  opRead 1

/-- The byte exchanges of SPI_WRITE_READ, in order (42_spi_bridge.md R215). -/
def spiExchanges : List Byte → List Byte → Op (List Byte)
  | [], out => done out
  | b :: bs, out => andThen (spiExchange b) fun r => spiExchanges bs (out ++ r)

/-- SPI_WRITE_READ (42_spi_bridge.md R215). -/
def opSpiWriteRead (data : List Byte) : Op (List Byte) :=
  andThen (requireOpenEnabled .spiWriteRead) fun _ => spiExchanges data []

/-- SPI_WRITE (42_spi_bridge.md R216): SPI_WRITE_READ with the read-back bytes discarded. -/
def opSpiWrite (data : List Byte) : Op Unit := discard (opSpiWriteRead data)

/-! ### The meanings -/

/-- SPI_SET_SPEED (42_spi_bridge.md R211). -/
def execSpiSetSpeed (targetHz : Rat) (s : State) : Host.Outcome State Fault Refusal :=
  answer .rational (opSpiSetSpeed targetHz) s

/-- SPI_SELECT (42_spi_bridge.md R213). -/
def execSpiSelect (target : Target) (s : State) : Host.Outcome State Fault Refusal :=
  answer unitValue (opSpiSelect target) s

/-- SPI_DESELECT (42_spi_bridge.md R214): exactly `SPI_SELECT(NONE)`, its errors too (log entry 13). -/
def execSpiDeselect (s : State) : Host.Outcome State Fault Refusal := answer unitValue (opSpiSelect .none) s

/-- SPI_WRITE_READ (42_spi_bridge.md R215). -/
def execSpiWriteRead (data : List Byte) (s : State) : Host.Outcome State Fault Refusal :=
  answer .bytes (opSpiWriteRead data) s

/-- SPI_WRITE (42_spi_bridge.md R216; log entry 13). -/
def execSpiWrite (data : List Byte) (s : State) : Host.Outcome State Fault Refusal :=
  answer unitValue (opSpiWrite data) s

end Sys2Proof.Machine
end

