-- ==== Sys2Proof/Machine/SdCommand.lean ====
section
/-! DEFINITION. The SD command frame builder and command engine (43_sd_command.md). -/

namespace Sys2Proof.Machine

/-! ### The operations -/

/-- The range checks of a command index and an argument, in that order (43_sd_command.md R243, R245). -/
def requireCmdArg (cmd arg : Int) : Op Unit :=
  andThen (requireRange .cmd cmd 0 63) fun _ => requireRange .arg arg 0 0xFFFFFFFF

/-- `shape(table, i)`, or ValueError (43_sd_command.md R242). -/
def requireShape (table : ShapeTable) (i : Nat) : Op Shape := fun s =>
  match lookupShape table i with
  | some sh => (.ok sh, s)
  | none => (.error (.value (.unknownCommand i)), s)

/-- SD_BUILD_FRAME (43_sd_command.md R243). -/
def opSdBuildFrame (cmd arg : Int) : Op (List Byte) :=
  andThen (requireCmdArg cmd arg) fun _ => done (sdFrame cmd.toNat (BitVec.ofInt 32 arg))

/-- `SPI_WRITE_READ([0xFF])[0]` (43_sd_command.md R244, R245): one dummy byte clocked, the byte read back. -/
def clockDummy : Op Byte :=
  withState fun s => mapValue (fun bs => bs.headD 0) (opSpiWriteRead [s.cfg.dummy])

/-- POLL (43_sd_command.md R244): at most `n` dummy bytes, until a byte whose bit 7 is 0. -/
def pollToken : Nat → List Byte → Op (Option Byte × List Byte)
  | 0, raw => done (none, raw)
  | n + 1, raw =>
    andThen clockDummy fun b =>
    if b.getLsbD 7 then pollToken n (raw ++ [b]) else done (some b, raw ++ [b])

/-- The extension bytes, one dummy byte each (43_sd_command.md R245 step 6, R250). -/
def readExtension : Nat → List Byte → Op (List Byte)
  | 0, ext => done ext
  | n + 1, ext => andThen clockDummy fun b => readExtension n (ext ++ [b])

/-- Steps 5 to 7 of SD_SEND_CMD for a token: the R1 check, the extension bytes, the decode and the extended check
(43_sd_command.md R245). `raw` holds the poll bytes, which the extension bytes follow (R247; log entry 15). -/
def decodeReply (cmd : Nat) (arg : Word32) (shape : Shape) (tok : Byte) (raw : List Byte) : Op SdReply :=
  withState fun s =>
  andThen (computed (decodeR1 tok)) fun r1 =>
  if r1Error s.cfg.r1ErrMask r1 then raise (.sd cmd arg raw (some (.r1 r1)))
  else
    andThen (readExtension (extraBytes shape) []) fun ext =>
    andThen (computed (decodeResponse shape tok ext)) fun resp =>
    if sdErrorOf s.cfg.r1ErrMask s.cfg.r2ErrMask resp then raise (.sd cmd arg (raw ++ ext) (some resp))
    else done ⟨resp, raw ++ ext⟩

/-- Steps 3 to 7 of SD_SEND_CMD, its `try` part (43_sd_command.md R245). -/
def commandExchange (cmd : Nat) (arg : Word32) (shape : Shape) : Op SdReply :=
  withState fun s =>
  andThen (opSpiSelect .sd) fun _ =>
  andThen (opSpiWrite (sdFrame cmd arg)) fun _ =>
  andThen (pollToken s.cfg.ncrMax []) fun p =>
  match p with
  | (none, raw) => raise (.sd cmd arg raw none)
  | (some tok, raw) => decodeReply cmd arg shape tok raw

/-- Step 8 of SD_SEND_CMD: the trailing dummy bytes (43_sd_command.md R245, R246). -/
def flushDummies : Op Unit := withState fun s => opSpiWrite (List.replicate s.cfg.flushN s.cfg.dummy)

/-- Step 9 of SD_SEND_CMD: deselect on any error, or when the card is not kept (43_sd_command.md R245, R246). -/
def deselectUnlessKept {α : Type} (keep : Bool) (m : Op α) : Op α := fun s =>
  match m s with
  | (.ok a, t) => if keep then (.ok a, t) else withCleanup (done a) (opSpiSelect .none) t
  | (.error e, t) => withCleanup (raise e) (opSpiSelect .none) t

/-- SD_SEND_CMD with a shape table (43_sd_command.md R245). -/
def opSdSendCmd (table : ShapeTable) (cmd arg : Int) (keep : Bool) : Op SdReply :=
  andThen (requireCmdArg cmd arg) fun _ =>
  andThen (requireShape table cmd.toNat) fun shape =>
  deselectUnlessKept keep
    (withCleanup (commandExchange cmd.toNat (BitVec.ofInt 32 arg) shape) flushDummies)

/-- SD_SEND_CMD as a host request: the table is `CMD_SHAPE` (43_sd_command.md R245). -/
def opSdSendCmdHost (cmd arg : Int) (keep : Bool) : Op SdReply :=
  withState fun s => opSdSendCmd s.cfg.cmdShape cmd arg keep

/-- SD_SEND_ACMD (43_sd_command.md R248): the checks, then CMD55, then the application command. -/
def opSdSendAcmd (acmd arg : Int) (keep : Bool) : Op SdReply :=
  withState fun s =>
  andThen (requireCmdArg acmd arg) fun _ =>
  andThen (requireShape s.cfg.acmdShape acmd.toNat) fun _ =>
  andThen (opSdSendCmd s.cfg.cmdShape 55 0 false) fun _ =>
  opSdSendCmd s.cfg.acmdShape acmd arg keep

/-! ### The meanings -/

/-- SD_BUILD_FRAME (43_sd_command.md R243). -/
def execSdBuildFrame (cmd arg : Int) (s : State) : Host.Outcome State Fault Refusal :=
  answer .bytes (opSdBuildFrame cmd arg) s

/-- SD_SEND_CMD (43_sd_command.md R245). -/
def execSdSendCmd (cmd arg : Int) (keep : Bool) (s : State) : Host.Outcome State Fault Refusal :=
  answer .reply (opSdSendCmdHost cmd arg keep) s

/-- SD_SEND_ACMD (43_sd_command.md R248). -/
def execSdSendAcmd (acmd arg : Int) (keep : Bool) (s : State) : Host.Outcome State Fault Refusal :=
  answer .reply (opSdSendAcmd acmd arg keep) s

end Sys2Proof.Machine
end

