-- ==== Sys2Proof/Machine/SdFrames.lean ====
section
/-! DEFINITION. The SD command frames as rows of the opcode table (30_encoding.md R94): a CMD row is SD_SEND_CMD of
its index (43_sd_command.md R245), an ACMD row SD_SEND_ACMD of its index (R248). The frame sent is built anew, its CRC
computed (R249), so the CRC field of the row takes no part (log entry 9). -/

namespace Sys2Proof.Machine

/-- A CMD row (43_sd_command.md R245). -/
def cmdRow (cmd : Nat) (arg : Word32) (keep : Bool) (s : State) : Host.Outcome State Fault Refusal :=
  answer .reply (opSdSendCmdHost cmd arg.toNat keep) s

/-- An ACMD row (43_sd_command.md R248). -/
def acmdRow (acmd : Nat) (arg : Word32) (keep : Bool) (s : State) : Host.Outcome State Fault Refusal :=
  answer .reply (opSdSendAcmd acmd arg.toNat keep) s

/-- CMD0_GO_IDLE_STATE (43_sd_command.md R240, R245). -/
def execCmd0GoIdleState (arg : Word32) (_crc : BitVec 7) (keep : Bool) (s : State) : Host.Outcome State Fault Refusal :=
  cmdRow 0 arg keep s

/-- CMD1_SEND_OP_COND (43_sd_command.md R240, R245). -/
def execCmd1SendOpCond (arg : Word32) (_crc : BitVec 7) (keep : Bool) (s : State) : Host.Outcome State Fault Refusal :=
  cmdRow 1 arg keep s

/-- CMD6_SWITCH_FUNC (43_sd_command.md R240, R245). -/
def execCmd6SwitchFunc (arg : Word32) (_crc : BitVec 7) (keep : Bool) (s : State) : Host.Outcome State Fault Refusal :=
  cmdRow 6 arg keep s

/-- CMD8_SEND_IF_COND (43_sd_command.md R240, R245). -/
def execCmd8SendIfCond (arg : Word32) (_crc : BitVec 7) (keep : Bool) (s : State) : Host.Outcome State Fault Refusal :=
  cmdRow 8 arg keep s

/-- CMD9_SEND_CSD (43_sd_command.md R240, R245). -/
def execCmd9SendCsd (arg : Word32) (_crc : BitVec 7) (keep : Bool) (s : State) : Host.Outcome State Fault Refusal :=
  cmdRow 9 arg keep s

/-- CMD10_SEND_CID (43_sd_command.md R240, R245). -/
def execCmd10SendCid (arg : Word32) (_crc : BitVec 7) (keep : Bool) (s : State) : Host.Outcome State Fault Refusal :=
  cmdRow 10 arg keep s

/-- CMD12_STOP_TRANSMISSION (43_sd_command.md R240, R245). -/
def execCmd12StopTransmission (arg : Word32) (_crc : BitVec 7) (keep : Bool) (s : State) : Host.Outcome State Fault Refusal :=
  cmdRow 12 arg keep s

/-- CMD13_SEND_STATUS (43_sd_command.md R240, R245). -/
def execCmd13SendStatus (arg : Word32) (_crc : BitVec 7) (keep : Bool) (s : State) : Host.Outcome State Fault Refusal :=
  cmdRow 13 arg keep s

/-- CMD16_SET_BLOCKLEN (43_sd_command.md R240, R245). -/
def execCmd16SetBlocklen (arg : Word32) (_crc : BitVec 7) (keep : Bool) (s : State) : Host.Outcome State Fault Refusal :=
  cmdRow 16 arg keep s

/-- CMD17_READ_SINGLE_BLOCK (43_sd_command.md R240, R245). -/
def execCmd17ReadSingleBlock (arg : Word32) (_crc : BitVec 7) (keep : Bool) (s : State) : Host.Outcome State Fault Refusal :=
  cmdRow 17 arg keep s

/-- CMD18_READ_MULTIPLE_BLOCK (43_sd_command.md R240, R245). -/
def execCmd18ReadMultipleBlock (arg : Word32) (_crc : BitVec 7) (keep : Bool) (s : State) : Host.Outcome State Fault Refusal :=
  cmdRow 18 arg keep s

/-- CMD24_WRITE_BLOCK (43_sd_command.md R240, R245). -/
def execCmd24WriteBlock (arg : Word32) (_crc : BitVec 7) (keep : Bool) (s : State) : Host.Outcome State Fault Refusal :=
  cmdRow 24 arg keep s

/-- CMD25_WRITE_MULTIPLE_BLOCK (43_sd_command.md R240, R245). -/
def execCmd25WriteMultipleBlock (arg : Word32) (_crc : BitVec 7) (keep : Bool) (s : State) : Host.Outcome State Fault Refusal :=
  cmdRow 25 arg keep s

/-- CMD27_PROGRAM_CSD (43_sd_command.md R240, R245). -/
def execCmd27ProgramCsd (arg : Word32) (_crc : BitVec 7) (keep : Bool) (s : State) : Host.Outcome State Fault Refusal :=
  cmdRow 27 arg keep s

/-- CMD28_SET_WRITE_PROT (43_sd_command.md R240, R245). -/
def execCmd28SetWriteProt (arg : Word32) (_crc : BitVec 7) (keep : Bool) (s : State) : Host.Outcome State Fault Refusal :=
  cmdRow 28 arg keep s

/-- CMD29_CLR_WRITE_PROT (43_sd_command.md R240, R245). -/
def execCmd29ClrWriteProt (arg : Word32) (_crc : BitVec 7) (keep : Bool) (s : State) : Host.Outcome State Fault Refusal :=
  cmdRow 29 arg keep s

/-- CMD30_SEND_WRITE_PROT (43_sd_command.md R240, R245). -/
def execCmd30SendWriteProt (arg : Word32) (_crc : BitVec 7) (keep : Bool) (s : State) : Host.Outcome State Fault Refusal :=
  cmdRow 30 arg keep s

/-- CMD32_ERASE_WR_BLK_START_ADDR (43_sd_command.md R240, R245). -/
def execCmd32EraseWrBlkStartAddr (arg : Word32) (_crc : BitVec 7) (keep : Bool) (s : State) : Host.Outcome State Fault Refusal :=
  cmdRow 32 arg keep s

/-- CMD33_ERASE_WR_BLK_END_ADDR (43_sd_command.md R240, R245). -/
def execCmd33EraseWrBlkEndAddr (arg : Word32) (_crc : BitVec 7) (keep : Bool) (s : State) : Host.Outcome State Fault Refusal :=
  cmdRow 33 arg keep s

/-- CMD38_ERASE (43_sd_command.md R240, R245). -/
def execCmd38Erase (arg : Word32) (_crc : BitVec 7) (keep : Bool) (s : State) : Host.Outcome State Fault Refusal :=
  cmdRow 38 arg keep s

/-- CMD42_LOCK_UNLOCK (43_sd_command.md R240, R245). -/
def execCmd42LockUnlock (arg : Word32) (_crc : BitVec 7) (keep : Bool) (s : State) : Host.Outcome State Fault Refusal :=
  cmdRow 42 arg keep s

/-- CMD55_APP_CMD (43_sd_command.md R240, R245). -/
def execCmd55AppCmd (arg : Word32) (_crc : BitVec 7) (keep : Bool) (s : State) : Host.Outcome State Fault Refusal :=
  cmdRow 55 arg keep s

/-- CMD56_GEN_CMD (43_sd_command.md R240, R245). -/
def execCmd56GenCmd (arg : Word32) (_crc : BitVec 7) (keep : Bool) (s : State) : Host.Outcome State Fault Refusal :=
  cmdRow 56 arg keep s

/-- CMD58_READ_OCR (43_sd_command.md R240, R245). -/
def execCmd58ReadOcr (arg : Word32) (_crc : BitVec 7) (keep : Bool) (s : State) : Host.Outcome State Fault Refusal :=
  cmdRow 58 arg keep s

/-- CMD59_CRC_ON_OFF (43_sd_command.md R240, R245). -/
def execCmd59CrcOnOff (arg : Word32) (_crc : BitVec 7) (keep : Bool) (s : State) : Host.Outcome State Fault Refusal :=
  cmdRow 59 arg keep s

/-- ACMD13_SD_STATUS (43_sd_command.md R241, R248). -/
def execAcmd13SdStatus (arg : Word32) (_crc : BitVec 7) (keep : Bool) (s : State) : Host.Outcome State Fault Refusal :=
  acmdRow 13 arg keep s

/-- ACMD22_SEND_NUM_WR_BLOCKS (43_sd_command.md R241, R248). -/
def execAcmd22SendNumWrBlocks (arg : Word32) (_crc : BitVec 7) (keep : Bool) (s : State) : Host.Outcome State Fault Refusal :=
  acmdRow 22 arg keep s

/-- ACMD23_SET_WR_BLK_ERASE_COUNT (43_sd_command.md R241, R248). -/
def execAcmd23SetWrBlkEraseCount (arg : Word32) (_crc : BitVec 7) (keep : Bool) (s : State) : Host.Outcome State Fault Refusal :=
  acmdRow 23 arg keep s

/-- ACMD41_SD_SEND_OP_COND (43_sd_command.md R241, R248). -/
def execAcmd41SdSendOpCond (arg : Word32) (_crc : BitVec 7) (keep : Bool) (s : State) : Host.Outcome State Fault Refusal :=
  acmdRow 41 arg keep s

/-- ACMD42_SET_CLR_CARD_DETECT (43_sd_command.md R241, R248). -/
def execAcmd42SetClrCardDetect (arg : Word32) (_crc : BitVec 7) (keep : Bool) (s : State) : Host.Outcome State Fault Refusal :=
  acmdRow 42 arg keep s

/-- ACMD51_SEND_SCR (43_sd_command.md R241, R248). -/
def execAcmd51SendScr (arg : Word32) (_crc : BitVec 7) (keep : Bool) (s : State) : Host.Outcome State Fault Refusal :=
  acmdRow 51 arg keep s

end Sys2Proof.Machine
end

