-- ==== Sys2Proof/Machine/Codec.lean ====
section
/-! DEFINITION. The framing codec's host operations (40_framing_codec.md R134, R136). -/

namespace Sys2Proof.Machine

/-- SEND_AND_EXPECT as a host operation (40_framing_codec.md R134): the link check, then the exchange. -/
def opSendAndExpect (packet : List Byte) (pattern : Pattern) (n : Nat) (ctx : Text) : Op (List Byte) :=
  andThen (requireLink .sendAndExpect) fun _ => expect packet pattern n (.text ctx)

/-- `scatter(xs, k)` (40_framing_codec.md R136). -/
def scatterOf (xs : List Nat) (k : Int) : Except ErrorRecord (List (List Nat)) :=
  if k < 1 then .error (.range .k (Rat.ofInt k)) else .ok (chunksOf xs k.toNat)

/-- SEND_AND_EXPECT (40_framing_codec.md R134); refused when the pattern is not of the expected length (R133). -/
def execSendAndExpect (packet : List Byte) (pattern : Pattern) (n : Nat) (ctx : Text) (s : State) :
    Host.Outcome State Fault Refusal :=
  if pattern.length = n then answer .bytes (opSendAndExpect packet pattern n ctx) s else .refused .patternLength

/-- SCATTER (40_framing_codec.md R136). -/
def execScatter (xs : List Nat) (k : Int) (s : State) : Host.Outcome State Fault Refusal :=
  answer .chunks (computed (scatterOf xs k)) s

end Sys2Proof.Machine
end

