-- ==== Sys2Proof/Machine/SdDecode.lean ====
section
/-! DEFINITION. The pure host operations: the SD response decoders (44_sd_response.md) and CRC7 (45_crc7.md). They
do no I/O and need no link (30_encoding.md R110, 60_exceptions.md R345). -/

namespace Sys2Proof.Machine

/-- SD_DECODE_R1 (44_sd_response.md R281): an R1 record. -/
def execSdDecodeR1 (t : Byte) (s : State) : Host.Outcome State Fault Refusal := answer .r1 (computed (decodeR1 t)) s

/-- SD_DECODE_R1B (44_sd_response.md R284). -/
def execSdDecodeR1b (t b : Byte) (s : State) : Host.Outcome State Fault Refusal :=
  answer .response (computed (decodeResponse .r1b t [b])) s

/-- SD_DECODE_R2 (44_sd_response.md R285). -/
def execSdDecodeR2 (t b : Byte) (s : State) : Host.Outcome State Fault Refusal :=
  answer .response (computed (decodeResponse .r2 t [b])) s

/-- SD_DECODE_R3 (44_sd_response.md R287). -/
def execSdDecodeR3 (t b1 b2 b3 b4 : Byte) (s : State) : Host.Outcome State Fault Refusal :=
  answer .response (computed (decodeResponse .r3 t [b1, b2, b3, b4])) s

/-- SD_DECODE_R7 (44_sd_response.md R289). -/
def execSdDecodeR7 (t b1 b2 b3 b4 : Byte) (s : State) : Host.Outcome State Fault Refusal :=
  answer .response (computed (decodeResponse .r7 t [b1, b2, b3, b4])) s

/-- `sd_error` with the block's masks (44_sd_response.md R291). -/
def opSdError (resp : SDResponse) : Op Bool :=
  withState fun s => done (sdErrorOf s.cfg.r1ErrMask s.cfg.r2ErrMask resp)

/-- SD_ERROR (44_sd_response.md R291). -/
def execSdError (resp : SDResponse) (s : State) : Host.Outcome State Fault Refusal := answer .bit (opSdError resp) s

/-- CRC7 (45_crc7.md R320). -/
def execCrc7 (bytes : List Byte) (s : State) : Host.Outcome State Fault Refusal :=
  answer .crc (done (crc7Of bytes)) s

end Sys2Proof.Machine
end

