-- ==== Sys2Proof/Machine/Session.lean ====
section
/-! DEFINITION. The scoped session WITH_CORE_ENABLED (41_debug_core.md R183), and the performing of a host request
inside one. -/

namespace Sys2Proof.Machine

/-- The session's cleanup, `if EN: DISABLE_CORE` (41_debug_core.md R183). -/
def disableIfEnabled : Op Unit := withState fun s => if s.en then opDisableCore else done ()

/-- WITH_CORE_ENABLED around a body (41_debug_core.md R183). -/
def session {α : Type} (body : Op α) : Op α := andThen opEnableCore fun _ => withCleanup body disableIfEnabled

mutual
/-- `perform(req)` (41_debug_core.md R183): the operation of a host request, with its result as a value. -/
def perform : Request → Op Value
  | .init path => mapValue unitValue (opInit path)
  | .close => mapValue unitValue opClose
  | .enableCore => mapValue unitValue opEnableCore
  | .disableCore => mapValue unitValue opDisableCore
  | .setAddress addr => mapValue unitValue (opSetAddress addr)
  | .setAutoIncrement flag => mapValue unitValue (opSetAutoIncrement flag)
  | .enableAutoIncrement => mapValue unitValue (opSetAutoIncrement true)
  | .disableAutoIncrement => mapValue unitValue (opSetAutoIncrement false)
  | .readConfig => mapValue .byte opReadConfig
  | .write data => mapValue unitValue (opWrite data)
  | .read length => mapValue .bytes (opRead length)
  | .withCoreEnabled body => mapValue .results (session (performAll body))
  | .sendAndExpect packet pattern n ctx => mapValue .bytes (opSendAndExpect packet pattern n ctx)
  | .scatter xs k => mapValue .chunks (computed (scatterOf xs k))
  | .spiSetSpeed targetHz => mapValue .rational (opSpiSetSpeed targetHz)
  | .spiSelect target => mapValue unitValue (opSpiSelect target)
  | .spiDeselect => mapValue unitValue (opSpiSelect .none)
  | .spiWriteRead data => mapValue .bytes (opSpiWriteRead data)
  | .spiWrite data => mapValue unitValue (opSpiWrite data)
  | .sdBuildFrame cmd arg => mapValue .bytes (opSdBuildFrame cmd arg)
  | .sdSendCmd cmd arg keep => mapValue .reply (opSdSendCmdHost cmd arg keep)
  | .sdSendAcmd acmd arg keep => mapValue .reply (opSdSendAcmd acmd arg keep)
  | .sdDecodeR1 t => mapValue .r1 (computed (decodeR1 t))
  | .sdDecodeR1b t b => mapValue .response (computed (decodeResponse .r1b t [b]))
  | .sdDecodeR2 t b => mapValue .response (computed (decodeResponse .r2 t [b]))
  | .sdDecodeR3 t b1 b2 b3 b4 => mapValue .response (computed (decodeResponse .r3 t [b1, b2, b3, b4]))
  | .sdDecodeR7 t b1 b2 b3 b4 => mapValue .response (computed (decodeResponse .r7 t [b1, b2, b3, b4]))
  | .sdError resp => mapValue .bit (opSdError resp)
  | .crc7 bytes => mapValue .crc (done (crc7Of bytes))
/-- The requests of a body in order, up to the first error; their results in order. -/
def performAll : Requests → Op Values
  | .nil => done .nil
  | .cons r rs => andThen (perform r) fun v => mapValue (.cons v) (performAll rs)
end

/-- WITH_CORE_ENABLED (41_debug_core.md R183); refused when a request of the body is one that is refused
(30_encoding.md R111; log entry 16). -/
def execWithCoreEnabled (body : Requests) (s : State) : Host.Outcome State Fault Refusal :=
  if requestsAdmissible body then answer .results (session (performAll body)) s else .refused .badBody

end Sys2Proof.Machine
end

