-- ==== Sys2Proof/Machine/WirePackets.lean ====
section
/-! DEFINITION. The wire packets as rows of the opcode table (30_encoding.md R81). A packet the block sends is its
exchange (40_framing_codec.md R140 to R144; log entry 7); a packet the device sends is its arrival on RX (10_state.md
R22, 60_exceptions.md R347; log entry 8). -/

namespace Sys2Proof.Machine

/-- The bytes of a packet arriving on RX, after what has already arrived: "Data arriving on RX between operations is
not an event; it waits in RX" (60_exceptions.md R347). -/
def arrive (bs : List Byte) (s : State) : State := { s with rx := s.rx ++ bs.map .byte }

/-- The exchange of a packet the block sends, with the link check every wire I/O has (60_exceptions.md R345). -/
def packetExchange {α : Type} (op : OpName) (x : Op α) : Op α := andThen (requireLink op) fun _ => x

/-- CFG_RD, the exchange XCFG_RD (40_framing_codec.md R141). -/
def execCfgRd (s : State) : Host.Outcome State Fault Refusal := answer .byte (packetExchange .cfgRd xCfgRd) s

/-- CFG_WR, the exchange XCFG_WR (40_framing_codec.md R140); no shadow is written. -/
def execCfgWr (en ai : Bool) (s : State) : Host.Outcome State Fault Refusal :=
  answer unitValue (packetExchange .cfgWr (xCfgWr (cfgByte en ai))) s

/-- SET_ADDR, the exchange XSET_ADDR (40_framing_codec.md R142); no shadow is written. -/
def execSetAddr (addr : Addr) (s : State) : Host.Outcome State Fault Refusal :=
  answer unitValue (packetExchange .setAddr (xSetAddr addr)) s

/-- RD, the exchange XRD_HDR (40_framing_codec.md R143). A length byte that stands for more than MAX_BURST bytes, of which
R84 and R143 say nothing, is transmitted as any other: DESIGN CHOICE, log entry 31. -/
def execRd (lenByte : Byte) (s : State) : Host.Outcome State Fault Refusal :=
  answer unitValue (packetExchange .rd (xRdHdr lenByte)) s

/-- WR, the exchange XWR_HDR (40_framing_codec.md R144). A length byte that stands for more than MAX_BURST bytes, of which
R84 and R144 say nothing, is transmitted as any other: DESIGN CHOICE, log entry 31. -/
def execWr (lenByte : Byte) (s : State) : Host.Outcome State Fault Refusal :=
  answer unitValue (packetExchange .wr (xWrHdr lenByte)) s

/-- CFG_RD_ACK arrives (30_encoding.md R83). -/
def execCfgRdAck (cfg : Byte) (s : State) : Host.Outcome State Fault Refusal := .next (arrive (cfgRdAckPacket cfg) s)

/-- CFG_WR_ACK arrives (30_encoding.md R83). -/
def execCfgWrAck (s : State) : Host.Outcome State Fault Refusal := .next (arrive cfgWrAckPacket s)

/-- SET_ADDR_ACK arrives (30_encoding.md R85). -/
def execSetAddrAck (addr : Addr) (s : State) : Host.Outcome State Fault Refusal :=
  .next (arrive (setAddrAckPacket addr) s)

/-- RD_ACK arrives (30_encoding.md R86). -/
def execRdAck (s : State) : Host.Outcome State Fault Refusal := .next (arrive rdAckPacket s)

/-- WR_ACK arrives (30_encoding.md R87). -/
def execWrAck (s : State) : Host.Outcome State Fault Refusal := .next (arrive wrAckPacket s)

end Sys2Proof.Machine
end

