-- ==== Sys2Proof/Machine/Dispatch.lean ====
section
/-! DEFINITION. One arm per row of the opcode table. -/

namespace Sys2Proof.Machine

def exec (i : Instr) (s : State) : Host.Outcome State Fault Refusal :=
  match i with
  | .init path => Sys2Proof.Machine.execInit path s
  | .close => Sys2Proof.Machine.execClose s
  | .enableCore => Sys2Proof.Machine.execEnableCore s
  | .disableCore => Sys2Proof.Machine.execDisableCore s
  | .setAddress addr => Sys2Proof.Machine.execSetAddress addr s
  | .setAutoIncrement flag => Sys2Proof.Machine.execSetAutoIncrement flag s
  | .enableAutoIncrement => Sys2Proof.Machine.execEnableAutoIncrement s
  | .disableAutoIncrement => Sys2Proof.Machine.execDisableAutoIncrement s
  | .readConfig => Sys2Proof.Machine.execReadConfig s
  | .write data => Sys2Proof.Machine.execWrite data s
  | .read length => Sys2Proof.Machine.execRead length s
  | .withCoreEnabled body => Sys2Proof.Machine.execWithCoreEnabled body s
  | .sendAndExpect packet pattern n ctx => Sys2Proof.Machine.execSendAndExpect packet pattern n ctx s
  | .scatter xs k => Sys2Proof.Machine.execScatter xs k s
  | .spiSetSpeed targetHz => Sys2Proof.Machine.execSpiSetSpeed targetHz s
  | .spiSelect target => Sys2Proof.Machine.execSpiSelect target s
  | .spiDeselect => Sys2Proof.Machine.execSpiDeselect s
  | .spiWriteRead data => Sys2Proof.Machine.execSpiWriteRead data s
  | .spiWrite data => Sys2Proof.Machine.execSpiWrite data s
  | .sdBuildFrame cmd arg => Sys2Proof.Machine.execSdBuildFrame cmd arg s
  | .sdSendCmd cmd arg keep => Sys2Proof.Machine.execSdSendCmd cmd arg keep s
  | .sdSendAcmd acmd arg keep => Sys2Proof.Machine.execSdSendAcmd acmd arg keep s
  | .sdDecodeR1 t => Sys2Proof.Machine.execSdDecodeR1 t s
  | .sdDecodeR1b t b => Sys2Proof.Machine.execSdDecodeR1b t b s
  | .sdDecodeR2 t b => Sys2Proof.Machine.execSdDecodeR2 t b s
  | .sdDecodeR3 t b1 b2 b3 b4 => Sys2Proof.Machine.execSdDecodeR3 t b1 b2 b3 b4 s
  | .sdDecodeR7 t b1 b2 b3 b4 => Sys2Proof.Machine.execSdDecodeR7 t b1 b2 b3 b4 s
  | .sdError resp => Sys2Proof.Machine.execSdError resp s
  | .crc7 bytes => Sys2Proof.Machine.execCrc7 bytes s
  | .cfgRd => Sys2Proof.Machine.execCfgRd s
  | .cfgRdAck cfg => Sys2Proof.Machine.execCfgRdAck cfg s
  | .cfgWr en ai => Sys2Proof.Machine.execCfgWr en ai s
  | .cfgWrAck => Sys2Proof.Machine.execCfgWrAck s
  | .setAddr addr => Sys2Proof.Machine.execSetAddr addr s
  | .setAddrAck addr => Sys2Proof.Machine.execSetAddrAck addr s
  | .rd lenByte => Sys2Proof.Machine.execRd lenByte s
  | .rdAck => Sys2Proof.Machine.execRdAck s
  | .wr lenByte => Sys2Proof.Machine.execWr lenByte s
  | .wrAck => Sys2Proof.Machine.execWrAck s
  | .cmd0GoIdleState arg crc keep => Sys2Proof.Machine.execCmd0GoIdleState arg crc keep s
  | .cmd1SendOpCond arg crc keep => Sys2Proof.Machine.execCmd1SendOpCond arg crc keep s
  | .cmd6SwitchFunc arg crc keep => Sys2Proof.Machine.execCmd6SwitchFunc arg crc keep s
  | .cmd8SendIfCond arg crc keep => Sys2Proof.Machine.execCmd8SendIfCond arg crc keep s
  | .cmd9SendCsd arg crc keep => Sys2Proof.Machine.execCmd9SendCsd arg crc keep s
  | .cmd10SendCid arg crc keep => Sys2Proof.Machine.execCmd10SendCid arg crc keep s
  | .cmd12StopTransmission arg crc keep => Sys2Proof.Machine.execCmd12StopTransmission arg crc keep s
  | .cmd13SendStatus arg crc keep => Sys2Proof.Machine.execCmd13SendStatus arg crc keep s
  | .cmd16SetBlocklen arg crc keep => Sys2Proof.Machine.execCmd16SetBlocklen arg crc keep s
  | .cmd17ReadSingleBlock arg crc keep => Sys2Proof.Machine.execCmd17ReadSingleBlock arg crc keep s
  | .cmd18ReadMultipleBlock arg crc keep => Sys2Proof.Machine.execCmd18ReadMultipleBlock arg crc keep s
  | .cmd24WriteBlock arg crc keep => Sys2Proof.Machine.execCmd24WriteBlock arg crc keep s
  | .cmd25WriteMultipleBlock arg crc keep => Sys2Proof.Machine.execCmd25WriteMultipleBlock arg crc keep s
  | .cmd27ProgramCsd arg crc keep => Sys2Proof.Machine.execCmd27ProgramCsd arg crc keep s
  | .cmd28SetWriteProt arg crc keep => Sys2Proof.Machine.execCmd28SetWriteProt arg crc keep s
  | .cmd29ClrWriteProt arg crc keep => Sys2Proof.Machine.execCmd29ClrWriteProt arg crc keep s
  | .cmd30SendWriteProt arg crc keep => Sys2Proof.Machine.execCmd30SendWriteProt arg crc keep s
  | .cmd32EraseWrBlkStartAddr arg crc keep => Sys2Proof.Machine.execCmd32EraseWrBlkStartAddr arg crc keep s
  | .cmd33EraseWrBlkEndAddr arg crc keep => Sys2Proof.Machine.execCmd33EraseWrBlkEndAddr arg crc keep s
  | .cmd38Erase arg crc keep => Sys2Proof.Machine.execCmd38Erase arg crc keep s
  | .cmd42LockUnlock arg crc keep => Sys2Proof.Machine.execCmd42LockUnlock arg crc keep s
  | .cmd55AppCmd arg crc keep => Sys2Proof.Machine.execCmd55AppCmd arg crc keep s
  | .cmd56GenCmd arg crc keep => Sys2Proof.Machine.execCmd56GenCmd arg crc keep s
  | .cmd58ReadOcr arg crc keep => Sys2Proof.Machine.execCmd58ReadOcr arg crc keep s
  | .cmd59CrcOnOff arg crc keep => Sys2Proof.Machine.execCmd59CrcOnOff arg crc keep s
  | .acmd13SdStatus arg crc keep => Sys2Proof.Machine.execAcmd13SdStatus arg crc keep s
  | .acmd22SendNumWrBlocks arg crc keep => Sys2Proof.Machine.execAcmd22SendNumWrBlocks arg crc keep s
  | .acmd23SetWrBlkEraseCount arg crc keep => Sys2Proof.Machine.execAcmd23SetWrBlkEraseCount arg crc keep s
  | .acmd41SdSendOpCond arg crc keep => Sys2Proof.Machine.execAcmd41SdSendOpCond arg crc keep s
  | .acmd42SetClrCardDetect arg crc keep => Sys2Proof.Machine.execAcmd42SetClrCardDetect arg crc keep s
  | .acmd51SendScr arg crc keep => Sys2Proof.Machine.execAcmd51SendScr arg crc keep s

end Sys2Proof.Machine
end

