-- ==== Sys2Proof/Machine/Step.lean ====
section
/-! DEFINITION. One step: the next waiting request, if there is one, is taken, decoded and performed (00_scope.md R18,
10_state.md R21). The block fetches nothing from memory (20_memory.md R63): what it executes is what is submitted to
it. -/

namespace Sys2Proof.Machine

/-- One step. An ill-formed configuration is refused (00_scope.md R8); with nothing waiting, nothing happens
(60_exceptions.md R347; log entry 17); bytes that are no request are refused (30_encoding.md R111); otherwise the
request is accepted, leaves the queue, and is performed to completion or to its first error. -/
def step (s : State) : Host.Outcome State Fault Refusal :=
  if configOk s.cfg then
    match s.requests with
    | [] => .next s
    | x :: xs =>
      match decodeSubmission x with
      | .error e => .refused (.badRequest e)
      | .ok i => exec i { s with requests := xs }
  else .refused .badConfiguration

/-- The state with a word of the opcode table waiting as the next request (log entry 5). -/
def State.withFetchWord (s : State) (nbits w : Nat) : State :=
  { s with requests := tableSubmission nbits w :: s.requests }

end Sys2Proof.Machine
end

