-- ==== Sys2Proof/Safety.lean ====
section
/-! DEFINITION. What counts as a safe run, and the words the statements use: the modes (60_exceptions.md R348), the
invariant of the registers (10_state.md R43), the bytes the block sends and expects in each operation (the device's
answers), and which errors an instruction may end with (60_exceptions.md R338). -/

namespace Sys2Proof

open Sys2Proof.Machine

/-! ### Modes and the invariant -/

/-- The modes (60_exceptions.md R348). -/
inductive Mode where
  | uninitialised | disabled | enabled
  deriving DecidableEq, Repr

/-- The mode of a state, if its LINK and EN are one of the three of 60_exceptions.md R348. -/
def modeOf (s : State) : Option Mode :=
  match s.link, s.en with
  | .closed, false => some .uninitialised
  | .opened, false => some .disabled
  | .opened, true => some .enabled
  | .closed, true => none

/-- `LINK = Closed` implies `EN = false` (10_state.md R43): the state is in one of the modes. The rest of R43 holds by
the types of ADDR, FDIV and CS. -/
def Coherent (s : State) : Prop := s.link = .closed → s.en = false

/-- A run is safe when no step of it is refused: every request that was submitted was one the block has. A step cannot
fault (`Fault` has no constructor). -/
def SafeRun (n : Nat) (s : State) : Prop := ∃ t, Host.Core.run Sys2Proof.core n s = .next t

/-! ### What the device sends and the block transmits -/

/-- Bytes that arrive, with no timeout among them. -/
def arrivals (bs : List Byte) : List RxEvent := bs.map .byte

/-- TX of a WRITE: each burst's header and its bytes (30_encoding.md R87). -/
def writeTx (c : Config) (data : List Byte) : List Byte :=
  (chunksOf data c.maxBurst).flatMap fun b => wrPacket (lengthByte b.length) ++ b

/-- RX of a WRITE: each burst's acknowledgement and the echo of its bytes (30_encoding.md R87). -/
def writeRx (c : Config) (data : List Byte) : List Byte :=
  (chunksOf data c.maxBurst).flatMap fun b => wrAckPacket ++ b

/-- TX of a READ: each burst's header (30_encoding.md R86). -/
def readTx (c : Config) (n : Nat) : List Byte :=
  (chunkSizes n c.maxBurst).flatMap fun k => rdPacket (lengthByte k)

/-- RX of a READ of some bytes: each burst's acknowledgement and its bytes (30_encoding.md R86). -/
def readRx (c : Config) (data : List Byte) : List Byte :=
  (chunksOf data c.maxBurst).flatMap fun b => rdAckPacket ++ b

/-- TX of one byte written at a register of the SPI window: SET_ADDRESS, then a WRITE of one byte
(42_spi_bridge.md R210). -/
def registerTx (a : Addr) (b : Byte) : List Byte := setAddrPacket a ++ wrPacket 0 ++ [b]

/-- RX of one byte written at a register of the SPI window. -/
def registerRx (a : Addr) (b : Byte) : List Byte := setAddrAckPacket a ++ wrAckPacket ++ [b]

/-- TX of SPI_SELECT (42_spi_bridge.md R213): auto-increment off, address SPI_CS, the mask. -/
def selectTx (c : Config) (t : Target) : List Byte :=
  cfgWrPacket (cfgByte true false) ++ registerTx c.spiCsAddr (csMaskOf c.csMask t)

/-- RX of SPI_SELECT (42_spi_bridge.md R213). -/
def selectRx (c : Config) (t : Target) : List Byte :=
  cfgWrAckPacket ++ registerRx c.spiCsAddr (csMaskOf c.csMask t)

/-- TX of SPI byte exchanges (42_spi_bridge.md R215), by the bytes clocked out. -/
def exchangesTx (c : Config) (mosi : List Byte) : List Byte :=
  mosi.flatMap fun b => registerTx c.spiDataAddr b ++ rdPacket 0

/-- RX of SPI byte exchanges (42_spi_bridge.md R215), by the bytes clocked out and in. -/
def exchangesRx (c : Config) (pairs : List (Byte × Byte)) : List Byte :=
  pairs.flatMap fun p => registerRx c.spiDataAddr p.1 ++ rdAckPacket ++ [p.2]

/-- The bytes clocked out while some bytes are clocked in by dummy bytes. -/
def dummies (c : Config) (miso : List Byte) : List Byte := List.replicate miso.length c.dummy

/-- RX of dummy exchanges (43_sd_command.md R244, R250), by the bytes clocked in. -/
def dummyRx (c : Config) (miso : List Byte) : List Byte := exchangesRx c ((dummies c miso).zip miso)

/-- TX of step 9 of SD_SEND_CMD (43_sd_command.md R245): the deselect, unless the card is kept. -/
def deselectTx (c : Config) (keep : Bool) : List Byte := if keep then [] else selectTx c .none

/-- RX of step 9 of SD_SEND_CMD (43_sd_command.md R245). -/
def deselectRx (c : Config) (keep : Bool) : List Byte := if keep then [] else selectRx c .none

/-- A card's part in one SD command exchange (43_sd_command.md R245): what it shifts out during the frame, during the
poll (the token among it, last), during the extension and during the flush. -/
structure CardReply where
  frame : List Byte
  poll : List Byte
  ext : List Byte
  flush : List Byte
  deriving DecidableEq, Repr

/-- TX of steps 3 to 7 of SD_SEND_CMD, its `try` part (43_sd_command.md R245). -/
def tryTx (c : Config) (cmd : Nat) (arg : Word32) (r : CardReply) : List Byte :=
  selectTx c .sd ++ exchangesTx c (sdFrame cmd arg) ++ exchangesTx c (dummies c r.poll) ++
    exchangesTx c (dummies c r.ext)

/-- RX of steps 3 to 7 of SD_SEND_CMD (43_sd_command.md R245). -/
def tryRx (c : Config) (cmd : Nat) (arg : Word32) (r : CardReply) : List Byte :=
  selectRx c .sd ++ exchangesRx c ((sdFrame cmd arg).zip r.frame) ++ dummyRx c r.poll ++ dummyRx c r.ext

/-- TX of an SD command exchange (43_sd_command.md R245). -/
def commandTx (c : Config) (cmd : Nat) (arg : Word32) (keep : Bool) (r : CardReply) : List Byte :=
  tryTx c cmd arg r ++ exchangesTx c (dummies c r.flush) ++ deselectTx c keep

/-- RX of an SD command exchange (43_sd_command.md R245). -/
def commandRx (c : Config) (cmd : Nat) (arg : Word32) (keep : Bool) (r : CardReply) : List Byte :=
  tryRx c cmd arg r ++ dummyRx c r.flush ++ deselectRx c keep

/-- What an SD command writes, by the address and the target it ends with (43_sd_command.md R245, State written), with its
result delivered. -/
def afterSd (s : State) (addr : Addr) (cs : Target) (tx : List Byte) (rest : List RxEvent) (r : Result) : State :=
  { s with
    ai := false
    addr := addr
    cs := .known cs
    tx := s.tx ++ tx
    rx := rest
    results := s.results ++ [r] }

/-- The state an SD command leaves when its select and its last step succeeded (43_sd_command.md R245): the card kept
selected, or deselected. -/
def afterCommand (s : State) (keep : Bool) (tx : List Byte) (rest : List RxEvent) (r : Result) : State :=
  afterSd s (if keep then s.cfg.spiDataAddr else s.cfg.spiCsAddr) (if keep then .sd else .none) tx rest r

/-! ### Exchange by exchange: where an operation breaks off -/

/-- What the `i`-th wait for a received byte from a state on gives: what stands in RX, then draws (10_state.md R22; log
entry 2). -/
def eventAt (s : State) (i : Nat) : RxEvent := (s.rx[i]?).getD (Config.rxDraw (s.draws + (i - s.rx.length)))

/-- The next events of the receive stream. -/
def Upcoming (s : State) (evs : List RxEvent) : Prop := ∀ (i : Nat) (e : RxEvent), evs[i]? = some e → eventAt s i = e

/-- One exchange of an operation (40_framing_codec.md R134): its packet, its pattern, a reply that matches it, the context
of its ProtocolError, and the bytes that its success counts into ADDR with AI (R147, R148). -/
structure Exchange where
  packet : List Byte
  pattern : Pattern
  reply : List Byte
  context : Context
  counts : Nat
  deriving DecidableEq, Repr

/-- An exchange whose reply is fixed byte for byte (40_framing_codec.md R140, R142 to R145). -/
def fixedExchange (packet reply : List Byte) (ctx : Context) (counts : Nat) : Exchange :=
  ⟨packet, fixAll reply, reply, ctx, counts⟩

/-- XRD_DATA, answered with some bytes (40_framing_codec.md R146). -/
def dataExchange (bs : List Byte) : Exchange := ⟨[], capAll bs.length, bs, .rdData, bs.length⟩

/-- What is transmitted in some exchanges. -/
def packetsOf (xs : List Exchange) : List Byte := xs.flatMap Exchange.packet

/-- What is received in some exchanges that succeed. -/
def repliesOf (xs : List Exchange) : List Byte := xs.flatMap Exchange.reply

/-- The bytes that some exchanges that succeed count into ADDR. -/
def countedBy (xs : List Exchange) : Nat := (xs.map Exchange.counts).sum

/-- The exchanges of a WRITE: of each burst its header, which counts nothing, and its sub-packets, each echoed and then
counted (40_framing_codec.md R147, 41_debug_core.md R180). -/
def writeExchanges (c : Config) (data : List Byte) : List Exchange :=
  (chunksOf data c.maxBurst).flatMap fun b =>
    fixedExchange (wrPacket (lengthByte b.length)) wrAckPacket .wrHdr 0 ::
      (chunksOf b c.subpkt).map fun p => fixedExchange p p .wrData p.length

/-- The exchanges of a READ that is answered with some bytes: of each burst its header, which counts nothing, and its
sub-chunks, each received and then counted (40_framing_codec.md R148, 41_debug_core.md R181). -/
def readExchanges (c : Config) (data : List Byte) : List Exchange :=
  (chunksOf data c.maxBurst).flatMap fun b =>
    fixedExchange (rdPacket (lengthByte b.length)) rdAckPacket .rdHdr 0 :: (chunksOf b c.rxChunk).map dataExchange

/-- The exchanges of one byte written at a register of the SPI window (42_spi_bridge.md R210). -/
def registerExchanges (c : Config) (a : Addr) (b : Byte) : List Exchange :=
  fixedExchange (setAddrPacket a) (setAddrAckPacket a) .setAddr 0 :: writeExchanges c [b]

/-- The exchanges of SPI_SELECT (42_spi_bridge.md R213). -/
def selectExchanges (c : Config) (t : Target) : List Exchange :=
  fixedExchange (cfgWrPacket (cfgByte true false)) cfgWrAckPacket .cfgWr 0 ::
    registerExchanges c c.spiCsAddr (csMaskOf c.csMask t)

/-- The exchanges of SPI byte exchanges (42_spi_bridge.md R215), by the bytes clocked out and in. -/
def byteExchanges (c : Config) (pairs : List (Byte × Byte)) : List Exchange :=
  pairs.flatMap fun p => registerExchanges c c.spiDataAddr p.1 ++ readExchanges c [p.2]

/-- The exchanges in which some bytes are clocked in by dummy bytes (43_sd_command.md R244, R246, R250). -/
def dummyExchanges (c : Config) (miso : List Byte) : List Exchange := byteExchanges c ((dummies c miso).zip miso)

/-- The exchanges of steps 3 to 7 of SD_SEND_CMD (43_sd_command.md R245). -/
def tryExchanges (c : Config) (cmd : Nat) (arg : Word32) (r : CardReply) : List Exchange :=
  selectExchanges c .sd ++ byteExchanges c ((sdFrame cmd arg).zip r.frame) ++ dummyExchanges c r.poll ++
    dummyExchanges c r.ext

/-- Some exchanges break off: those of `done` are answered, and the next one fails with `e`, because its reply does not
match or is short (40_framing_codec.md R131, R134); nothing further is transmitted or received (60_exceptions.md R340,
R341). The bytes are those transmitted, the events those received. -/
inductive Broken (xs done : List Exchange) : List Byte → List RxEvent → ErrorRecord → Prop
  | mismatch (x : Exchange) (more : List Exchange) (bs : List Byte) :
    xs = done ++ x :: more → bs.length = x.pattern.length → matchPattern x.pattern bs = false →
    Broken xs done (packetsOf (done ++ [x])) (arrivals (repliesOf done ++ bs))
      (.protocol x.pattern x.pattern.length bs x.context)
  | short (x : Exchange) (more : List Exchange) (bs : List Byte) :
    xs = done ++ x :: more → bs.length < x.pattern.length →
    Broken xs done (packetsOf (done ++ [x])) (arrivals (repliesOf done ++ bs) ++ [.timeout])
      (.transport x.pattern.length bs)

/-- What a WRITE or READ leaves that received `n` events, transmitted `tx` and had the exchanges `done` answered: ADDR
advanced by what they count when AI (40_framing_codec.md R147, R148), the result delivered, nothing else. -/
def afterTransfer (s : State) (done : List Exchange) (tx : List Byte) (n : Nat) (r : Result) : State :=
  { s with
    addr := if s.ai then s.addr + BitVec.ofNat 16 (countedBy done) else s.addr
    tx := s.tx ++ tx
    rx := s.rx.drop n
    draws := s.draws + (n - s.rx.length)
    results := s.results ++ [r] }

/-- A poll that ends with a token: bytes with bit 7 set, then one with bit 7 clear, at most NCR_MAX in all
(43_sd_command.md R244). -/
def Polled (c : Config) (r : CardReply) (tok : Byte) : Prop :=
  ∃ pre, r.poll = pre ++ [tok] ∧ (∀ b ∈ pre, b.getLsbD 7 = true) ∧ tok.getLsbD 7 = false ∧ r.poll.length ≤ c.ncrMax

/-- Steps 3 to 7 of SD_SEND_CMD succeed (43_sd_command.md R245), with what they return. -/
inductive TrySucceeds (c : Config) (cmd : Nat) (arg : Word32) (shape : Shape) :
    List Byte → List RxEvent → SdReply → Prop
  | answered (r : CardReply) (tok : Byte) (resp : SDResponse) :
    r.frame.length = 6 → Polled c r tok → r.ext.length = extraBytes shape → decodeResponse shape tok r.ext = .ok resp →
    sdErrorOf c.r1ErrMask c.r2ErrMask resp = false →
    TrySucceeds c cmd arg shape (tryTx c cmd arg r) (arrivals (tryRx c cmd arg r)) ⟨resp, r.poll ++ r.ext⟩

/-- Steps 3 to 7 of SD_SEND_CMD fail (43_sd_command.md R245): no token, an R1 error, an error in the response, or an
exchange that breaks off. The decodes of a token never fail (44_sd_response.md R281, R288). -/
inductive TryFails (c : Config) (cmd : Nat) (arg : Word32) (shape : Shape) :
    List Byte → List RxEvent → ErrorRecord → Prop
  | noToken (r : CardReply) :
    r.frame.length = 6 → (∀ b ∈ r.poll, b.getLsbD 7 = true) → r.poll.length = c.ncrMax → r.ext = [] →
    TryFails c cmd arg shape (tryTx c cmd arg r) (arrivals (tryRx c cmd arg r)) (.sd cmd arg r.poll none)
  | r1Error (r : CardReply) (tok : Byte) (r1 : R1Rec) :
    r.frame.length = 6 → Polled c r tok → decodeR1 tok = .ok r1 → r1Error c.r1ErrMask r1 = true → r.ext = [] →
    TryFails c cmd arg shape (tryTx c cmd arg r) (arrivals (tryRx c cmd arg r)) (.sd cmd arg r.poll (some (.r1 r1)))
  | responseError (r : CardReply) (tok : Byte) (r1 : R1Rec) (resp : SDResponse) :
    r.frame.length = 6 → Polled c r tok → decodeR1 tok = .ok r1 → r1Error c.r1ErrMask r1 = false →
    r.ext.length = extraBytes shape → decodeResponse shape tok r.ext = .ok resp →
    sdErrorOf c.r1ErrMask c.r2ErrMask resp = true →
    TryFails c cmd arg shape (tryTx c cmd arg r) (arrivals (tryRx c cmd arg r))
      (.sd cmd arg (r.poll ++ r.ext) (some resp))
  | exchange (r : CardReply) (tok : Byte) (r1 : R1Rec) (done : List Exchange) (tx : List Byte) (rx : List RxEvent)
    (e : ErrorRecord) :
    r.frame.length = 6 → Polled c r tok → decodeR1 tok = .ok r1 → r1Error c.r1ErrMask r1 = false →
    r.ext.length = extraBytes shape → Broken (tryExchanges c cmd arg r) done tx rx e →
    TryFails c cmd arg shape tx rx e

/-- SD_SEND_CMD fails after its entry checks, with the address and the target it leaves (43_sd_command.md R245, R246,
60_exceptions.md R346): in steps 3 to 7, with the flush and the deselect answered; in the flush after a success, with
the deselect answered, even when the card was to be kept; or in the deselect after both, which leaves the card
selected. -/
inductive CommandFails (c : Config) (cmd : Nat) (arg : Word32) (shape : Shape) (keep : Bool) :
    List Byte → List RxEvent → ErrorRecord → Addr → Target → Prop
  | inTry (tx : List Byte) (rx : List RxEvent) (e : ErrorRecord) (flush : List Byte) :
    TryFails c cmd arg shape tx rx e → flush.length = c.flushN →
    CommandFails c cmd arg shape keep (tx ++ exchangesTx c (dummies c flush) ++ selectTx c .none)
      (rx ++ arrivals (dummyRx c flush ++ selectRx c .none)) e c.spiCsAddr .none
  | inFlush (tx : List Byte) (rx : List RxEvent) (reply : SdReply) (flush : List Byte) (done : List Exchange)
    (tx' : List Byte) (rx' : List RxEvent) (e : ErrorRecord) :
    TrySucceeds c cmd arg shape tx rx reply → flush.length = c.flushN →
    Broken (dummyExchanges c flush) done tx' rx' e →
    CommandFails c cmd arg shape keep (tx ++ tx' ++ selectTx c .none) (rx ++ rx' ++ arrivals (selectRx c .none)) e
      c.spiCsAddr .none
  | inDeselect (tx : List Byte) (rx : List RxEvent) (reply : SdReply) (flush : List Byte) (done : List Exchange)
    (tx' : List Byte) (rx' : List RxEvent) (e : ErrorRecord) :
    keep = false → TrySucceeds c cmd arg shape tx rx reply → flush.length = c.flushN →
    Broken (selectExchanges c .none) done tx' rx' e →
    CommandFails c cmd arg shape keep (tx ++ exchangesTx c (dummies c flush) ++ tx')
      (rx ++ arrivals (dummyRx c flush) ++ rx') e (if done.length < 2 then c.spiDataAddr else c.spiCsAddr) .sd

/-! ### Which instruction is what -/

/-- Whether a command index and an argument are in range (60_exceptions.md R335). -/
def inRange (cmd arg : Int) : Bool := decide (0 ≤ cmd ∧ cmd ≤ 63 ∧ 0 ≤ arg ∧ arg ≤ 0xFFFFFFFF)

/-- The index, argument and `keep` of an instruction that sends an SD command by `CMD_SHAPE`: the CMD rows of the
opcode table, and SD_SEND_CMD with operands in range. -/
def cmdOf : Instr → Option (Nat × Word32 × Bool)
  | .sdSendCmd cmd arg keep =>
    if inRange cmd arg then some (cmd.toNat, BitVec.ofInt 32 arg, keep) else none
  | .cmd0GoIdleState arg _ keep => some (0, arg, keep)
  | .cmd1SendOpCond arg _ keep => some (1, arg, keep)
  | .cmd6SwitchFunc arg _ keep => some (6, arg, keep)
  | .cmd8SendIfCond arg _ keep => some (8, arg, keep)
  | .cmd9SendCsd arg _ keep => some (9, arg, keep)
  | .cmd10SendCid arg _ keep => some (10, arg, keep)
  | .cmd12StopTransmission arg _ keep => some (12, arg, keep)
  | .cmd13SendStatus arg _ keep => some (13, arg, keep)
  | .cmd16SetBlocklen arg _ keep => some (16, arg, keep)
  | .cmd17ReadSingleBlock arg _ keep => some (17, arg, keep)
  | .cmd18ReadMultipleBlock arg _ keep => some (18, arg, keep)
  | .cmd24WriteBlock arg _ keep => some (24, arg, keep)
  | .cmd25WriteMultipleBlock arg _ keep => some (25, arg, keep)
  | .cmd27ProgramCsd arg _ keep => some (27, arg, keep)
  | .cmd28SetWriteProt arg _ keep => some (28, arg, keep)
  | .cmd29ClrWriteProt arg _ keep => some (29, arg, keep)
  | .cmd30SendWriteProt arg _ keep => some (30, arg, keep)
  | .cmd32EraseWrBlkStartAddr arg _ keep => some (32, arg, keep)
  | .cmd33EraseWrBlkEndAddr arg _ keep => some (33, arg, keep)
  | .cmd38Erase arg _ keep => some (38, arg, keep)
  | .cmd42LockUnlock arg _ keep => some (42, arg, keep)
  | .cmd55AppCmd arg _ keep => some (55, arg, keep)
  | .cmd56GenCmd arg _ keep => some (56, arg, keep)
  | .cmd58ReadOcr arg _ keep => some (58, arg, keep)
  | .cmd59CrcOnOff arg _ keep => some (59, arg, keep)
  | .init _ | .close | .enableCore | .disableCore | .setAddress _ | .setAutoIncrement _ | .enableAutoIncrement
  | .disableAutoIncrement | .readConfig | .write _ | .read _ | .withCoreEnabled _ | .sendAndExpect _ _ _ _
  | .scatter _ _ | .spiSetSpeed _ | .spiSelect _ | .spiDeselect | .spiWriteRead _ | .spiWrite _ | .sdBuildFrame _ _
  | .sdSendAcmd _ _ _ | .sdDecodeR1 _ | .sdDecodeR1b _ _ | .sdDecodeR2 _ _ | .sdDecodeR3 _ _ _ _ _
  | .sdDecodeR7 _ _ _ _ _ | .sdError _ | .crc7 _ | .cfgRd | .cfgRdAck _ | .cfgWr _ _ | .cfgWrAck | .setAddr _
  | .setAddrAck _ | .rd _ | .rdAck | .wr _ | .wrAck | .acmd13SdStatus _ _ _ | .acmd22SendNumWrBlocks _ _ _
  | .acmd23SetWrBlkEraseCount _ _ _ | .acmd41SdSendOpCond _ _ _ | .acmd42SetClrCardDetect _ _ _
  | .acmd51SendScr _ _ _ => none

/-- The index, argument and `keep` of an instruction that sends an SD application command by `ACMD_SHAPE`: the ACMD
rows of the opcode table, and SD_SEND_ACMD with operands in range. -/
def acmdOf : Instr → Option (Nat × Word32 × Bool)
  | .sdSendAcmd cmd arg keep =>
    if inRange cmd arg then some (cmd.toNat, BitVec.ofInt 32 arg, keep) else none
  | .acmd13SdStatus arg _ keep => some (13, arg, keep)
  | .acmd22SendNumWrBlocks arg _ keep => some (22, arg, keep)
  | .acmd23SetWrBlkEraseCount arg _ keep => some (23, arg, keep)
  | .acmd41SdSendOpCond arg _ keep => some (41, arg, keep)
  | .acmd42SetClrCardDetect arg _ keep => some (42, arg, keep)
  | .acmd51SendScr arg _ keep => some (51, arg, keep)
  | .init _ | .close | .enableCore | .disableCore | .setAddress _ | .setAutoIncrement _ | .enableAutoIncrement
  | .disableAutoIncrement | .readConfig | .write _ | .read _ | .withCoreEnabled _ | .sendAndExpect _ _ _ _
  | .scatter _ _ | .spiSetSpeed _ | .spiSelect _ | .spiDeselect | .spiWriteRead _ | .spiWrite _ | .sdBuildFrame _ _
  | .sdSendCmd _ _ _ | .sdDecodeR1 _ | .sdDecodeR1b _ _ | .sdDecodeR2 _ _ | .sdDecodeR3 _ _ _ _ _
  | .sdDecodeR7 _ _ _ _ _ | .sdError _ | .crc7 _ | .cfgRd | .cfgRdAck _ | .cfgWr _ _ | .cfgWrAck | .setAddr _
  | .setAddrAck _ | .rd _ | .rdAck | .wr _ | .wrAck | .cmd0GoIdleState _ _ _ | .cmd1SendOpCond _ _ _
  | .cmd6SwitchFunc _ _ _ | .cmd8SendIfCond _ _ _ | .cmd9SendCsd _ _ _ | .cmd10SendCid _ _ _
  | .cmd12StopTransmission _ _ _ | .cmd13SendStatus _ _ _ | .cmd16SetBlocklen _ _ _ | .cmd17ReadSingleBlock _ _ _
  | .cmd18ReadMultipleBlock _ _ _ | .cmd24WriteBlock _ _ _ | .cmd25WriteMultipleBlock _ _ _ | .cmd27ProgramCsd _ _ _
  | .cmd28SetWriteProt _ _ _ | .cmd29ClrWriteProt _ _ _ | .cmd30SendWriteProt _ _ _
  | .cmd32EraseWrBlkStartAddr _ _ _ | .cmd33EraseWrBlkEndAddr _ _ _ | .cmd38Erase _ _ _ | .cmd42LockUnlock _ _ _
  | .cmd55AppCmd _ _ _ | .cmd56GenCmd _ _ _ | .cmd58ReadOcr _ _ _ | .cmd59CrcOnOff _ _ _ => none

/-- The pure operations (30_encoding.md R110). -/
def isPure : Instr → Bool
  | .scatter _ _ | .sdBuildFrame _ _ | .sdDecodeR1 _ | .sdDecodeR1b _ _ | .sdDecodeR2 _ _ | .sdDecodeR3 _ _ _ _ _
  | .sdDecodeR7 _ _ _ _ _ | .sdError _ | .crc7 _ => true
  | .init _ | .close | .enableCore | .disableCore | .setAddress _ | .setAutoIncrement _ | .enableAutoIncrement
  | .disableAutoIncrement | .readConfig | .write _ | .read _ | .withCoreEnabled _ | .sendAndExpect _ _ _ _
  | .spiSetSpeed _ | .spiSelect _ | .spiDeselect | .spiWriteRead _ | .spiWrite _ | .sdSendCmd _ _ _
  | .sdSendAcmd _ _ _ | .cfgRd | .cfgRdAck _ | .cfgWr _ _ | .cfgWrAck | .setAddr _ | .setAddrAck _ | .rd _ | .rdAck
  | .wr _ | .wrAck | .cmd0GoIdleState _ _ _ | .cmd1SendOpCond _ _ _ | .cmd6SwitchFunc _ _ _ | .cmd8SendIfCond _ _ _
  | .cmd9SendCsd _ _ _ | .cmd10SendCid _ _ _ | .cmd12StopTransmission _ _ _ | .cmd13SendStatus _ _ _
  | .cmd16SetBlocklen _ _ _ | .cmd17ReadSingleBlock _ _ _ | .cmd18ReadMultipleBlock _ _ _ | .cmd24WriteBlock _ _ _
  | .cmd25WriteMultipleBlock _ _ _ | .cmd27ProgramCsd _ _ _ | .cmd28SetWriteProt _ _ _ | .cmd29ClrWriteProt _ _ _
  | .cmd30SendWriteProt _ _ _ | .cmd32EraseWrBlkStartAddr _ _ _ | .cmd33EraseWrBlkEndAddr _ _ _ | .cmd38Erase _ _ _
  | .cmd42LockUnlock _ _ _ | .cmd55AppCmd _ _ _ | .cmd56GenCmd _ _ _ | .cmd58ReadOcr _ _ _ | .cmd59CrcOnOff _ _ _
  | .acmd13SdStatus _ _ _ | .acmd22SendNumWrBlocks _ _ _ | .acmd23SetWrBlkEraseCount _ _ _
  | .acmd41SdSendOpCond _ _ _ | .acmd42SetClrCardDetect _ _ _ | .acmd51SendScr _ _ _ => false

/-- The packets a device sends (30_encoding.md R81), by their bytes. -/
def arrivalOf : Instr → Option (List Byte)
  | .cfgRdAck c => some [0x03, c]
  | .cfgWrAck => some [0x05]
  | .setAddrAck a => some [0x11, addrHi a, addrLo a]
  | .rdAck => some [0x21]
  | .wrAck => some [0x31]
  | .init _ | .close | .enableCore | .disableCore | .setAddress _ | .setAutoIncrement _ | .enableAutoIncrement
  | .disableAutoIncrement | .readConfig | .write _ | .read _ | .withCoreEnabled _ | .sendAndExpect _ _ _ _
  | .scatter _ _ | .spiSetSpeed _ | .spiSelect _ | .spiDeselect | .spiWriteRead _ | .spiWrite _ | .sdBuildFrame _ _
  | .sdSendCmd _ _ _ | .sdSendAcmd _ _ _ | .sdDecodeR1 _ | .sdDecodeR1b _ _ | .sdDecodeR2 _ _
  | .sdDecodeR3 _ _ _ _ _ | .sdDecodeR7 _ _ _ _ _ | .sdError _ | .crc7 _ | .cfgRd | .cfgWr _ _ | .setAddr _ | .rd _
  | .wr _ | .cmd0GoIdleState _ _ _ | .cmd1SendOpCond _ _ _ | .cmd6SwitchFunc _ _ _ | .cmd8SendIfCond _ _ _
  | .cmd9SendCsd _ _ _ | .cmd10SendCid _ _ _ | .cmd12StopTransmission _ _ _ | .cmd13SendStatus _ _ _
  | .cmd16SetBlocklen _ _ _ | .cmd17ReadSingleBlock _ _ _ | .cmd18ReadMultipleBlock _ _ _ | .cmd24WriteBlock _ _ _
  | .cmd25WriteMultipleBlock _ _ _ | .cmd27ProgramCsd _ _ _ | .cmd28SetWriteProt _ _ _ | .cmd29ClrWriteProt _ _ _
  | .cmd30SendWriteProt _ _ _ | .cmd32EraseWrBlkStartAddr _ _ _ | .cmd33EraseWrBlkEndAddr _ _ _ | .cmd38Erase _ _ _
  | .cmd42LockUnlock _ _ _ | .cmd55AppCmd _ _ _ | .cmd56GenCmd _ _ _ | .cmd58ReadOcr _ _ _ | .cmd59CrcOnOff _ _ _
  | .acmd13SdStatus _ _ _ | .acmd22SendNumWrBlocks _ _ _ | .acmd23SetWrBlkEraseCount _ _ _
  | .acmd41SdSendOpCond _ _ _ | .acmd42SetClrCardDetect _ _ _ | .acmd51SendScr _ _ _ => none

/-- The link check of an SD command of an index: its SPI_SELECT's, when `CMD_SHAPE` has the index. -/
def cmdLinkCheck (c : Config) (cmd : Nat) : Option OpName :=
  if (lookupShape c.cmdShape cmd).isSome then some .spiSelect else none

/-- The link check of an SD application command of an index: the SPI_SELECT's of its CMD55, when both tables have their
index. -/
def acmdLinkCheck (c : Config) (acmd : Nat) : Option OpName :=
  if (lookupShape c.acmdShape acmd).isSome ∧ (lookupShape c.cmdShape 55).isSome then some .spiSelect else none

/-- The operation a StateError of the link check names, for an instruction that does wire I/O and whose other entry
checks pass (60_exceptions.md R345). An SD command fails at its SPI_SELECT (R334); a pseudo-operation is its expansion
(log entry 13). -/
def linkCheckOf (c : Config) : Instr → Option OpName
  | .enableCore => some .enableCore
  | .disableCore => some .disableCore
  | .setAddress addr => if 0 ≤ addr ∧ addr ≤ 0xFFFF then some .setAddress else none
  | .setAutoIncrement _ | .enableAutoIncrement | .disableAutoIncrement => some .setAutoIncrement
  | .readConfig => some .readConfig
  | .write _ => some .write
  | .read length => if 1 ≤ length ∧ length ≤ 0xFFFF then some .read else none
  | .withCoreEnabled body => if requestsAdmissible body then some .enableCore else none
  | .sendAndExpect _ pattern n _ => if pattern.length = n then some .sendAndExpect else none
  | .spiSetSpeed targetHz => if 0 < targetHz then some .spiSetSpeed else none
  | .spiSelect _ | .spiDeselect => some .spiSelect
  | .spiWriteRead _ | .spiWrite _ => some .spiWriteRead
  | .cfgRd => some .cfgRd
  | .cfgWr _ _ => some .cfgWr
  | .setAddr _ => some .setAddr
  | .rd _ => some .rd
  | .wr _ => some .wr
  | .sdSendCmd cmd arg _ => if inRange cmd arg then cmdLinkCheck c cmd.toNat else none
  | .sdSendAcmd acmd arg _ => if inRange acmd arg then acmdLinkCheck c acmd.toNat else none
  | .cmd0GoIdleState _ _ _ => cmdLinkCheck c 0
  | .cmd1SendOpCond _ _ _ => cmdLinkCheck c 1
  | .cmd6SwitchFunc _ _ _ => cmdLinkCheck c 6
  | .cmd8SendIfCond _ _ _ => cmdLinkCheck c 8
  | .cmd9SendCsd _ _ _ => cmdLinkCheck c 9
  | .cmd10SendCid _ _ _ => cmdLinkCheck c 10
  | .cmd12StopTransmission _ _ _ => cmdLinkCheck c 12
  | .cmd13SendStatus _ _ _ => cmdLinkCheck c 13
  | .cmd16SetBlocklen _ _ _ => cmdLinkCheck c 16
  | .cmd17ReadSingleBlock _ _ _ => cmdLinkCheck c 17
  | .cmd18ReadMultipleBlock _ _ _ => cmdLinkCheck c 18
  | .cmd24WriteBlock _ _ _ => cmdLinkCheck c 24
  | .cmd25WriteMultipleBlock _ _ _ => cmdLinkCheck c 25
  | .cmd27ProgramCsd _ _ _ => cmdLinkCheck c 27
  | .cmd28SetWriteProt _ _ _ => cmdLinkCheck c 28
  | .cmd29ClrWriteProt _ _ _ => cmdLinkCheck c 29
  | .cmd30SendWriteProt _ _ _ => cmdLinkCheck c 30
  | .cmd32EraseWrBlkStartAddr _ _ _ => cmdLinkCheck c 32
  | .cmd33EraseWrBlkEndAddr _ _ _ => cmdLinkCheck c 33
  | .cmd38Erase _ _ _ => cmdLinkCheck c 38
  | .cmd42LockUnlock _ _ _ => cmdLinkCheck c 42
  | .cmd55AppCmd _ _ _ => cmdLinkCheck c 55
  | .cmd56GenCmd _ _ _ => cmdLinkCheck c 56
  | .cmd58ReadOcr _ _ _ => cmdLinkCheck c 58
  | .cmd59CrcOnOff _ _ _ => cmdLinkCheck c 59
  | .acmd13SdStatus _ _ _ => acmdLinkCheck c 13
  | .acmd22SendNumWrBlocks _ _ _ => acmdLinkCheck c 22
  | .acmd23SetWrBlkEraseCount _ _ _ => acmdLinkCheck c 23
  | .acmd41SdSendOpCond _ _ _ => acmdLinkCheck c 41
  | .acmd42SetClrCardDetect _ _ _ => acmdLinkCheck c 42
  | .acmd51SendScr _ _ _ => acmdLinkCheck c 51
  | .init _ | .close | .scatter _ _ | .sdBuildFrame _ _ | .sdDecodeR1 _ | .sdDecodeR1b _ _ | .sdDecodeR2 _ _
  | .sdDecodeR3 _ _ _ _ _ | .sdDecodeR7 _ _ _ _ _ | .sdError _ | .crc7 _ | .cfgRdAck _ | .cfgWrAck | .setAddrAck _
  | .rdAck | .wrAck => none

/-- The instructions that require `Enabled` (60_exceptions.md R334). -/
def needsEnabled : Instr → Bool
  | .disableCore | .setAddress _ | .setAutoIncrement _ | .enableAutoIncrement | .disableAutoIncrement | .write _
  | .read _ | .spiSetSpeed _ | .spiSelect _ | .spiDeselect | .spiWriteRead _ | .spiWrite _ | .sdSendCmd _ _ _
  | .sdSendAcmd _ _ _ => true
  | .cmd0GoIdleState _ _ _ | .cmd1SendOpCond _ _ _ | .cmd6SwitchFunc _ _ _ | .cmd8SendIfCond _ _ _
  | .cmd9SendCsd _ _ _ | .cmd10SendCid _ _ _ | .cmd12StopTransmission _ _ _ | .cmd13SendStatus _ _ _
  | .cmd16SetBlocklen _ _ _ | .cmd17ReadSingleBlock _ _ _ | .cmd18ReadMultipleBlock _ _ _ | .cmd24WriteBlock _ _ _
  | .cmd25WriteMultipleBlock _ _ _ | .cmd27ProgramCsd _ _ _ | .cmd28SetWriteProt _ _ _ | .cmd29ClrWriteProt _ _ _
  | .cmd30SendWriteProt _ _ _ | .cmd32EraseWrBlkStartAddr _ _ _ | .cmd33EraseWrBlkEndAddr _ _ _
  | .cmd38Erase _ _ _ | .cmd42LockUnlock _ _ _ | .cmd55AppCmd _ _ _ | .cmd56GenCmd _ _ _ | .cmd58ReadOcr _ _ _
  | .cmd59CrcOnOff _ _ _ | .acmd13SdStatus _ _ _ | .acmd22SendNumWrBlocks _ _ _ | .acmd23SetWrBlkEraseCount _ _ _
  | .acmd41SdSendOpCond _ _ _ | .acmd42SetClrCardDetect _ _ _ | .acmd51SendScr _ _ _ => true
  | .init _ | .close | .enableCore | .readConfig | .withCoreEnabled _ | .sendAndExpect _ _ _ _ | .scatter _ _
  | .sdBuildFrame _ _ | .sdDecodeR1 _ | .sdDecodeR1b _ _ | .sdDecodeR2 _ _ | .sdDecodeR3 _ _ _ _ _
  | .sdDecodeR7 _ _ _ _ _ | .sdError _ | .crc7 _ | .cfgRd | .cfgRdAck _ | .cfgWr _ _ | .cfgWrAck | .setAddr _
  | .setAddrAck _ | .rd _ | .rdAck | .wr _ | .wrAck => false

/-- The registers of the block (10_state.md R26 to R31). -/
inductive Reg where
  | link | en | ai | addr | cs | fdiv
  deriving DecidableEq, Repr

/-- The registers an instruction may write (10_state.md R26 to R31; State written of each operation). A session may
write what its body writes. -/
def writesOf : Instr → List Reg
  | .init _ | .close | .withCoreEnabled _ => [.link, .en, .ai, .addr, .cs, .fdiv]
  | .enableCore | .disableCore => [.en]
  | .setAutoIncrement _ | .enableAutoIncrement | .disableAutoIncrement => [.ai]
  | .setAddress _ | .write _ | .read _ | .spiWriteRead _ | .spiWrite _ => [.addr]
  | .spiSetSpeed _ => [.addr, .fdiv]
  | .spiSelect _ | .spiDeselect | .sdSendCmd _ _ _ | .sdSendAcmd _ _ _ => [.ai, .addr, .cs]
  | .cmd0GoIdleState _ _ _ | .cmd1SendOpCond _ _ _ | .cmd6SwitchFunc _ _ _ | .cmd8SendIfCond _ _ _
  | .cmd9SendCsd _ _ _ | .cmd10SendCid _ _ _ | .cmd12StopTransmission _ _ _ | .cmd13SendStatus _ _ _
  | .cmd16SetBlocklen _ _ _ | .cmd17ReadSingleBlock _ _ _ | .cmd18ReadMultipleBlock _ _ _ | .cmd24WriteBlock _ _ _
  | .cmd25WriteMultipleBlock _ _ _ | .cmd27ProgramCsd _ _ _ | .cmd28SetWriteProt _ _ _ | .cmd29ClrWriteProt _ _ _
  | .cmd30SendWriteProt _ _ _ | .cmd32EraseWrBlkStartAddr _ _ _ | .cmd33EraseWrBlkEndAddr _ _ _
  | .cmd38Erase _ _ _ | .cmd42LockUnlock _ _ _ | .cmd55AppCmd _ _ _ | .cmd56GenCmd _ _ _ | .cmd58ReadOcr _ _ _
  | .cmd59CrcOnOff _ _ _ | .acmd13SdStatus _ _ _ | .acmd22SendNumWrBlocks _ _ _ | .acmd23SetWrBlkEraseCount _ _ _
  | .acmd41SdSendOpCond _ _ _ | .acmd42SetClrCardDetect _ _ _ | .acmd51SendScr _ _ _ => [.ai, .addr, .cs]
  | .readConfig | .sendAndExpect _ _ _ _ | .scatter _ _ | .sdBuildFrame _ _ | .sdDecodeR1 _ | .sdDecodeR1b _ _
  | .sdDecodeR2 _ _ | .sdDecodeR3 _ _ _ _ _ | .sdDecodeR7 _ _ _ _ _ | .sdError _ | .crc7 _ | .cfgRd | .cfgRdAck _
  | .cfgWr _ _ | .cfgWrAck | .setAddr _ | .setAddrAck _ | .rd _ | .rdAck | .wr _ | .wrAck => []

/-- A register that is not among some registers has one value before and after. -/
def KeptOutside (ws : List Reg) (s t : State) : Prop :=
  (Reg.link ∉ ws → t.link = s.link) ∧ (Reg.en ∉ ws → t.en = s.en) ∧ (Reg.ai ∉ ws → t.ai = s.ai) ∧
    (Reg.addr ∉ ws → t.addr = s.addr) ∧ (Reg.cs ∉ ws → t.cs = s.cs) ∧ (Reg.fdiv ∉ ws → t.fdiv = s.fdiv)

/-- The codes of the errors of an instruction's row of the raise matrix (60_exceptions.md R338), of a session those of
ENABLE_CORE and DISABLE_CORE. A packet's exchange has the errors of SEND_AND_EXPECT, a CMD or ACMD row those of
SD_SEND_CMD. -/
def rowCodes : Instr → List Nat
  | .init _ => [1, 2, 3, 4]
  | .enableCore | .disableCore | .setAutoIncrement _ | .enableAutoIncrement | .disableAutoIncrement | .readConfig
  | .write _ | .sendAndExpect _ _ _ _ | .spiSelect _ | .spiDeselect | .spiWriteRead _ | .spiWrite _
  | .withCoreEnabled _ | .cfgRd | .cfgWr _ _ | .setAddr _ | .rd _ | .wr _ => [2, 3, 4]
  | .setAddress _ | .read _ | .spiSetSpeed _ => [2, 3, 4, 5]
  | .scatter _ _ | .sdBuildFrame _ _ => [5]
  | .sdDecodeR1 _ | .sdDecodeR1b _ _ | .sdDecodeR2 _ _ | .sdDecodeR3 _ _ _ _ _ | .sdDecodeR7 _ _ _ _ _ => [7]
  | .close | .sdError _ | .crc7 _ | .cfgRdAck _ | .cfgWrAck | .setAddrAck _ | .rdAck | .wrAck => []
  | .sdSendCmd _ _ _ | .sdSendAcmd _ _ _ => [2, 3, 4, 5, 6, 7]
  | .cmd0GoIdleState _ _ _ | .cmd1SendOpCond _ _ _ | .cmd6SwitchFunc _ _ _ | .cmd8SendIfCond _ _ _
  | .cmd9SendCsd _ _ _ | .cmd10SendCid _ _ _ | .cmd12StopTransmission _ _ _ | .cmd13SendStatus _ _ _
  | .cmd16SetBlocklen _ _ _ | .cmd17ReadSingleBlock _ _ _ | .cmd18ReadMultipleBlock _ _ _ | .cmd24WriteBlock _ _ _
  | .cmd25WriteMultipleBlock _ _ _ | .cmd27ProgramCsd _ _ _ | .cmd28SetWriteProt _ _ _ | .cmd29ClrWriteProt _ _ _
  | .cmd30SendWriteProt _ _ _ | .cmd32EraseWrBlkStartAddr _ _ _ | .cmd33EraseWrBlkEndAddr _ _ _
  | .cmd38Erase _ _ _ | .cmd42LockUnlock _ _ _ | .cmd55AppCmd _ _ _ | .cmd56GenCmd _ _ _ | .cmd58ReadOcr _ _ _
  | .cmd59CrcOnOff _ _ _ | .acmd13SdStatus _ _ _ | .acmd22SendNumWrBlocks _ _ _ | .acmd23SetWrBlkEraseCount _ _ _
  | .acmd41SdSendOpCond _ _ _ | .acmd42SetClrCardDetect _ _ _ | .acmd51SendScr _ _ _ => [2, 3, 4, 6, 7]

mutual
/-- The codes of the errors a request may end with: its row's, and of a session those of its body, "any error of its
body and of ENABLE_CORE/DISABLE_CORE" (60_exceptions.md R338). -/
def requestCodes : Request → List Nat
  | .withCoreEnabled body => rowCodes (.withCoreEnabled body) ++ bodyCodes body
  | r => rowCodes (Instr.ofRequest r)
/-- The codes of the errors the requests of a body may end with. -/
def bodyCodes : Requests → List Nat
  | .nil => []
  | .cons r rs => requestCodes r ++ bodyCodes rs
end

/-- Whether an instruction may end with an error of a code, by the raise matrix (60_exceptions.md R338). -/
def mayRaise (i : Instr) (code : Nat) : Bool :=
  match i with
  | .withCoreEnabled body => decide (code ∈ requestCodes (.withCoreEnabled body))
  | i => decide (code ∈ rowCodes i)

end Sys2Proof
end

