-- ==== Sys2Proof/Certificates/Slice0/Obligations.lean ====
section
/-! DEFINITION. The statements for the provers. A hypothesis `s.rx = arrivals bs ++ rest` says what the device sends
during the instruction; `rest` is whatever arrives later. -/

open Sys2Proof Sys2Proof.Machine

/-! ### Encodings -/

/-- Decoding the encoding of a well-formed instruction gives it back, for every row and every operand (30_encoding.md
R110, R81, R92). The layout of a host request's operands is the model's (log entry 5). -/
def Obligations.DecodeOfEncodeIsTheInstruction : Prop :=
  ∀ i : Instr, i.wellFormed = true → decodeSubmission ⟨portOf i, encode i⟩ = .ok i

/-- The packets of the wire opcode table byte for byte (30_encoding.md R81, R83, R85 to R87), the four CFG bytes (R82), a
CFG_WR packet with a bit of 7:2 set is no packet, and a few words decode to what they stand for: packets and frames written
out from the encodings, the operand bytes of the host word by the model's layout (log entry 5), and after each SD frame the
model's `keep` byte (log entry 9). -/
def Obligations.WirePacketsHaveTheirBytes : Prop :=
  encode .cfgRd = [0x02] ∧ (∀ c, encode (.cfgRdAck c) = [0x03, c]) ∧
  (∀ e a, encode (.cfgWr e a) = [0x04#8, BitVec.setWidth 8 (BitVec.ofBool e) ||| BitVec.setWidth 8 (BitVec.ofBool a) <<< 1]) ∧
  encode .cfgWrAck = [0x05] ∧
  (∀ a : Addr, encode (.setAddr a) = [0x10, a.extractLsb' 8 8, a.extractLsb' 0 8]) ∧
  (∀ a : Addr, encode (.setAddrAck a) = [0x11, a.extractLsb' 8 8, a.extractLsb' 0 8]) ∧
  (∀ n, encode (.rd n) = [0x20, n]) ∧ encode .rdAck = [0x21] ∧ (∀ n, encode (.wr n) = [0x30, n]) ∧
  encode .wrAck = [0x31] ∧
  cfgByte false false = 0x00 ∧ cfgByte true false = 0x01 ∧ cfgByte false true = 0x02 ∧ cfgByte true true = 0x03 ∧
  (∀ c : Byte, c.extractLsb' 2 6 ≠ 0 → decodeSubmission ⟨.wire, [0x04, c]⟩ = .error (.fixedBits c)) ∧
  decodeSubmission ⟨.wire, [0x10, 0x12, 0x34]⟩ = .ok (.setAddr 0x1234) ∧
  decodeSubmission ⟨.wire, [0x04, 0x03]⟩ = .ok (.cfgWr true true) ∧
  decodeSubmission ⟨.host, [0x0B, 0x06]⟩ = .ok (.read 3) ∧
  decodeSubmission ⟨.sd, [0x48, 0x00, 0x00, 0x01, 0xAA, 0x87, 0x00]⟩ = .ok (.cmd8SendIfCond 0x1AA 0x43 false) ∧
  decodeSubmission ⟨.sdApp, [0x69, 0x40, 0x00, 0x00, 0x00, 0x77, 0x01]⟩ = .ok (.acmd41SdSendOpCond 0x40000000 0x3B true)

/-- A tag that is not in 30_encoding.md R110 and an opcode that is not in R81 are rejected by name (the ASCII tokens of
R91 among them: `C` is 0x43), and a step refuses what the decoder rejects (R111). -/
def Obligations.UnknownTagsAndOpcodesAreRefused : Prop :=
  (∀ (tag : Byte) (rest : List Byte),
    tag ∉ ([0x01, 0x02, 0x03, 0x04, 0x05, 0x06, 0x07, 0x08, 0x09, 0x0A, 0x0B, 0x0C, 0x10, 0x11, 0x20, 0x21, 0x22, 0x23,
      0x24, 0x30, 0x31, 0x32, 0x40, 0x41, 0x42, 0x43, 0x44, 0x45, 0x50] : List Byte) →
    decodeSubmission ⟨.host, tag :: rest⟩ = .error (.unknownTag tag)) ∧
  (∀ (op : Byte) (rest : List Byte),
    op ∉ ([0x02, 0x03, 0x04, 0x05, 0x10, 0x11, 0x20, 0x21, 0x30, 0x31] : List Byte) →
    decodeSubmission ⟨.wire, op :: rest⟩ = .error (.unknownOpcode op)) ∧
  (∀ (s : State) (x : Submission) (xs : List Submission) (e : DecodeError),
    configOk s.cfg = true → s.requests = x :: xs → decodeSubmission x = .error e →
    step s = .refused (.badRequest e))

/-- The frame of an index and an argument, and its fixed bits (30_encoding.md R93). -/
def Obligations.SdFrameIsLaidOut : Prop :=
  ∀ (cmd : Nat) (arg : Word32), cmd ≤ 63 →
    sdFrame cmd arg =
      [0x40#8 ||| BitVec.ofNat 8 cmd, arg.extractLsb' 24 8, arg.extractLsb' 16 8, arg.extractLsb' 8 8,
        arg.extractLsb' 0 8,
        BitVec.setWidth 8 (crc7Of [0x40#8 ||| BitVec.ofNat 8 cmd, arg.extractLsb' 24 8, arg.extractLsb' 16 8,
          arg.extractLsb' 8 8, arg.extractLsb' 0 8]) <<< 1 ||| 1#8] ∧
    ((sdFrame cmd arg).getD 0 0).getLsbD 7 = false ∧ ((sdFrame cmd arg).getD 0 0).getLsbD 6 = true ∧
    (((sdFrame cmd arg).getD 0 0).extractLsb' 0 6).toNat = cmd ∧ ((sdFrame cmd arg).getD 5 0).getLsbD 0 = true

/-- The frame the builder makes for an index with a row decodes to that row, with the CRC field of R92; for an index without
one to SD_SEND_CMD or SD_SEND_ACMD of that index, whose meaning is the ValueError (30_encoding.md R94, R95). A frame that
stands alone is one with `keep` clear. That a frame is the whole command, and its `keep` operand, are the model's (log
entry 9). -/
def Obligations.BuiltFramesDecodeToTheirCommands : Prop :=
  ∀ (n : Nat) (arg : Word32) (keep : Bool), n ≤ 63 →
    decodeSubmission ⟨.sd, sdFrame n arg ++ encodeBool keep⟩ =
      .ok (match cmdRowOf n with
        | some row => row arg (crc7Of (frameHeader n arg)) keep
        | none => .sdSendCmd n arg.toNat keep) ∧
    decodeSubmission ⟨.sdApp, sdFrame n arg ++ encodeBool keep⟩ =
      .ok (match acmdRowOf n with
        | some row => row arg (crc7Of (frameHeader n arg)) keep
        | none => .sdSendAcmd n arg.toNat keep) ∧
    decodeSubmission ⟨.sd, sdFrame n arg⟩ = decodeSubmission ⟨.sd, sdFrame n arg ++ encodeBool false⟩ ∧
    decodeSubmission ⟨.sdApp, sdFrame n arg⟩ = decodeSubmission ⟨.sdApp, sdFrame n arg ++ encodeBool false⟩

/-! ### The pure operations -/

/-- The left-aligned 8-bit register holds the CRC7 of every message in bits 7:1 with bit 0 always 0, and gives the same
frame byte (45_crc7.md R321, which the spec marks derived from R320). -/
def Obligations.EightBitFormGivesTheSameCrc : Prop :=
  ∀ bs : List Byte, crc7Of8 bs = BitVec.setWidth 8 (crc7Of bs) <<< 1 ∧ (crc7Of8 bs).getLsbD 0 = false ∧
    crc7Of8 bs ||| 1#8 = crcByte (crc7Of bs)

/-- CRC7 completes in every state with the register of 45_crc7.md R320, said here byte by byte: it starts at 0, and a
byte more is eight more steps of the register; nothing else changes. -/
def Obligations.Crc7CompletesByItsRegister : Prop :=
  (∀ (bs : List Byte) (s : State), exec (.crc7 bs) s = .next { s with results := s.results ++ [.ok (.crc (crc7Of bs))] }) ∧
  crc7Of [] = 0 ∧
  (∀ (bs : List Byte) (b : Byte),
    crc7Of (bs ++ [b]) =
      ([7, 6, 5, 4, 3, 2, 1, 0] : List Nat).foldl
        (fun (c : BitVec 7) i => if (c.getLsbD 6 ^^ b.getLsbD i) then (c <<< 1) ^^^ 0x09#7 else c <<< 1) (crc7Of bs))

/-- The values of 45_crc7.md R322, with the frame bytes (the spec marks them derived from R320). -/
def Obligations.Crc7HasItsTabledValues : Prop :=
  ∀ p ∈ ([([0x40, 0, 0, 0, 0], 0x4A, 0x95), ([0x41, 0, 0, 0, 0], 0x7C, 0xF9), ([0x48, 0, 0, 0x01, 0xAA], 0x43, 0x87),
      ([0x48, 0, 0, 0x01, 0xA5], 0x34, 0x69), ([0x49, 0, 0, 0, 0], 0x57, 0xAF), ([0x4A, 0, 0, 0, 0], 0x0D, 0x1B),
      ([0x4C, 0, 0, 0, 0], 0x30, 0x61), ([0x4D, 0, 0, 0, 0], 0x06, 0x0D), ([0x50, 0, 0, 0x02, 0], 0x0A, 0x15),
      ([0x51, 0, 0, 0, 0], 0x2A, 0x55), ([0x51, 0x12, 0x34, 0x56, 0x78], 0x2E, 0x5D), ([0x58, 0, 0, 0, 0], 0x37, 0x6F),
      ([0x69, 0, 0, 0, 0], 0x72, 0xE5), ([0x69, 0x40, 0, 0, 0], 0x3B, 0x77), ([0x77, 0, 0, 0, 0], 0x32, 0x65),
      ([0x7A, 0, 0, 0, 0], 0x7E, 0xFD), ([0x7B, 0, 0, 0, 0], 0x48, 0x91), ([0x7B, 0, 0, 0, 0x01], 0x41, 0x83),
      ([0x40, 0xFF, 0xFF, 0xFF, 0xFF], 0x5F, 0xBF), ([0x7F, 0xFF, 0xFF, 0xFF, 0xFF], 0x0C, 0x19),
      ([0x00], 0x00, 0x01), ([0x01], 0x09, 0x13), ([0x80], 0x41, 0x83)] : List (List Byte × BitVec 7 × Byte)),
    crc7Of p.1 = p.2.1 ∧ crcByte p.2.1 = p.2.2

/-- SCATTER (40_framing_codec.md R136): a step below 1 is a RangeError; otherwise the result is the chunks of R136, chunk
`i` being `xs[i*k .. min((i+1)*k, len(xs))]`, as many as `ceil(len(xs)/k)`; every chunk but the last has `k` elements,
the last 1 to `k`, and together they are `xs`. The elements are natural numbers by the model's choice (log entry 12). -/
def Obligations.ScatterCompletesWithItsChunks : Prop :=
  ∀ (xs : List Nat) (k : Int) (s : State),
    (k < 1 → exec (.scatter xs k) s = .next { s with results := s.results ++ [.err (.range .k k)] }) ∧
    (1 ≤ k → ∃ cs : List (List Nat),
      exec (.scatter xs k) s = .next { s with results := s.results ++ [.ok (.chunks cs)] } ∧
      cs.flatten = xs ∧ cs.length = (xs.length + k.toNat - 1) / k.toNat ∧
      ∀ (i : Nat) (c : List Nat), cs[i]? = some c →
        c = (xs.take (min ((i + 1) * k.toNat) xs.length)).drop (i * k.toNat) ∧ 1 ≤ c.length ∧ c.length ≤ k.toNat ∧
          (i + 1 < cs.length → c.length = k.toNat))

/-- The burst and sub-chunk sizes of a READ are the lengths of `scatter` of a list of that length, and add up to it
(40_framing_codec.md R139). -/
def Obligations.ChunkSizesAreThoseOfScatter : Prop :=
  ∀ (α : Type) (xs : List α) (k : Nat), 1 ≤ k →
    chunkSizes xs.length k = (chunksOf xs k).map List.length ∧ (chunkSizes xs.length k).sum = xs.length ∧
    ∀ n ∈ chunkSizes xs.length k, 1 ≤ n ∧ n ≤ k

/-- `round_half_even(a / b)` is an integer nearest the quotient, and the even one of two (42_spi_bridge.md R212). -/
def Obligations.RoundingIsHalfToEven : Prop :=
  ∀ a b : Nat, 0 < b →
    let q := roundHalfEven a b
    2 * a ≤ 2 * (q * b) + b ∧ 2 * (q * b) ≤ 2 * a + b ∧
    ((2 * a = 2 * (q * b) + b ∨ 2 * (q * b) = 2 * a + b) → q % 2 = 0)

/-- The clock divider never increases as the target increases (42_spi_bridge.md R211), whatever the source clock. -/
def Obligations.DividerNeverRisesWithTheTarget : Prop :=
  ∀ (fClk : Nat) (m : Byte) (p q : Rat), 0 < p → p ≤ q → (fdivFor fClk m q).toNat ≤ (fdivFor fClk m p).toNat

/-- The default chip-select masks, and no mask has two 0 bits (30_encoding.md R100, 42_spi_bridge.md R217). -/
def Obligations.DefaultMasksAssertAtMostOneLine : Prop :=
  csMaskOf defaultCsMasks .flash = 0xFE ∧ csMaskOf defaultCsMasks .rtc = 0xFD ∧ csMaskOf defaultCsMasks .sd = 0xFB ∧
  csMaskOf defaultCsMasks .none = 0xFF ∧
  ∀ (t : Target) (i j : Fin 8), (csMaskOf defaultCsMasks t).getLsbD i = false →
    (csMaskOf defaultCsMasks t).getLsbD j = false → i = j

/-- SD_DECODE_R1 (44_sd_response.md R281) in every state: the seven flags of a token, or ValueError for a byte with
bit 7 set. -/
def Obligations.DecodeR1CompletesWithSevenFlags : Prop :=
  ∀ (t : Byte) (s : State),
    (t.getLsbD 7 = false →
      exec (.sdDecodeR1 t) s =
        .next { s with results := s.results ++ [.ok (.r1 ⟨t.getLsbD 0, t.getLsbD 1, t.getLsbD 2, t.getLsbD 3, t.getLsbD 4,
          t.getLsbD 5, t.getLsbD 6, t⟩)] }) ∧
    (t.getLsbD 7 = true →
      exec (.sdDecodeR1 t) s = .next { s with results := s.results ++ [.err (.value (.invalidToken t))] })

/-- `r1_error` is `(token & R1_ERR_MASK) != 0`, and with the default mask any of the six error flags
(44_sd_response.md R282). -/
def Obligations.R1ErrorIsAnyOfSixFlags : Prop :=
  (∀ (m : Byte) (r : R1Rec), r1Error m r = true ↔ r.token &&& m ≠ 0) ∧
  ∀ (t : Byte) (r : R1Rec), decodeR1 t = .ok r →
    (r1Error (defaultsWith 1 0 [] []).r1ErrMask r = true ↔
      (r.eraseReset = true ∨ r.illegalCommand = true ∨ r.comCrcError = true ∨ r.eraseSequenceError = true ∨
        r.addressError = true ∨ r.parameterError = true))

/-- SD_DECODE_R1B and SD_DECODE_R2 of a token (44_sd_response.md R284, R285) in every state, with every field; and
ValueError for a byte with bit 7 set. -/
def Obligations.DecodeR1bAndR2Complete : Prop :=
  ∀ (t b : Byte) (s : State),
    (∀ r, decodeR1 t = .ok r →
      exec (.sdDecodeR1b t b) s =
        .next { s with results := s.results ++ [.ok (.response (.r1b ⟨r, decide (b = 0x00), b⟩))] } ∧
      exec (.sdDecodeR2 t b) s =
        .next { s with results := s.results ++ [.ok (.response (.r2 ⟨r, b.getLsbD 0, b.getLsbD 1, b.getLsbD 2, b.getLsbD 3,
          b.getLsbD 4, b.getLsbD 5, b.getLsbD 6, b.getLsbD 7, b⟩))] }) ∧
    (t.getLsbD 7 = true →
      exec (.sdDecodeR1b t b) s = .next { s with results := s.results ++ [.err (.value (.invalidToken t))] } ∧
      exec (.sdDecodeR2 t b) s = .next { s with results := s.results ++ [.err (.value (.invalidToken t))] })

/-- SD_DECODE_R3 and SD_DECODE_R7 of a token (44_sd_response.md R287, R289; 30_encoding.md R99, R101, R102) in every
state, with every field; and ValueError for a byte with bit 7 set. -/
def Obligations.DecodeR3AndR7Complete : Prop :=
  ∀ (t b1 b2 b3 b4 : Byte) (s : State),
    (∀ r vdd, decodeR1 t = .ok r →
      vddRange ((b1 ++ b2 ++ b3 ++ b4 : Word32).extractLsb' 15 9) = .ok vdd →
      exec (.sdDecodeR3 t b1 b2 b3 b4) s =
        .next { s with results := s.results ++ [.ok (.response (.r3 ⟨r, b1 ++ b2 ++ b3 ++ b4, !b1.getLsbD 7, b1.getLsbD 6,
          b1.getLsbD 5, b1.getLsbD 3, b1.getLsbD 0, b4.getLsbD 7, vdd⟩))] }) ∧
    (∀ r, decodeR1 t = .ok r →
      exec (.sdDecodeR7 t b1 b2 b3 b4) s =
        .next { s with results := s.results ++ [.ok (.response (.r7 ⟨r, b1.extractLsb' 4 4,
          (if b3.extractLsb' 0 4 = 1 then .v27_36 else if b3.extractLsb' 0 4 = 2 then .lowVoltageRange else .notDefined),
          b3.extractLsb' 0 4, b4⟩))] }) ∧
    (t.getLsbD 7 = true →
      exec (.sdDecodeR3 t b1 b2 b3 b4) s = .next { s with results := s.results ++ [.err (.value (.invalidToken t))] } ∧
      exec (.sdDecodeR7 t b1 b2 b3 b4) s = .next { s with results := s.results ++ [.err (.value (.invalidToken t))] })

/-- VDD_RANGE (44_sd_response.md R288) over every bitmap: none for the empty one; else the low end of the lowest set
window and the high end of the highest. The ValueError is never raised, as R288
derives. -/
def Obligations.VddRangeIsLowestToHighest : Prop :=
  ∀ m : BitVec 9,
    (m = 0 → vddRange m = .ok none) ∧
    (m ≠ 0 → ∃ lo hi : Nat, vddRange m = .ok (some (27 + lo, 28 + hi)) ∧ lo ≤ hi ∧ hi ≤ 8 ∧
      m.getLsbD lo = true ∧ m.getLsbD hi = true ∧ ∀ i, m.getLsbD i = true → lo ≤ i ∧ i ≤ hi)

/-- SD_ERROR (44_sd_response.md R286, R291) in every state: the R1 errors of every shape, and the R2 byte of an R2. -/
def Obligations.SdErrorCompletesByShape : Prop :=
  ∀ (s : State) (resp : SDResponse),
    exec (.sdError resp) s = .next { s with results := s.results ++ [.ok (.bit
      (match resp with
        | .r1 r => decide (r.token &&& s.cfg.r1ErrMask ≠ 0)
        | .r1b r => decide (r.r1.token &&& s.cfg.r1ErrMask ≠ 0)
        | .r2 r => decide (r.r1.token &&& s.cfg.r1ErrMask ≠ 0 ∨ r.r2Byte &&& s.cfg.r2ErrMask ≠ 0)
        | .r3 r => decide (r.r1.token &&& s.cfg.r1ErrMask ≠ 0)
        | .r7 r => decide (r.r1.token &&& s.cfg.r1ErrMask ≠ 0)))] }

/-- SD_BUILD_FRAME (43_sd_command.md R243) in every state: the frame, or RangeError for the first operand out of
range. -/
def Obligations.BuildFrameCompletes : Prop :=
  ∀ (cmd arg : Int) (s : State),
    (0 ≤ cmd → cmd ≤ 63 → 0 ≤ arg → arg ≤ 2 ^ 32 - 1 →
      exec (.sdBuildFrame cmd arg) s =
        .next { s with results := s.results ++ [.ok (.bytes (sdFrame cmd.toNat (BitVec.ofInt 32 arg)))] }) ∧
    (cmd < 0 ∨ 63 < cmd →
      exec (.sdBuildFrame cmd arg) s = .next { s with results := s.results ++ [.err (.range .cmd cmd)] }) ∧
    (0 ≤ cmd → cmd ≤ 63 → arg < 0 ∨ 2 ^ 32 - 1 < arg →
      exec (.sdBuildFrame cmd arg) s = .next { s with results := s.results ++ [.err (.range .arg arg)] })

/-! ### The framing codec -/

/-- SEND_AND_EXPECT with the link open and a reply that matches (40_framing_codec.md R134): the packet transmitted, the
reply consumed, the captured bytes returned, no register written. What the device sends stands in RX by log entry 2. -/
def Obligations.SendAndExpectCompletes : Prop :=
  ∀ (packet : List Byte) (pat : Pattern) (n : Nat) (ctx : Text) (s : State) (bs : List Byte) (rest : List RxEvent),
    s.link = .opened → pat.length = n → s.rx = arrivals bs ++ rest → matchPattern pat bs = true →
    exec (.sendAndExpect packet pat n ctx) s =
      .next { s with tx := s.tx ++ packet, rx := rest,
                     results := s.results ++ [.ok (.bytes (captures pat bs))] }

/-- `Match` and `Captures` (40_framing_codec.md R132): equal lengths and every `Fix` byte equal; the bytes at the `Cap`
elements, in order. -/
def Obligations.MatchIsBytewise : Prop :=
  ∀ (pat : Pattern) (bs : List Byte),
    (matchPattern pat bs = true ↔
      bs.length = pat.length ∧ ∀ (i : Nat) (b r : Byte), pat[i]? = some (.fix b) → bs[i]? = some r → r = b) ∧
    captures pat bs = ((pat.zip bs).filter fun p => decide (p.1 = .cap)).map Prod.snd

/-- An exchange whose reply does not match ends with ProtocolError after all `n` bytes were consumed; one whose reply is
short ends with TransportError and is not matched; a pattern of another length than the expected length is refused
(40_framing_codec.md R131, R133, R134). The context of the error is the model's choice (log entry 14). -/
def Obligations.SendAndExpectFailsByItsReply : Prop :=
  ∀ (packet : List Byte) (pat : Pattern) (n : Nat) (ctx : Text) (s : State) (bs : List Byte) (rest : List RxEvent),
    (s.link = .opened → pat.length = n → s.rx = arrivals bs ++ rest → bs.length = n → matchPattern pat bs = false →
      exec (.sendAndExpect packet pat n ctx) s =
        .next { s with tx := s.tx ++ packet, rx := rest,
                       results := s.results ++ [.err (.protocol pat n bs (.text ctx))] }) ∧
    (s.link = .opened → pat.length = n → s.rx = arrivals bs ++ .timeout :: rest → bs.length < n →
      exec (.sendAndExpect packet pat n ctx) s =
        .next { s with tx := s.tx ++ packet, rx := rest, results := s.results ++ [.err (.transport n bs)] }) ∧
    (pat.length ≠ n → exec (.sendAndExpect packet pat n ctx) s = .refused .patternLength)

/-- The packets the block sends, as rows, with the link open and their acknowledgement received (40_framing_codec.md
R140 to R144): the packet transmitted, the reply consumed, no register written. That a row of a packet is its exchange
is the model's reading (log entry 7), and so is a length byte that stands for more than MAX_BURST bytes (log entry
31). -/
def Obligations.PacketExchangesComplete : Prop :=
  ∀ (s : State) (rest : List RxEvent), s.link = .opened →
    (∀ c, s.rx = arrivals [0x03, c] ++ rest → exec .cfgRd s =
      .next { s with tx := s.tx ++ [0x02], rx := rest, results := s.results ++ [.ok (.byte c)] }) ∧
    (∀ e a, s.rx = arrivals [0x05] ++ rest → exec (.cfgWr e a) s =
      .next { s with tx := s.tx ++ [0x04, cfgByte e a], rx := rest, results := s.results ++ [.ok .unit] }) ∧
    (∀ a, s.rx = arrivals [0x11, addrHi a, addrLo a] ++ rest → exec (.setAddr a) s =
      .next { s with tx := s.tx ++ [0x10, addrHi a, addrLo a], rx := rest, results := s.results ++ [.ok .unit] }) ∧
    (∀ n, s.rx = arrivals [0x21] ++ rest → exec (.rd n) s =
      .next { s with tx := s.tx ++ [0x20, n], rx := rest, results := s.results ++ [.ok .unit] }) ∧
    (∀ n, s.rx = arrivals [0x31] ++ rest → exec (.wr n) s =
      .next { s with tx := s.tx ++ [0x30, n], rx := rest, results := s.results ++ [.ok .unit] })

/-- The packets the device sends, as rows: the bytes arrive at the end of RX and nothing else changes (10_state.md R22,
60_exceptions.md R347). That a row of a device packet is its arrival is the model's reading (log entry 8). -/
def Obligations.DevicePacketsArriveOnRx : Prop :=
  ∀ (s : State),
    (∀ c, exec (.cfgRdAck c) s = .next { s with rx := s.rx ++ arrivals [0x03, c] }) ∧
    exec .cfgWrAck s = .next { s with rx := s.rx ++ arrivals [0x05] } ∧
    (∀ a, exec (.setAddrAck a) s = .next { s with rx := s.rx ++ arrivals [0x11, addrHi a, addrLo a] }) ∧
    exec .rdAck s = .next { s with rx := s.rx ++ arrivals [0x21] } ∧
    exec .wrAck s = .next { s with rx := s.rx ++ arrivals [0x31] }

/-! ### The debug core -/

/-- INIT with the link closed, the port opening and the four exchanges answered (41_debug_core.md R170). The outcomes of
opening the port stand in State by log entry 3. -/
def Obligations.InitCompletesDisabled : Prop :=
  ∀ (path : Text) (s : State) (opens : List OpenOutcome) (fl : List Byte) (rest : List RxEvent),
    s.link = .closed → s.opens = .opened :: opens → matchPattern s.cfg.flushAck fl = true →
    s.rx = arrivals (fl ++ [0x05] ++ [0x11, 0x00, 0x00] ++ [0x05]) ++ rest →
    exec (.init path) s =
      .next { s with link := .opened, en := false, ai := false, addr := 0, cs := .unknown, fdiv := .unknown,
                     opens := opens, tx := s.tx ++ s.cfg.flushReq ++ [0x04, 0x01] ++ [0x10, 0x00, 0x00] ++ [0x04, 0x00],
                     rx := rest, results := s.results ++ [.ok .unit] }

/-- Every way INIT ends (41_debug_core.md R170, 70_reset_and_hazards.md R373): StateError with the link open; with the link
closed, by the outcome of opening the port, ConnectionError and nothing transmitted when it does not open, and otherwise
either success with the link open, or an error with the link closed; in both cases the shadow registers have the values of
10_state.md R42. The outcome stands in State, or is drawn when none does, as at reset (log entry 3). -/
def Obligations.InitEndsOpenOrClosed : Prop :=
  ∀ (path : Text) (s : State),
    (s.link = .opened →
      exec (.init path) s = .next { s with results := s.results ++ [.err (.state .init .linkClosed)] }) ∧
    (∀ (o : OpenOutcome) (u : State), s.link = .closed →
      ((∃ opens, s.opens = o :: opens ∧ u = { s with opens := opens }) ∨
        (s.opens = [] ∧ o = Config.openDraw s.draws ∧ u = { s with draws := s.draws + 1 })) →
      match o with
      | .failed => exec (.init path) s = .next { u with results := s.results ++ [.err (.connection path)] }
      | .opened =>
        ∃ t, exec (.init path) s = .next t ∧ t.en = false ∧ t.ai = false ∧ t.addr = 0 ∧ t.cs = .unknown ∧
          t.fdiv = .unknown ∧
          ((t.link = .opened ∧ t.results = s.results ++ [.ok .unit]) ∨
            (t.link = .closed ∧ ∃ e, t.results = s.results ++ [.err e] ∧ (errorCode e = 2 ∨ errorCode e = 3))))

/-- CLOSE (41_debug_core.md R171) in every state: all six registers, nothing transmitted, no error. That RX keeps what
has arrived is the model's reading (70_reset_and_hazards.md R381; log entry 30). -/
def Obligations.CloseResetsEveryRegister : Prop :=
  ∀ s : State,
    exec .close s =
      .next { s with link := .closed, en := false, ai := false, addr := 0, cs := .unknown, fdiv := .unknown,
                     results := s.results ++ [.ok .unit] }

/-- The configuration writes, acknowledged (41_debug_core.md R172 to R174, R177 to R179): the whole CFG byte is sent,
the changed bit new, the other from its shadow, and then the one shadow is written. READ_CONFIG, answered, in both open
modes (R175): the captured byte, whatever it is; no register written. -/
def Obligations.ConfigurationOperationsComplete : Prop :=
  (∀ (s : State) (c : Byte) (rest : List RxEvent), s.link = .opened → s.rx = arrivals [0x03, c] ++ rest →
    exec .readConfig s =
      .next { s with tx := s.tx ++ [0x02], rx := rest, results := s.results ++ [.ok (.byte c)] }) ∧
  ∀ (s : State) (rest : List RxEvent), s.link = .opened → s.rx = arrivals [0x05] ++ rest →
    (s.en = false → exec .enableCore s =
      .next { s with en := true, tx := s.tx ++ [0x04, cfgByte true s.ai], rx := rest,
                     results := s.results ++ [.ok .unit] }) ∧
    (s.en = true → exec .disableCore s =
      .next { s with en := false, tx := s.tx ++ [0x04, cfgByte false s.ai], rx := rest,
                     results := s.results ++ [.ok .unit] }) ∧
    (∀ flag, s.en = true → exec (.setAutoIncrement flag) s =
      .next { s with ai := flag, tx := s.tx ++ [0x04, cfgByte true flag], rx := rest,
                     results := s.results ++ [.ok .unit] }) ∧
    (s.en = true → exec .enableAutoIncrement s =
      .next { s with ai := true, tx := s.tx ++ [0x04, 0x03], rx := rest, results := s.results ++ [.ok .unit] }) ∧
    (s.en = true → exec .disableAutoIncrement s =
      .next { s with ai := false, tx := s.tx ++ [0x04, 0x01], rx := rest, results := s.results ++ [.ok .unit] })

/-- SET_ADDRESS (41_debug_core.md R176): every address of 16 bits is sent high byte first, echoed, and then held in
ADDR. -/
def Obligations.SetAddressCompletes : Prop :=
  ∀ (a : Addr) (s : State) (rest : List RxEvent), s.link = .opened → s.en = true →
    s.rx = arrivals [0x11, addrHi a, addrLo a] ++ rest →
    exec (.setAddress a.toNat) s =
      .next { s with addr := a, tx := s.tx ++ [0x10, addrHi a, addrLo a], rx := rest,
                     results := s.results ++ [.ok .unit] }

/-- WRITE of any data, every header acknowledged and every sub-packet echoed (41_debug_core.md R180, 40_framing_codec.md
R147): the bursts transmitted in order, ADDR advanced by the number of bytes modulo 2^16 when AI, else kept. -/
def Obligations.WriteCompletes : Prop :=
  ∀ (data : List Byte) (s : State) (rest : List RxEvent), configOk s.cfg = true → s.link = .opened → s.en = true →
    s.rx = arrivals (writeRx s.cfg data) ++ rest →
    exec (.write data) s =
      .next { s with addr := if s.ai then s.addr + BitVec.ofNat 16 data.length else s.addr,
                     tx := s.tx ++ writeTx s.cfg data, rx := rest, results := s.results ++ [.ok .unit] }

/-- READ of 1 to 65535 bytes, every header acknowledged and every byte received (41_debug_core.md R181, 40_framing_codec.md
R148): the bytes in transfer order, ADDR advanced by their number modulo 2^16 when AI, else kept. -/
def Obligations.ReadCompletes : Prop :=
  ∀ (data : List Byte) (s : State) (rest : List RxEvent), configOk s.cfg = true → s.link = .opened → s.en = true →
    1 ≤ data.length → data.length ≤ 0xFFFF → s.rx = arrivals (readRx s.cfg data) ++ rest →
    exec (.read data.length) s =
      .next { s with addr := if s.ai then s.addr + BitVec.ofNat 16 data.length else s.addr,
                     tx := s.tx ++ readTx s.cfg data.length, rx := rest,
                     results := s.results ++ [.ok (.bytes data)] }

/-- WRITE and READ, whatever the device sends, draws among it (40_framing_codec.md R147, R148, 41_debug_core.md R184,
60_exceptions.md R340, R341): when every exchange is answered, ADDR advances by all the bytes with AI; when the transfer
breaks off at an exchange, by the bytes of the answered exchanges before it and no others, the operation ends with the error
of that exchange, and nothing further is transmitted or received; without AI the address is kept. A header counts nothing, a
sub-packet its bytes once echoed, a sub-chunk its bytes once received. That what follows RX is drawn is the model's (log
entry 2). -/
def Obligations.TransfersAdvanceAddrByAnsweredBytes : Prop :=
  ∀ (s : State) (data : List Byte), configOk s.cfg = true → s.link = .opened → s.en = true →
    (Upcoming s (arrivals (repliesOf (writeExchanges s.cfg data))) →
      exec (.write data) s =
        .next (afterTransfer s (writeExchanges s.cfg data) (packetsOf (writeExchanges s.cfg data))
          (repliesOf (writeExchanges s.cfg data)).length (.ok .unit)) ∧
      countedBy (writeExchanges s.cfg data) = data.length) ∧
    (∀ done tx rx e, Broken (writeExchanges s.cfg data) done tx rx e → Upcoming s rx →
      exec (.write data) s = .next (afterTransfer s done tx rx.length (.err e))) ∧
    (1 ≤ data.length → data.length ≤ 0xFFFF →
      (Upcoming s (arrivals (repliesOf (readExchanges s.cfg data))) →
        exec (.read data.length) s =
          .next (afterTransfer s (readExchanges s.cfg data) (packetsOf (readExchanges s.cfg data))
            (repliesOf (readExchanges s.cfg data)).length (.ok (.bytes data))) ∧
        countedBy (readExchanges s.cfg data) = data.length) ∧
      (∀ done tx rx e, Broken (readExchanges s.cfg data) done tx rx e → Upcoming s rx →
        exec (.read data.length) s = .next (afterTransfer s done tx rx.length (.err e))))

/-- A shadow register is written only after the acknowledgement (41_debug_core.md R172, 10_state.md R27 to R31): each of
these nine operations that ends with an error leaves the one register it is there to set as it was. What a failed
SPI_SELECT or SPI_SET_SPEED keeps of AI and ADDR (42_spi_bridge.md R213) is not said here. -/
def Obligations.FailedOperationsLeaveTheirRegister : Prop :=
  ∀ (s t : State) (e : ErrorRecord), t.results = s.results ++ [.err e] →
    (exec .enableCore s = .next t → t.en = s.en) ∧ (exec .disableCore s = .next t → t.en = s.en) ∧
    (∀ flag, exec (.setAutoIncrement flag) s = .next t → t.ai = s.ai) ∧
    (exec .enableAutoIncrement s = .next t → t.ai = s.ai) ∧ (exec .disableAutoIncrement s = .next t → t.ai = s.ai) ∧
    (∀ addr, exec (.setAddress addr) s = .next t → t.addr = s.addr) ∧
    (∀ q, exec (.spiSetSpeed q) s = .next t → t.fdiv = s.fdiv) ∧
    (∀ target, exec (.spiSelect target) s = .next t → t.cs = s.cs) ∧
    (exec .spiDeselect s = .next t → t.cs = s.cs)

/-! ### Sessions -/

/-- WITH_CORE_ENABLED, its enable acknowledged and its body successful (41_debug_core.md R183): the results of the body in
order; at the end the core is disabled, with the CFG byte composed from AI as the body left it, or, when the body disabled
it, left so with nothing more transmitted. Then the whole session of an empty body, and of a body of one SET_ADDRESS. -/
def Obligations.SessionCompletes : Prop :=
  (∀ (body : Requests) (s u : State) (vs : Values) (rest rest' : List RxEvent),
    requestsAdmissible body = true → s.link = .opened → s.en = false → s.rx = arrivals [0x05] ++ rest →
    performAll body { s with en := true, tx := s.tx ++ [0x04, cfgByte true s.ai], rx := rest } = (.ok vs, u) →
    (u.en = true → u.link = .opened → u.rx = arrivals [0x05] ++ rest' →
      exec (.withCoreEnabled body) s =
        .next { u with en := false, tx := u.tx ++ [0x04, cfgByte false u.ai], rx := rest',
                       results := u.results ++ [.ok (.results vs)] }) ∧
    (u.en = false →
      exec (.withCoreEnabled body) s = .next { u with results := u.results ++ [.ok (.results vs)] })) ∧
  (∀ (s : State) (rest : List RxEvent), s.link = .opened → s.en = false →
    (s.rx = arrivals [0x05, 0x05] ++ rest →
      exec (.withCoreEnabled .nil) s =
        .next { s with tx := s.tx ++ [0x04, cfgByte true s.ai] ++ [0x04, cfgByte false s.ai], rx := rest,
                       results := s.results ++ [.ok (.results .nil)] }) ∧
    (∀ a : Addr, s.rx = arrivals ([0x05] ++ [0x11, addrHi a, addrLo a] ++ [0x05]) ++ rest →
      exec (.withCoreEnabled (.cons (.setAddress a.toNat) .nil)) s =
        .next { s with addr := a,
                       tx := s.tx ++ [0x04, cfgByte true s.ai] ++ [0x10, addrHi a, addrLo a] ++ [0x04, cfgByte false s.ai],
                       rx := rest, results := s.results ++ [.ok (.results (.cons .unit .nil))] }))

/-- A body is performed request by request (41_debug_core.md R183): the empty body does nothing; a first request that
succeeds is followed by the others from the state it left; one that fails ends the body. And a request inside a session
does what it does on its own: its meaning as an instruction is its performance with the result delivered. -/
def Obligations.BodiesArePerformedRequestByRequest : Prop :=
  (∀ s, performAll .nil s = (.ok .nil, s)) ∧
  (∀ (r : Request) (rs : Requests) (s t u : State) (v : Value) (vs : Values),
    perform r s = (.ok v, t) → performAll rs t = (.ok vs, u) → performAll (.cons r rs) s = (.ok (.cons v vs), u)) ∧
  (∀ (r : Request) (rs : Requests) (s t : State) (e : ErrorRecord),
    perform r s = (.error e, t) → performAll (.cons r rs) s = (.error e, t)) ∧
  (∀ (r : Request) (rs : Requests) (s t u : State) (v : Value) (e : ErrorRecord),
    perform r s = (.ok v, t) → performAll rs t = (.error e, u) → performAll (.cons r rs) s = (.error e, u)) ∧
  (∀ (r : Request) (s : State), requestAdmissible r = true →
    exec (Instr.ofRequest r) s =
      .next (match perform r s with
        | (.ok v, t) => { t with results := t.results ++ [.ok v] }
        | (.error e, t) => { t with results := t.results ++ [.err e] }))

/-- A session whose body fails reports the body's error whatever its final disable does (60_exceptions.md R346), and a
session that succeeds leaves the core disabled (41_debug_core.md R183). -/
def Obligations.SessionReportsTheFirstErrorAndDisables : Prop :=
  (∀ (body : Requests) (s u : State) (e : ErrorRecord) (rest : List RxEvent),
    requestsAdmissible body = true → s.link = .opened → s.en = false → s.rx = arrivals [0x05] ++ rest →
    performAll body { s with en := true, tx := s.tx ++ [0x04, cfgByte true s.ai], rx := rest } = (.error e, u) →
    ∃ t, exec (.withCoreEnabled body) s = .next t ∧ t.results = s.results ++ [.err e] ∧
      (∀ rest', u.en = true → u.link = .opened → u.rx = arrivals [0x05] ++ rest' → t.en = false)) ∧
  (∀ (body : Requests) (s t : State) (v : Value), exec (.withCoreEnabled body) s = .next t →
    t.results = s.results ++ [.ok v] → t.en = false)

/-! ### The SPI bridge -/

/-- SPI_SELECT and SPI_DESELECT, answered (42_spi_bridge.md R213, R214): auto-increment off on the device, address SPI_CS,
the target's mask; then `CS`, `AI` and `ADDR` as R213 says. -/
def Obligations.SelectCompletes : Prop :=
  ∀ (target : Target) (s : State) (rest : List RxEvent), configOk s.cfg = true → s.link = .opened → s.en = true →
    s.rx = arrivals (selectRx s.cfg target) ++ rest →
    let t : State :=
      { s with ai := false, addr := s.cfg.spiCsAddr, cs := .known target, tx := s.tx ++ selectTx s.cfg target, rx := rest,
               results := s.results ++ [.ok .unit] }
    exec (.spiSelect target) s = .next t ∧ (target = .none → exec .spiDeselect s = .next t)

/-- SPI_SET_SPEED, answered (42_spi_bridge.md R211), for every positive target: the divider written at SPI_FDIV and held
in FDIV, the exact clock it gives returned; ADDR advances past SPI_FDIV when AI. -/
def Obligations.SetSpeedCompletes : Prop :=
  ∀ (q : Rat) (s : State) (rest : List RxEvent), configOk s.cfg = true → s.link = .opened → s.en = true → 0 < q →
    s.rx = arrivals (registerRx s.cfg.spiFdivAddr (fdivFor s.cfg.fClk s.cfg.fdivMax q)) ++ rest →
    exec (.spiSetSpeed q) s =
      .next { s with addr := if s.ai then s.cfg.spiFdivAddr + 1 else s.cfg.spiFdivAddr,
                     fdiv := .known (fdivFor s.cfg.fClk s.cfg.fdivMax q),
                     tx := s.tx ++ registerTx s.cfg.spiFdivAddr (fdivFor s.cfg.fClk s.cfg.fdivMax q), rx := rest,
                     results := s.results ++ [.ok (.rational
                       ((s.cfg.fClk : Rat) / ((fdivFor s.cfg.fClk s.cfg.fdivMax q).toNat + 1)))] } ∧
    (fdivFor s.cfg.fClk s.cfg.fdivMax q).toNat =
      min (roundHalfEven (s.cfg.fClk * q.den) q.num.toNat - 1) s.cfg.fdivMax.toNat

/-- SPI_WRITE_READ and SPI_WRITE of any bytes, every exchange answered (42_spi_bridge.md R215, R216): each byte is
addressed, written and read back in order; SPI_WRITE discards what was read. With AI the address has moved two past
SPI_DATA (70_reset_and_hazards.md R382). -/
def Obligations.WriteReadCompletes : Prop :=
  ∀ (pairs : List (Byte × Byte)) (s : State) (rest : List RxEvent), configOk s.cfg = true → s.link = .opened →
    s.en = true → s.rx = arrivals (exchangesRx s.cfg pairs) ++ rest →
    let t : State :=
      { s with addr := if pairs = [] then s.addr else if s.ai then s.cfg.spiDataAddr + 2 else s.cfg.spiDataAddr,
               tx := s.tx ++ exchangesTx s.cfg (pairs.map Prod.fst), rx := rest }
    exec (.spiWriteRead (pairs.map Prod.fst)) s =
      .next { t with results := s.results ++ [.ok (.bytes (pairs.map Prod.snd))] } ∧
    exec (.spiWrite (pairs.map Prod.fst)) s = .next { t with results := s.results ++ [.ok .unit] }

/-! ### SD commands -/

/-- Every instruction that sends an SD command by CMD_SHAPE (SD_SEND_CMD with operands in range, and the 25 CMD rows),
when the card answers with a token after at most NCR_MAX polls and neither the token nor the extended response has an error
(43_sd_command.md R245, R247): select, frame, poll, extension, flush, deselect unless kept; the decoded response returned,
with its raw bytes, the poll and then the extension. That a CMD row is SD_SEND_CMD is the model's reading (log entry 9), and
that the raw bytes stand beside the response (log entry 15). -/
def Obligations.SdCommandsComplete : Prop :=
  ∀ (i : Instr) (s : State) (cmd : Nat) (arg : Word32) (keep : Bool) (shape : Shape) (r : CardReply) (pre : List Byte)
    (tok : Byte) (resp : SDResponse) (rest : List RxEvent),
    cmdOf i = some (cmd, arg, keep) → configOk s.cfg = true → s.link = .opened → s.en = true →
    lookupShape s.cfg.cmdShape cmd = some shape → r.frame.length = 6 → r.poll = pre ++ [tok] →
    (∀ b ∈ pre, b.getLsbD 7 = true) → tok.getLsbD 7 = false → r.poll.length ≤ s.cfg.ncrMax →
    r.ext.length = extraBytes shape → r.flush.length = s.cfg.flushN → decodeResponse shape tok r.ext = .ok resp →
    sdErrorOf s.cfg.r1ErrMask s.cfg.r2ErrMask resp = false →
    s.rx = arrivals (commandRx s.cfg cmd arg keep r) ++ rest →
    exec i s =
      .next (afterCommand s keep (commandTx s.cfg cmd arg keep r) rest (.ok (.reply ⟨resp, r.poll ++ r.ext⟩)))

/-- Every instruction that sends an SD application command by ACMD_SHAPE (SD_SEND_ACMD with operands in range, and the 6
ACMD rows), when CMD55 and then the application command are answered without error (43_sd_command.md R247, R248): CMD55 with
argument 0 and its deselect, then the command, `keep` honoured only for the second, whose response and raw bytes are
returned. That an ACMD row is SD_SEND_ACMD is the model's reading (log entry 9), and that the raw bytes stand beside the
response (log entry 15). -/
def Obligations.SdApplicationCommandsComplete : Prop :=
  ∀ (i : Instr) (s : State) (cmd : Nat) (arg : Word32) (keep : Bool) (shape55 shape : Shape) (r55 r : CardReply)
    (pre55 pre : List Byte) (tok55 tok : Byte) (resp55 resp : SDResponse) (rest : List RxEvent),
    acmdOf i = some (cmd, arg, keep) → configOk s.cfg = true → s.link = .opened → s.en = true →
    lookupShape s.cfg.cmdShape 55 = some shape55 → lookupShape s.cfg.acmdShape cmd = some shape →
    r55.frame.length = 6 → r55.poll = pre55 ++ [tok55] → (∀ b ∈ pre55, b.getLsbD 7 = true) →
    tok55.getLsbD 7 = false → r55.poll.length ≤ s.cfg.ncrMax → r55.ext.length = extraBytes shape55 →
    r55.flush.length = s.cfg.flushN → decodeResponse shape55 tok55 r55.ext = .ok resp55 →
    sdErrorOf s.cfg.r1ErrMask s.cfg.r2ErrMask resp55 = false →
    r.frame.length = 6 → r.poll = pre ++ [tok] → (∀ b ∈ pre, b.getLsbD 7 = true) →
    tok.getLsbD 7 = false → r.poll.length ≤ s.cfg.ncrMax → r.ext.length = extraBytes shape →
    r.flush.length = s.cfg.flushN → decodeResponse shape tok r.ext = .ok resp →
    sdErrorOf s.cfg.r1ErrMask s.cfg.r2ErrMask resp = false →
    s.rx = arrivals (commandRx s.cfg 55 0 false r55 ++ commandRx s.cfg cmd arg keep r) ++ rest →
    exec i s =
      .next (afterCommand s keep (commandTx s.cfg 55 0 false r55 ++ commandTx s.cfg cmd arg keep r) rest
        (.ok (.reply ⟨resp, r.poll ++ r.ext⟩)))

/-- Every way an SD command fails after its entry checks (43_sd_command.md R244 to R247, 60_exceptions.md R336, R346): no
token, an R1 error, an error in the response, each an SDException carrying the bytes read, or a TransportError or
ProtocolError in an exchange; then the flush and the deselect are made even when `keep_selected` is set. A flush that fails
after a success is the result, and forces the deselect; a deselect that fails after a success is the result. After an
earlier error the errors of the flush and of the deselect are discarded. The CMD rows by log entry 9. -/
def Obligations.FailedSdCommandsDeselect : Prop :=
  ∀ (i : Instr) (s : State) (cmd : Nat) (arg : Word32) (keep : Bool) (shape : Shape),
    cmdOf i = some (cmd, arg, keep) → configOk s.cfg = true → s.link = .opened → s.en = true →
    lookupShape s.cfg.cmdShape cmd = some shape →
    (∀ tx rx e addr cs rest, CommandFails s.cfg cmd arg shape keep tx rx e addr cs → s.rx = rx ++ rest →
      exec i s = .next (afterSd s addr cs tx rest (.err e))) ∧
    (∀ tx rx e rest, TryFails s.cfg cmd arg shape tx rx e → s.rx = rx ++ rest →
      ∃ t, exec i s = .next t ∧ t.results = s.results ++ [.err e]) ∧
    (∀ tx rx reply flush done tx' rx' e rest, TrySucceeds s.cfg cmd arg shape tx rx reply →
      flush.length = s.cfg.flushN → Broken (dummyExchanges s.cfg flush) done tx' rx' e → s.rx = rx ++ rx' ++ rest →
      ∃ t, exec i s = .next t ∧ t.results = s.results ++ [.err e])

/-- Every way an SD application command fails after its entry checks (43_sd_command.md R248, R245, R246): in its CMD55, by an
R1 error, by no token, in an exchange, in its flush or in its deselect, and then its own frame is never sent; or, after a
CMD55 that succeeded and was deselected, in the application command itself, as any SD command fails. An error of CMD55 is
the result whatever its cleanups do (60_exceptions.md R346). The ACMD rows by log entry 9. -/
def Obligations.FailedApplicationCommandsDeselect : Prop :=
  ∀ (i : Instr) (s : State) (cmd : Nat) (arg : Word32) (keep : Bool) (shape55 shape : Shape),
    acmdOf i = some (cmd, arg, keep) → configOk s.cfg = true → s.link = .opened → s.en = true →
    lookupShape s.cfg.cmdShape 55 = some shape55 → lookupShape s.cfg.acmdShape cmd = some shape →
    (∀ tx rx e addr cs rest, CommandFails s.cfg 55 0 shape55 false tx rx e addr cs → s.rx = rx ++ rest →
      exec i s = .next (afterSd s addr cs tx rest (.err e))) ∧
    (∀ tx rx e rest, TryFails s.cfg 55 0 shape55 tx rx e → s.rx = rx ++ rest →
      ∃ t, exec i s = .next t ∧ t.results = s.results ++ [.err e]) ∧
    (∀ tx55 rx55 reply55 flush tx rx e addr cs rest, TrySucceeds s.cfg 55 0 shape55 tx55 rx55 reply55 →
      flush.length = s.cfg.flushN → CommandFails s.cfg cmd arg shape keep tx rx e addr cs →
      s.rx = rx55 ++ arrivals (dummyRx s.cfg flush ++ selectRx s.cfg .none) ++ (rx ++ rest) →
      exec i s = .next (afterSd s addr cs
        (tx55 ++ exchangesTx s.cfg (dummies s.cfg flush) ++ selectTx s.cfg .none ++ tx) rest (.err e)))

/-- A command index with no entry in the table in use ends with ValueError in every state, before any wire I/O, flush or
deselect (43_sd_command.md R242, R246, R248); the SD rows by log entry 9. -/
def Obligations.UndefinedIndicesAreValueErrors : Prop :=
  ∀ (i : Instr) (s : State) (cmd : Nat) (arg : Word32) (keep : Bool),
    (cmdOf i = some (cmd, arg, keep) → lookupShape s.cfg.cmdShape cmd = none →
      exec i s = .next { s with results := s.results ++ [.err (.value (.unknownCommand cmd))] }) ∧
    (acmdOf i = some (cmd, arg, keep) → lookupShape s.cfg.acmdShape cmd = none →
      exec i s = .next { s with results := s.results ++ [.err (.value (.unknownCommand cmd))] })

/-! ### Errors of the entry checks -/

/-- RangeError (60_exceptions.md R335) comes first, in every state: whatever LINK and EN are, nothing is transmitted and no
register changes; of two operands out of range the first is reported (R339). -/
def Obligations.RangeErrorsComeFirst : Prop :=
  ∀ s : State,
    (∀ a : Int, a < 0 ∨ 0xFFFF < a →
      exec (.setAddress a) s = .next { s with results := s.results ++ [.err (.range .addr a)] }) ∧
    (∀ n : Int, n < 1 ∨ 0xFFFF < n →
      exec (.read n) s = .next { s with results := s.results ++ [.err (.range .length n)] }) ∧
    (∀ q : Rat, q ≤ 0 →
      exec (.spiSetSpeed q) s = .next { s with results := s.results ++ [.err (.range .targetHz q)] }) ∧
    (∀ (cmd arg : Int) (keep : Bool), cmd < 0 ∨ 63 < cmd →
      exec (.sdSendCmd cmd arg keep) s = .next { s with results := s.results ++ [.err (.range .cmd cmd)] } ∧
      exec (.sdSendAcmd cmd arg keep) s = .next { s with results := s.results ++ [.err (.range .cmd cmd)] }) ∧
    (∀ (cmd arg : Int) (keep : Bool), 0 ≤ cmd → cmd ≤ 63 → arg < 0 ∨ 0xFFFFFFFF < arg →
      exec (.sdSendCmd cmd arg keep) s = .next { s with results := s.results ++ [.err (.range .arg arg)] } ∧
      exec (.sdSendAcmd cmd arg keep) s = .next { s with results := s.results ++ [.err (.range .arg arg)] })

/-- With the link closed every operation that does wire I/O, but INIT and CLOSE, ends with StateError before any
(60_exceptions.md R345); a pure operation ends with no StateError and changes nothing but the results. The operation a
pseudo-operation's StateError names, and the packet and SD rows, are the model's reading (log entries 7, 9, 13). -/
def Obligations.ClosedLinkTurnsWireOperationsAway : Prop :=
  (∀ (i : Instr) (s : State) (op : OpName), s.link = .closed → linkCheckOf s.cfg i = some op →
    exec i s = .next { s with results := s.results ++ [.err (.state op .linkOpen)] }) ∧
  (∀ (i : Instr) (s : State), isPure i = true →
    ∃ r, exec i s = .next { s with results := s.results ++ [r] } ∧ ∀ op q, r ≠ .err (.state op q))

/-- In the wrong enablement state an operation ends with StateError before any wire I/O (60_exceptions.md R334): ENABLE_CORE
and WITH_CORE_ENABLED when enabled, every operation that requires `Enabled` when disabled. The operation a
pseudo-operation's StateError names is the model's reading (log entry 13), and that the 31 CMD and ACMD rows are among the
operations that require `Enabled` (log entry 9). -/
def Obligations.WrongEnablementIsAStateError : Prop :=
  (∀ s : State, s.link = .opened → s.en = true →
    exec .enableCore s = .next { s with results := s.results ++ [.err (.state .enableCore .disabled)] } ∧
    ∀ body, requestsAdmissible body = true →
      exec (.withCoreEnabled body) s =
        .next { s with results := s.results ++ [.err (.state .enableCore .disabled)] }) ∧
  (∀ (i : Instr) (s : State) (op : OpName), s.link = .opened → s.en = false → needsEnabled i = true →
    linkCheckOf s.cfg i = some op →
    exec i s = .next { s with results := s.results ++ [.err (.state op .enabled)] })

/-! ### The whole machine -/

/-- A step runs the decoded instruction: the first waiting request leaves the queue and is performed (00_scope.md R18,
10_state.md R21). The queue of waiting requests is the model's (log entry 5). -/
def Obligations.StepRunsTheDecodedInstruction : Prop :=
  ∀ (s : State) (x : Submission) (xs : List Submission) (i : Instr), configOk s.cfg = true → s.requests = x :: xs →
    decodeSubmission x = .ok i → step s = exec i { s with requests := xs }

/-- With nothing waiting a step changes nothing (60_exceptions.md R347; log entry 17), and an ill-formed configuration is
refused (00_scope.md R8). -/
def Obligations.IdleStepsChangeNothing : Prop :=
  ∀ s : State, (configOk s.cfg = true → s.requests = [] → step s = .next s) ∧
    (¬ (1 ≤ s.cfg.subpkt ∧ s.cfg.subpkt ≤ s.cfg.maxBurst ∧ 1 ≤ s.cfg.rxChunk ∧ s.cfg.rxChunk ≤ s.cfg.maxBurst ∧
        s.cfg.maxBurst ≤ 256 ∧ 1 ≤ s.cfg.ncrMax ∧ 1 ≤ s.cfg.fClk) → step s = .refused .badConfiguration)

/-- The power-on state (70_reset_and_hazards.md R370, 10_state.md R42). -/
def Obligations.ResetIsThePowerOnState : Prop :=
  State.reset.link = .closed ∧ State.reset.en = false ∧ State.reset.ai = false ∧ State.reset.addr = 0 ∧
    State.reset.cs = .unknown ∧ State.reset.fdiv = .unknown ∧ State.reset.tx = [] ∧ State.reset.rx = [] ∧
    modeOf State.reset = some .uninitialised

/-- The invariant of 10_state.md R43 holds at reset, and every parameter with a default has it (00_scope.md R7), among
them the masks of the targets (30_encoding.md R100) and the shape of each index by both tables (43_sd_command.md R240,
R241), so that the parameters are well-formed (00_scope.md R8). The OPEN parameters stay open (log entry 1). -/
def Obligations.ResetIsCoherentWithItsDefaults : Prop :=
  let c := State.reset.cfg
  Coherent State.reset ∧ configOk c = true ∧
  (c.maxBurst = 256 ∧ c.subpkt = 32 ∧ c.rxChunk = 32 ∧ c.ncrMax = 8 ∧ c.dummy = 0xFF ∧ c.flushN = 2 ∧
    c.fdivMax = 255) ∧
  (c.spiCtrlAddr = 0xA600 ∧ c.spiFdivAddr = 0xA601 ∧ c.spiCsAddr = 0xA602 ∧ c.spiDataAddr = 0xA603) ∧
  (c.baud = 115200 ∧ c.dataBits = 8 ∧ c.parityBits = 0 ∧ c.stopBits = 1) ∧
  (c.r1ErrMask = 0x7E ∧ c.r2ErrMask = 0xFE ∧ c.csMask = ⟨0xFE, 0xFD, 0xFB, 0xFF⟩) ∧
  (∀ n : Nat, lookupShape c.cmdShape n =
    if n ∈ [0, 1, 6, 9, 10, 16, 17, 18, 24, 25, 27, 30, 32, 33, 42, 55, 56, 59] then some .r1
    else if n ∈ [12, 28, 29, 38] then some .r1b
    else if n = 13 then some .r2 else if n = 58 then some .r3 else if n = 8 then some .r7 else none) ∧
  (∀ n : Nat, lookupShape c.acmdShape n =
    if n ∈ [22, 23, 41, 42, 51] then some .r1 else if n = 13 then some .r2 else none)

/-- Every step keeps `LINK = Closed` implies `EN = false` (10_state.md R43). -/
def Obligations.StepsKeepClosedDisabled : Prop :=
  ∀ s t : State, Coherent s → step s = .next t → Coherent t

/-- No step writes the parameters (10_state.md R32), and a step takes exactly the first waiting request: the queue is the
model's (log entry 5). -/
def Obligations.StepsKeepTheConfiguration : Prop :=
  ∀ s t : State, step s = .next t → t.cfg = s.cfg ∧ t.requests = s.requests.tail

/-- TX is append-only over every step (10_state.md R23). -/
def Obligations.TransmitStreamIsAppendOnly : Prop :=
  ∀ s t : State, step s = .next t → s.tx <+: t.tx

/-- RX is consumed from its head only, whatever the instruction and its outcome: what is not consumed stays, in order
(10_state.md R22, 70_reset_and_hazards.md R381). The packets of the device, which add to it, are the exception. -/
def Obligations.ReceiveStreamIsConsumedFromItsHead : Prop :=
  ∀ (i : Instr) (s t : State), exec i s = .next t →
    match arrivalOf i with
    | some bs => t = { s with rx := s.rx ++ arrivals bs }
    | none => t.rx <:+ s.rx

/-- Every request delivers exactly one result on the host port (10_state.md R21, 60_exceptions.md R339), after the earlier
ones, which stay. That an error is a next state is the model's reading (log entry 6). -/
def Obligations.OneResultPerRequest : Prop :=
  ∀ (i : Instr) (s t : State), arrivalOf i = none → exec i s = .next t → ∃ r, t.results = s.results ++ [r]

/-- The frame of every instruction and every outcome: a register an instruction does not write keeps its value
(10_state.md R26 to R31), and so do the parameters and the waiting requests; a pure operation changes nothing but the
results (30_encoding.md R110). The packet and SD rows by log entries 7 to 9. -/
def Obligations.RegistersChangeOnlyByTheirOperations : Prop :=
  ∀ (i : Instr) (s t : State), exec i s = .next t →
    KeptOutside (writesOf i) s t ∧ t.cfg = s.cfg ∧ t.requests = s.requests ∧
      (isPure i = true → { t with results := s.results } = s)

/-- The raise matrix (60_exceptions.md R338): an instruction ends only with errors of the kinds the matrix allows it, and
WITH_CORE_ENABLED, by its body, only with those of its requests (sessions among them) and of ENABLE_CORE and DISABLE_CORE.
The packet and SD rows by log entries 7 to 9. -/
def Obligations.ErrorsFollowTheRaiseMatrix : Prop :=
  ∀ (i : Instr) (s t : State) (e : ErrorRecord), exec i s = .next t → t.results = s.results ++ [.err e] →
    mayRaise i (errorCode e) = true

/-- No run of well-formed requests is refused: from any state with a well-formed configuration, whatever the device does,
every run over a queue of well-formed requests goes on (30_encoding.md R111, 60_exceptions.md R343; log entries 5, 6). -/
def Obligations.WellFormedRequestsAreNeverRefused : Prop :=
  ∀ (n : Nat) (s : State), configOk s.cfg = true →
    (∀ x ∈ s.requests, ∃ i : Instr, decodeSubmission x = .ok i ∧ i.wellFormed = true) → SafeRun n s
end

