-- ==== Sys2Proof/Laws/State.lean ====
section
/-! SUPPORT. One lemma per field per named update of the state, so that no later proof unfolds one. -/

namespace Sys2Proof.Machine

@[simp] theorem deliver_cfg (r : Result) (s : State) : (deliver r s).cfg = s.cfg := rfl
@[simp] theorem deliver_link (r : Result) (s : State) : (deliver r s).link = s.link := rfl
@[simp] theorem deliver_en (r : Result) (s : State) : (deliver r s).en = s.en := rfl
@[simp] theorem deliver_ai (r : Result) (s : State) : (deliver r s).ai = s.ai := rfl
@[simp] theorem deliver_addr (r : Result) (s : State) : (deliver r s).addr = s.addr := rfl
@[simp] theorem deliver_cs (r : Result) (s : State) : (deliver r s).cs = s.cs := rfl
@[simp] theorem deliver_fdiv (r : Result) (s : State) : (deliver r s).fdiv = s.fdiv := rfl
@[simp] theorem deliver_tx (r : Result) (s : State) : (deliver r s).tx = s.tx := rfl
@[simp] theorem deliver_rx (r : Result) (s : State) : (deliver r s).rx = s.rx := rfl
@[simp] theorem deliver_opens (r : Result) (s : State) : (deliver r s).opens = s.opens := rfl
@[simp] theorem deliver_draws (r : Result) (s : State) : (deliver r s).draws = s.draws := rfl
@[simp] theorem deliver_requests (r : Result) (s : State) : (deliver r s).requests = s.requests := rfl
@[simp] theorem deliver_results (r : Result) (s : State) : (deliver r s).results = s.results ++ [r] := rfl

@[simp] theorem resetShadows_cfg (l : Link) (s : State) : (resetShadows l s).cfg = s.cfg := rfl
@[simp] theorem resetShadows_link (l : Link) (s : State) : (resetShadows l s).link = l := rfl
@[simp] theorem resetShadows_en (l : Link) (s : State) : (resetShadows l s).en = false := rfl
@[simp] theorem resetShadows_ai (l : Link) (s : State) : (resetShadows l s).ai = false := rfl
@[simp] theorem resetShadows_addr (l : Link) (s : State) : (resetShadows l s).addr = 0 := rfl
@[simp] theorem resetShadows_cs (l : Link) (s : State) : (resetShadows l s).cs = .unknown := rfl
@[simp] theorem resetShadows_fdiv (l : Link) (s : State) : (resetShadows l s).fdiv = .unknown := rfl
@[simp] theorem resetShadows_tx (l : Link) (s : State) : (resetShadows l s).tx = s.tx := rfl
@[simp] theorem resetShadows_rx (l : Link) (s : State) : (resetShadows l s).rx = s.rx := rfl
@[simp] theorem resetShadows_opens (l : Link) (s : State) : (resetShadows l s).opens = s.opens := rfl
@[simp] theorem resetShadows_draws (l : Link) (s : State) : (resetShadows l s).draws = s.draws := rfl
@[simp] theorem resetShadows_requests (l : Link) (s : State) : (resetShadows l s).requests = s.requests := rfl
@[simp] theorem resetShadows_results (l : Link) (s : State) : (resetShadows l s).results = s.results := rfl

@[simp] theorem arrive_cfg (bs : List Byte) (s : State) : (arrive bs s).cfg = s.cfg := rfl
@[simp] theorem arrive_link (bs : List Byte) (s : State) : (arrive bs s).link = s.link := rfl
@[simp] theorem arrive_en (bs : List Byte) (s : State) : (arrive bs s).en = s.en := rfl
@[simp] theorem arrive_ai (bs : List Byte) (s : State) : (arrive bs s).ai = s.ai := rfl
@[simp] theorem arrive_addr (bs : List Byte) (s : State) : (arrive bs s).addr = s.addr := rfl
@[simp] theorem arrive_cs (bs : List Byte) (s : State) : (arrive bs s).cs = s.cs := rfl
@[simp] theorem arrive_fdiv (bs : List Byte) (s : State) : (arrive bs s).fdiv = s.fdiv := rfl
@[simp] theorem arrive_tx (bs : List Byte) (s : State) : (arrive bs s).tx = s.tx := rfl
@[simp] theorem arrive_rx (bs : List Byte) (s : State) : (arrive bs s).rx = s.rx ++ bs.map .byte := rfl
@[simp] theorem arrive_opens (bs : List Byte) (s : State) : (arrive bs s).opens = s.opens := rfl
@[simp] theorem arrive_draws (bs : List Byte) (s : State) : (arrive bs s).draws = s.draws := rfl
@[simp] theorem arrive_requests (bs : List Byte) (s : State) : (arrive bs s).requests = s.requests := rfl
@[simp] theorem arrive_results (bs : List Byte) (s : State) : (arrive bs s).results = s.results := rfl

@[simp] theorem withFetchWord_cfg (s : State) (nbits w : Nat) : (s.withFetchWord nbits w).cfg = s.cfg := rfl
@[simp] theorem withFetchWord_link (s : State) (nbits w : Nat) : (s.withFetchWord nbits w).link = s.link := rfl
@[simp] theorem withFetchWord_en (s : State) (nbits w : Nat) : (s.withFetchWord nbits w).en = s.en := rfl
@[simp] theorem withFetchWord_ai (s : State) (nbits w : Nat) : (s.withFetchWord nbits w).ai = s.ai := rfl
@[simp] theorem withFetchWord_addr (s : State) (nbits w : Nat) : (s.withFetchWord nbits w).addr = s.addr := rfl
@[simp] theorem withFetchWord_cs (s : State) (nbits w : Nat) : (s.withFetchWord nbits w).cs = s.cs := rfl
@[simp] theorem withFetchWord_fdiv (s : State) (nbits w : Nat) : (s.withFetchWord nbits w).fdiv = s.fdiv := rfl
@[simp] theorem withFetchWord_tx (s : State) (nbits w : Nat) : (s.withFetchWord nbits w).tx = s.tx := rfl
@[simp] theorem withFetchWord_rx (s : State) (nbits w : Nat) : (s.withFetchWord nbits w).rx = s.rx := rfl
@[simp] theorem withFetchWord_opens (s : State) (nbits w : Nat) : (s.withFetchWord nbits w).opens = s.opens := rfl
@[simp] theorem withFetchWord_draws (s : State) (nbits w : Nat) : (s.withFetchWord nbits w).draws = s.draws := rfl
@[simp] theorem withFetchWord_requests (s : State) (nbits w : Nat) : (s.withFetchWord nbits w).requests = tableSubmission nbits w :: s.requests := rfl
@[simp] theorem withFetchWord_results (s : State) (nbits w : Nat) : (s.withFetchWord nbits w).results = s.results := rfl

end Sys2Proof.Machine
end

