-- ==== Sys2Proof/Laws/Sequencing.lean ====
section
/-! SUPPORT. What sequencing does, once: `andThen` by the outcome of its first part, `answer` by the outcome of the
operation, the cleanups by both outcomes (60_exceptions.md R339, R340, R346). -/

namespace Sys2Proof.Machine

section
variable {α β : Type}

theorem andThen_ok {m : Op α} {k : α → Op β} {s t : State} {a : α} (h : m s = (.ok a, t)) :
    andThen m k s = k a t := by simp only [andThen, h]

theorem andThen_error {m : Op α} {k : α → Op β} {s t : State} {e : ErrorRecord} (h : m s = (.error e, t)) :
    andThen m k s = (.error e, t) := by simp only [andThen, h]

/-- Everything `andThen` can do. -/
theorem andThen_cases (m : Op α) (k : α → Op β) (s : State) :
    (∃ a t, m s = (.ok a, t) ∧ andThen m k s = k a t) ∨
      (∃ e t, m s = (.error e, t) ∧ andThen m k s = (.error e, t)) := by
  rcases h : m s with ⟨r, t⟩
  cases r with
  | ok a => exact .inl ⟨a, t, rfl, andThen_ok h⟩
  | error e => exact .inr ⟨e, t, rfl, andThen_error h⟩

@[simp] theorem done_apply (a : α) (s : State) : done a s = (.ok a, s) := rfl

@[simp] theorem raise_apply (e : ErrorRecord) (s : State) : (raise e : Op α) s = (.error e, s) := rfl

@[simp] theorem update_apply (f : State → State) (s : State) : update f s = (.ok (), f s) := rfl

@[simp] theorem withState_apply (f : State → Op α) (s : State) : withState f s = f s s := rfl

@[simp] theorem computed_apply (r : Except ErrorRecord α) (s : State) : computed r s = (r, s) := rfl

@[simp] theorem firstError_error (e : ErrorRecord) (d : Except ErrorRecord Unit) :
    firstError (.error e : Except ErrorRecord α) d = .error e := by cases d <;> rfl

@[simp] theorem firstError_ok (a : α) : firstError (.ok a) (.ok ()) = .ok a := rfl

@[simp] theorem firstError_cleanup (a : α) (e : ErrorRecord) : firstError (.ok a) (.error e) = .error e := rfl

theorem mapValue_ok {f : α → β} {m : Op α} {s t : State} {a : α} (h : m s = (.ok a, t)) :
    mapValue f m s = (.ok (f a), t) := by simp only [mapValue, andThen_ok h, done_apply]

theorem mapValue_error {f : α → β} {m : Op α} {s t : State} {e : ErrorRecord} (h : m s = (.error e, t)) :
    mapValue f m s = (.error e, t) := by simp only [mapValue, andThen_error h]

theorem withCleanup_apply {m : Op α} {c : Op Unit} {s t u : State} {r : Except ErrorRecord α}
    {d : Except ErrorRecord Unit} (h : m s = (r, t)) (hc : c t = (d, u)) :
    withCleanup m c s = (firstError r d, u) := by simp only [withCleanup, h, hc]

/-- After an error of the main part the cleanup's outcome is discarded (60_exceptions.md R346). -/
theorem withCleanup_error {m : Op α} {c : Op Unit} {s t : State} {e : ErrorRecord} (h : m s = (.error e, t)) :
    withCleanup m c s = (.error e, (c t).2) := by
  rw [withCleanup_apply h (Prod.eta (c t)).symm, firstError_error]

theorem answer_ok {f : α → Value} {m : Op α} {s t : State} {a : α} (h : m s = (.ok a, t)) :
    answer f m s = .next (deliver (.ok (f a)) t) := by simp only [answer, h]

theorem answer_error {f : α → Value} {m : Op α} {s t : State} {e : ErrorRecord} (h : m s = (.error e, t)) :
    answer f m s = .next (deliver (.err e) t) := by simp only [answer, h]

/-- Everything a performed request can do: it always answers a next state, with one result delivered. -/
theorem answer_cases (f : α → Value) (m : Op α) (s : State) :
    (∃ a t, m s = (.ok a, t) ∧ answer f m s = .next (deliver (.ok (f a)) t)) ∨
      (∃ e t, m s = (.error e, t) ∧ answer f m s = .next (deliver (.err e) t)) := by
  rcases h : m s with ⟨r, t⟩
  cases r with
  | ok a => exact .inl ⟨a, t, rfl, answer_ok h⟩
  | error e => exact .inr ⟨e, t, rfl, answer_error h⟩

end

theorem requireLink_opened {op : OpName} {s : State} (h : s.link = .opened) : requireLink op s = (.ok (), s) := by
  simp only [requireLink, h]

theorem requireLink_closed {op : OpName} {s : State} (h : s.link = .closed) :
    requireLink op s = (.error (.state op .linkOpen), s) := by simp only [requireLink, h]

theorem requireOpenEnabled_ok {op : OpName} {s : State} (h : s.link = .opened) (he : s.en = true) :
    requireOpenEnabled op s = (.ok (), s) := by
  simp only [requireOpenEnabled, andThen_ok (requireLink_opened h), requireEnabled, he, if_true]

theorem requireOpenEnabled_closed {op : OpName} {s : State} (h : s.link = .closed) :
    requireOpenEnabled op s = (.error (.state op .linkOpen), s) := andThen_error (requireLink_closed h)

theorem requireOpenEnabled_disabled {op : OpName} {s : State} (h : s.link = .opened) (he : s.en = false) :
    requireOpenEnabled op s = (.error (.state op .enabled), s) := by
  simp only [requireOpenEnabled, andThen_ok (requireLink_opened h), requireEnabled, he]
  rfl

theorem requireRange_ok {p : Param} {v lo hi : Int} {s : State} (h : lo ≤ v ∧ v ≤ hi) :
    requireRange p v lo hi s = (.ok (), s) := if_pos h

theorem requireRange_error {p : Param} {v lo hi : Int} {s : State} (h : ¬ (lo ≤ v ∧ v ≤ hi)) :
    requireRange p v lo hi s = (.error (.range p (Rat.ofInt v)), s) := if_neg h

end Sys2Proof.Machine
end

