-- ==== Sys2Proof/Laws/Transport.lean ====
section
/-! SUPPORT. What the transport primitives and the exchange do for a known reply (40_framing_codec.md R131, R134): the
reply consumed and matched, the reply consumed and not matched, the reply short. -/

namespace Sys2Proof.Machine

@[simp] theorem arrivals_nil : arrivals [] = [] := rfl

@[simp] theorem arrivals_cons (b : Byte) (bs : List Byte) : arrivals (b :: bs) = .byte b :: arrivals bs := rfl

@[simp] theorem arrivals_append (as bs : List Byte) : arrivals (as ++ bs) = arrivals as ++ arrivals bs :=
  List.map_append

theorem nextRx_cons {s : State} {e : RxEvent} {rest : List RxEvent} (h : s.rx = e :: rest) :
    nextRx s = (e, { s with rx := rest }) := by simp only [nextRx, h]

/-- Bytes that are there are received. -/
theorem recvUpTo_arrivals (bs : List Byte) (s : State) (rest : List RxEvent) (h : s.rx = arrivals bs ++ rest) :
    recvUpTo bs.length s = (bs, { s with rx := rest }) := by
  induction bs generalizing s with
  | nil => cases s; cases h; rfl
  | cons b bs ih =>
    have h1 : s.rx = .byte b :: (arrivals bs ++ rest) := h
    simp only [List.length_cons, recvUpTo, nextRx_cons h1]
    rw [ih _ rfl]

/-- A timeout ends the receiving. -/
theorem recvUpTo_short (bs : List Byte) (s : State) (rest : List RxEvent) (n : Nat)
    (h : s.rx = arrivals bs ++ .timeout :: rest) (hn : bs.length < n) :
    recvUpTo n s = (bs, { s with rx := rest }) := by
  induction bs generalizing s n with
  | nil =>
    obtain ⟨m, rfl⟩ : ∃ m, n = m + 1 := ⟨n - 1, by simp at hn; omega⟩
    have h1 : s.rx = .timeout :: rest := h
    simp only [recvUpTo, nextRx_cons h1]
  | cons b bs ih =>
    obtain ⟨m, rfl⟩ : ∃ m, n = m + 1 := ⟨n - 1, by simp at hn; omega⟩
    have h1 : s.rx = .byte b :: (arrivals bs ++ .timeout :: rest) := h
    simp only [recvUpTo, nextRx_cons h1]
    rw [ih _ m rfl (by simpa using hn)]

theorem recvUpTo_length_le (n : Nat) (s : State) : (recvUpTo n s).1.length ≤ n := by
  induction n generalizing s with
  | zero => simp [recvUpTo]
  | succ n ih =>
    rcases h : nextRx s with ⟨e, t⟩
    cases e with
    | byte b => simpa [recvUpTo, h] using ih t
    | timeout => simp [recvUpTo, h]

theorem recvExact_ok {bs : List Byte} {s : State} {rest : List RxEvent} {n : Nat} (h : s.rx = arrivals bs ++ rest)
    (hn : bs.length = n) : recvExact n s = (.ok bs, { s with rx := rest }) := by
  subst hn
  simp only [recvExact, recvUpTo_arrivals bs s rest h, if_true]

theorem recvExact_short {bs : List Byte} {s : State} {rest : List RxEvent} {n : Nat}
    (h : s.rx = arrivals bs ++ .timeout :: rest) (hn : bs.length < n) :
    recvExact n s = (.error (.transport n bs), { s with rx := rest }) := by
  simp only [recvExact, recvUpTo_short bs s rest n h hn, if_neg (Nat.ne_of_lt hn)]

theorem matchPattern_length {pat : Pattern} {bs : List Byte} (h : matchPattern pat bs = true) :
    bs.length = pat.length := by
  induction pat generalizing bs with
  | nil => cases bs with
    | nil => rfl
    | cons b bs => simp [matchPattern] at h
  | cons e es ih => cases bs with
    | nil => simp [matchPattern] at h
    | cons b bs =>
      simp only [matchPattern, Bool.and_eq_true] at h
      simp [ih h.2]

@[simp] theorem matchPattern_fixAll (bs : List Byte) : matchPattern (fixAll bs) bs = true := by
  induction bs with
  | nil => rfl
  | cons b bs ih => simpa [fixAll, matchPattern, elemAccepts] using ih

@[simp] theorem matchPattern_capAll (bs : List Byte) : matchPattern (capAll bs.length) bs = true := by
  induction bs with
  | nil => rfl
  | cons b bs ih => simpa [capAll, List.replicate_succ, matchPattern, elemAccepts] using ih

@[simp] theorem captures_capAll (bs : List Byte) : captures (capAll bs.length) bs = bs := by
  induction bs with
  | nil => rfl
  | cons b bs ih => simpa [capAll, List.replicate_succ, captures] using ih

/-- An exchange whose reply arrives and matches (40_framing_codec.md R134). -/
theorem expect_ok {packet : List Byte} {pat : Pattern} {n : Nat} {ctx : Context} {s : State} {bs : List Byte}
    {rest : List RxEvent} (h : s.rx = arrivals bs ++ rest) (hn : bs.length = n) (hm : matchPattern pat bs = true) :
    expect packet pat n ctx s = (.ok (captures pat bs), { s with tx := s.tx ++ packet, rx := rest }) := by
  have h1 : recvExact n { s with tx := s.tx ++ packet } =
      (.ok bs, { s with tx := s.tx ++ packet, rx := rest }) := recvExact_ok h hn
  simp only [expect, send, andThen_ok (update_apply _ s), andThen_ok h1, hm, if_true, done_apply]

/-- An exchange whose reply arrives and does not match (40_framing_codec.md R134). -/
theorem expect_mismatch {packet : List Byte} {pat : Pattern} {n : Nat} {ctx : Context} {s : State} {bs : List Byte}
    {rest : List RxEvent} (h : s.rx = arrivals bs ++ rest) (hn : bs.length = n) (hm : matchPattern pat bs = false) :
    expect packet pat n ctx s = (.error (.protocol pat n bs ctx), { s with tx := s.tx ++ packet, rx := rest }) := by
  have h1 : recvExact n { s with tx := s.tx ++ packet } =
      (.ok bs, { s with tx := s.tx ++ packet, rx := rest }) := recvExact_ok h hn
  simp only [expect, send, andThen_ok (update_apply _ s), andThen_ok h1, hm]
  rfl

/-- An exchange whose reply is short (40_framing_codec.md R131, R134). -/
theorem expect_short {packet : List Byte} {pat : Pattern} {n : Nat} {ctx : Context} {s : State} {bs : List Byte}
    {rest : List RxEvent} (h : s.rx = arrivals bs ++ .timeout :: rest) (hn : bs.length < n) :
    expect packet pat n ctx s = (.error (.transport n bs), { s with tx := s.tx ++ packet, rx := rest }) := by
  have h1 : recvExact n { s with tx := s.tx ++ packet } =
      (.error (.transport n bs), { s with tx := s.tx ++ packet, rx := rest }) := recvExact_short h hn
  simp only [expect, send, andThen_ok (update_apply _ s), andThen_error h1]

/-- A reply that is the echo or acknowledgement the pattern fixes. -/
theorem expect_fixAll {packet reply : List Byte} {n : Nat} {ctx : Context} {s : State} {rest : List RxEvent}
    (h : s.rx = arrivals reply ++ rest) (hn : reply.length = n) :
    discard (expect packet (fixAll reply) n ctx) s = (.ok (), { s with tx := s.tx ++ packet, rx := rest }) :=
  mapValue_ok (expect_ok h hn (matchPattern_fixAll reply))

theorem xCfgWr_ok {cfg : Byte} {s : State} {rest : List RxEvent} (h : s.rx = arrivals cfgWrAckPacket ++ rest) :
    xCfgWr cfg s = (.ok (), { s with tx := s.tx ++ cfgWrPacket cfg, rx := rest }) := expect_fixAll h rfl

theorem xSetAddr_ok {a : Addr} {s : State} {rest : List RxEvent} (h : s.rx = arrivals (setAddrAckPacket a) ++ rest) :
    xSetAddr a s = (.ok (), { s with tx := s.tx ++ setAddrPacket a, rx := rest }) := expect_fixAll h rfl

theorem xRdHdr_ok {n : Byte} {s : State} {rest : List RxEvent} (h : s.rx = arrivals rdAckPacket ++ rest) :
    xRdHdr n s = (.ok (), { s with tx := s.tx ++ rdPacket n, rx := rest }) := expect_fixAll h rfl

theorem xWrHdr_ok {n : Byte} {s : State} {rest : List RxEvent} (h : s.rx = arrivals wrAckPacket ++ rest) :
    xWrHdr n s = (.ok (), { s with tx := s.tx ++ wrPacket n, rx := rest }) := expect_fixAll h rfl

theorem xWrData_ok {bs : List Byte} {s : State} {rest : List RxEvent} (h : s.rx = arrivals bs ++ rest) :
    xWrData bs s = (.ok (), { s with tx := s.tx ++ bs, rx := rest }) := expect_fixAll h rfl

theorem xRdData_ok {bs : List Byte} {s : State} {rest : List RxEvent} {k : Nat} (h : s.rx = arrivals bs ++ rest)
    (hk : bs.length = k) : xRdData k s = (.ok bs, { s with rx := rest }) := by
  subst hk
  have h1 := expect_ok (packet := []) (ctx := .rdData) h rfl (matchPattern_capAll bs)
  simpa only [xRdData, captures_capAll, List.append_nil] using h1

theorem xCfgRd_ok {c : Byte} {s : State} {rest : List RxEvent} (h : s.rx = arrivals [0x03, c] ++ rest) :
    xCfgRd s = (.ok c, { s with tx := s.tx ++ cfgRdPacket, rx := rest }) := by
  have h1 := expect_ok (packet := cfgRdPacket) (pat := [.fix 0x03, .cap]) (n := 2) (ctx := .cfgRd) h rfl rfl
  have h2 := mapValue_ok (f := fun c : List Byte => c.headD 0) h1
  exact h2

/-- Everything the receiving of `n` bytes can do (40_framing_codec.md R131): `n` bytes are received, or fewer and the
operation ends with TransportError; in both cases only RX and the counter of draws move. -/
theorem recvExact_cases (n : Nat) (s : State) :
    ∃ bs t, t = { s with rx := t.rx, draws := t.draws } ∧ t.rx <:+ s.rx ∧
      ((bs.length = n ∧ recvExact n s = (.ok bs, t)) ∨
        (bs.length < n ∧ recvExact n s = (.error (.transport n bs), t))) := by
  have key : ∀ (n : Nat) (s : State), (recvUpTo n s).2 =
      { s with rx := (recvUpTo n s).2.rx, draws := (recvUpTo n s).2.draws } ∧ (recvUpTo n s).2.rx <:+ s.rx := by
    intro n
    induction n with
    | zero => intro s; exact ⟨rfl, List.suffix_refl _⟩
    | succ n ih =>
      intro s
      obtain ⟨_, _, _, _, _, _, _, _, rx, _, draws, _, _⟩ := s
      rcases rx with _ | ⟨_ | _, rest⟩
      · simp only [recvUpTo, nextRx]
        rcases Config.rxDraw draws with b | _
        · exact ih _
        · exact ⟨rfl, List.suffix_refl _⟩
      · exact ⟨(ih _).1, (ih _).2.trans (List.suffix_cons _ _)⟩
      · exact ⟨rfl, List.suffix_cons _ _⟩
  refine ⟨(recvUpTo n s).1, (recvUpTo n s).2, (key n s).1, (key n s).2, ?_⟩
  rcases Nat.lt_or_eq_of_le (recvUpTo_length_le n s) with h | h
  · exact .inr ⟨h, by simp only [recvExact, if_neg (Nat.ne_of_lt h)]⟩
  · exact .inl ⟨h, by simp only [recvExact, h, if_true]⟩

/-- Everything an exchange can do (40_framing_codec.md R134): the packet is transmitted; then the captures are returned,
or the reply was short, or it did not match. Only TX, RX and the counter of draws move. -/
theorem expect_cases (packet : List Byte) (pat : Pattern) (n : Nat) (ctx : Context) (s : State) :
    ∃ bs t, t = { s with tx := s.tx ++ packet, rx := t.rx, draws := t.draws } ∧ t.rx <:+ s.rx ∧
      ((bs.length = n ∧ matchPattern pat bs = true ∧ expect packet pat n ctx s = (.ok (captures pat bs), t)) ∨
        (bs.length = n ∧ matchPattern pat bs = false ∧
          expect packet pat n ctx s = (.error (.protocol pat n bs ctx), t)) ∨
        (bs.length < n ∧ expect packet pat n ctx s = (.error (.transport n bs), t))) := by
  obtain ⟨bs, t, ht, hs, h⟩ := recvExact_cases n { s with tx := s.tx ++ packet }
  refine ⟨bs, t, ht, hs, ?_⟩
  rcases h with ⟨hl, h⟩ | ⟨hl, h⟩
  · cases hm : matchPattern pat bs with
    | true =>
      exact .inl ⟨hl, rfl, by
        simp only [expect, send, andThen_ok (update_apply _ s), andThen_ok h, hm, if_true, done_apply]⟩
    | false =>
      exact .inr (.inl ⟨hl, rfl, by
        simp only [expect, send, andThen_ok (update_apply _ s), andThen_ok h, hm]; rfl⟩)
  · exact .inr (.inr ⟨hl, by simp only [expect, send, andThen_ok (update_apply _ s), andThen_error h]⟩)

end Sys2Proof.Machine
end

