-- ==== Sys2Proof/Laws/Chunks.lean ====
section
/-! SUPPORT. Chunking (40_framing_codec.md R136, R139): `scatter` one chunk at a time, its sizes, and its concatenation. -/

namespace Sys2Proof.Machine

variable {α : Type}

@[simp] theorem ceilDiv_zero {k : Nat} (hk : 1 ≤ k) : ceilDiv 0 k = 0 := Nat.div_eq_of_lt (by omega)

theorem ceilDiv_succ {n k : Nat} (hk : 1 ≤ k) (hn : 1 ≤ n) : ceilDiv n k = ceilDiv (n - k) k + 1 := by
  unfold ceilDiv
  rcases Nat.lt_or_ge n k with h | h
  · have h1 : n - k = 0 := by omega
    rw [h1, Nat.div_eq_of_lt (show 0 + k - 1 < k by omega), show n + k - 1 = n - 1 + k by omega,
      Nat.add_div_right _ (by omega), Nat.div_eq_of_lt (by omega)]
  · rw [show n + k - 1 = n - k + k - 1 + k by omega, Nat.add_div_right _ (by omega)]

theorem chunksOf_nil {k : Nat} (hk : 1 ≤ k) : chunksOf ([] : List α) k = [] := by
  simp [chunksOf, ceilDiv_zero hk]

/-- A non-empty list scattered: its first `k` elements, then the rest scattered. -/
theorem chunksOf_step {k : Nat} (hk : 1 ≤ k) {xs : List α} (hx : xs ≠ []) :
    chunksOf xs k = xs.take k :: chunksOf (xs.drop k) k := by
  have hl : 1 ≤ xs.length := List.length_pos_iff.mpr hx
  unfold chunksOf
  rw [ceilDiv_succ hk hl, List.range_succ_eq_map, List.length_drop]
  simp only [List.map_cons, List.map_map, Nat.zero_mul, List.drop_zero]
  congr 1
  apply List.map_congr_left
  intro i _
  simp only [Function.comp, List.drop_drop]
  rw [show k + i * k = (i + 1) * k by ring]

theorem chunkSizes_zero {k : Nat} (hk : 1 ≤ k) : chunkSizes 0 k = [] := by
  simp [chunkSizes, ceilDiv_zero hk]

theorem chunkSizes_step {n k : Nat} (hk : 1 ≤ k) (hn : 1 ≤ n) :
    chunkSizes n k = min k n :: chunkSizes (n - k) k := by
  unfold chunkSizes
  rw [ceilDiv_succ hk hn, List.range_succ_eq_map]
  simp only [List.map_cons, List.map_map, Nat.zero_mul, Nat.sub_zero]
  congr 1
  apply List.map_congr_left
  intro i _
  simp only [Function.comp, Nat.succ_eq_add_one, Nat.sub_sub]
  rw [show k + i * k = (i + 1) * k by ring]

/-- The induction over the chunks of a list. -/
theorem chunks_induction {k : Nat} (hk : 1 ≤ k) {P : List α → Prop} (nil : P [])
    (step : ∀ xs, xs ≠ [] → P (xs.drop k) → P xs) (xs : List α) : P xs := by
  induction h : xs.length using Nat.strong_induction_on generalizing xs with
  | _ n ih =>
    cases xs with
    | nil => exact nil
    | cons x xs => exact step _ (by simp) (ih _ (by simp at h ⊢; omega) _ rfl)

/-- The sizes are the lengths of the chunks (40_framing_codec.md R139). -/
theorem chunkSizes_length {k : Nat} (hk : 1 ≤ k) (xs : List α) :
    chunkSizes xs.length k = (chunksOf xs k).map List.length := by
  refine chunks_induction hk (P := fun xs => chunkSizes xs.length k = (chunksOf xs k).map List.length) ?_ ?_ xs
  · simp [chunksOf_nil hk, chunkSizes_zero hk]
  · intro xs hx ih
    rw [chunksOf_step hk hx, chunkSizes_step hk (List.length_pos_iff.mpr hx), List.map_cons, ← ih, List.length_take,
      List.length_drop]

/-- The chunks together are the list. -/
theorem chunksOf_flatten {k : Nat} (hk : 1 ≤ k) (xs : List α) : (chunksOf xs k).flatten = xs := by
  refine chunks_induction hk (P := fun xs => (chunksOf xs k).flatten = xs) (by rw [chunksOf_nil hk]; rfl) ?_ xs
  intro xs hx ih
  rw [chunksOf_step hk hx, List.flatten_cons, ih, List.take_append_drop]

/-- Every chunk has 1 to `k` elements. -/
theorem chunksOf_bound {k : Nat} (hk : 1 ≤ k) (xs : List α) : ∀ c ∈ chunksOf xs k, 1 ≤ c.length ∧ c.length ≤ k := by
  refine chunks_induction hk (P := fun xs => ∀ c ∈ chunksOf xs k, 1 ≤ c.length ∧ c.length ≤ k)
    (by rw [chunksOf_nil hk]; simp) ?_ xs
  intro xs hx ih c hc
  rw [chunksOf_step hk hx] at hc
  rcases List.mem_cons.mp hc with rfl | hc
  · have := List.length_pos_iff.mpr hx
    simp only [List.length_take]
    omega
  · exact ih c hc

/-- A list of one element is one chunk. -/
theorem chunksOf_singleton {k : Nat} (hk : 1 ≤ k) (x : α) : chunksOf [x] k = [[x]] := by
  obtain ⟨j, rfl⟩ : ∃ j, k = j + 1 := ⟨k - 1, by omega⟩
  rw [chunksOf_step hk (by simp)]
  simp [chunksOf_nil hk]

end Sys2Proof.Machine
end

