-- ==== Sys2Proof/Laws/Bursts.lean ====
section
/-! SUPPORT. The bursts, every exchange answered (40_framing_codec.md R147, R148). -/

namespace Sys2Proof.Machine

/-- The state after some bytes are transmitted, others received, and ADDR advanced by `k` when AI is set. -/
def after (s : State) (tx : List Byte) (rest : List RxEvent) (k : Nat) : State :=
  { s with addr := if s.ai then s.addr + BitVec.ofNat 16 k else s.addr, tx := s.tx ++ tx, rx := rest }

@[simp] theorem after_cfg (s : State) (tx : List Byte) (rest : List RxEvent) (k : Nat) :
    (after s tx rest k).cfg = s.cfg := rfl
@[simp] theorem after_link (s : State) (tx : List Byte) (rest : List RxEvent) (k : Nat) :
    (after s tx rest k).link = s.link := rfl
@[simp] theorem after_en (s : State) (tx : List Byte) (rest : List RxEvent) (k : Nat) :
    (after s tx rest k).en = s.en := rfl
@[simp] theorem after_ai (s : State) (tx : List Byte) (rest : List RxEvent) (k : Nat) :
    (after s tx rest k).ai = s.ai := rfl
@[simp] theorem after_rx (s : State) (tx : List Byte) (rest : List RxEvent) (k : Nat) :
    (after s tx rest k).rx = rest := rfl

theorem after_zero (s : State) : after s [] s.rx 0 = s := by
  cases s
  simp [after]

theorem after_after (s : State) (tx ty : List Byte) (r r' : List RxEvent) (j k : Nat) :
    after (after s tx r j) ty r' k = after s (tx ++ ty) r' (j + k) := by
  unfold after
  cases s.ai <;> simp [BitVec.ofNat_add, BitVec.add_assoc]

theorem advanceAddr_ok (k : Nat) (s : State) : advanceAddr k s = (.ok (), after s [] s.rx k) := by
  unfold advanceAddr after
  cases h : s.ai <;> cases s <;> simp_all

/-- The sub-packets of a burst, each echoed. -/
theorem writeSubPackets_ok (ps : List (List Byte)) (s : State) (rest : List RxEvent)
    (h : s.rx = arrivals ps.flatten ++ rest) :
    writeSubPackets ps s = (.ok (), after s ps.flatten rest ps.flatten.length) := by
  induction ps generalizing s with
  | nil =>
    have h1 : s.rx = rest := h
    rw [← h1]
    exact congrArg _ (after_zero s).symm
  | cons p ps ih =>
    have h1 : s.rx = arrivals p ++ (arrivals ps.flatten ++ rest) := by simpa using h
    rw [writeSubPackets, andThen_ok (xWrData_ok h1), andThen_ok (advanceAddr_ok _ _), ih _ rfl]
    refine Prod.ext rfl ?_
    simp only [List.flatten_cons, List.length_append]
    unfold after
    cases s.ai <;> simp [BitVec.ofNat_add, BitVec.add_assoc]

/-- A write burst: its header, then its bytes. -/
theorem writeBurst_ok {burst : List Byte} {s : State} {rest : List RxEvent} (hk : 1 ≤ s.cfg.subpkt)
    (h : s.rx = arrivals (wrAckPacket ++ burst) ++ rest) :
    writeBurst burst s =
      (.ok (), after s (wrPacket (lengthByte burst.length) ++ burst) rest burst.length) := by
  have h1 : s.rx = arrivals wrAckPacket ++ (arrivals burst ++ rest) := by simpa using h
  have hf := chunksOf_flatten hk burst
  rw [writeBurst, withState_apply, andThen_ok (xWrHdr_ok h1),
    writeSubPackets_ok _ _ rest (by rw [hf]), hf]
  refine Prod.ext rfl ?_
  unfold after
  simp [List.append_assoc]

theorem writeBursts_ok (bs : List (List Byte)) (s : State) (rest : List RxEvent) (hk : 1 ≤ s.cfg.subpkt)
    (h : s.rx = arrivals (bs.flatMap fun b => wrAckPacket ++ b) ++ rest) :
    writeBursts bs s =
      (.ok (), after s (bs.flatMap fun b => wrPacket (lengthByte b.length) ++ b) rest bs.flatten.length) := by
  induction bs generalizing s with
  | nil =>
    have h1 : s.rx = rest := h
    rw [← h1]
    exact congrArg _ (after_zero s).symm
  | cons b bs ih =>
    have h1 : s.rx = arrivals (wrAckPacket ++ b) ++ (arrivals (bs.flatMap fun b => wrAckPacket ++ b) ++ rest) := by
      rw [h, List.flatMap_cons, arrivals_append, List.append_assoc]
    rw [writeBursts, andThen_ok (writeBurst_ok hk h1), ih (after s _ _ _) hk rfl, after_after]
    simp only [List.flatMap_cons, List.flatten_cons, List.length_append]

/-- The sub-chunks of a read burst. -/
theorem readSubChunks_ok (cs : List (List Byte)) (out : List Byte) (s : State) (rest : List RxEvent)
    (h : s.rx = arrivals cs.flatten ++ rest) :
    readSubChunks (cs.map List.length) out s = (.ok (out ++ cs.flatten), after s [] rest cs.flatten.length) := by
  induction cs generalizing s out with
  | nil =>
    have h1 : s.rx = rest := h
    rw [← h1]
    simp [readSubChunks, after_zero]
  | cons c cs ih =>
    have h1 : s.rx = arrivals c ++ (arrivals cs.flatten ++ rest) := by simpa using h
    rw [List.map_cons, readSubChunks, andThen_ok (xRdData_ok h1 rfl), andThen_ok (advanceAddr_ok _ _), ih _ _ rfl]
    refine Prod.ext (by simp) ?_
    simp only [List.flatten_cons, List.length_append]
    unfold after
    cases s.ai <;> simp [BitVec.ofNat_add, BitVec.add_assoc]

/-- A read burst: its header, then its bytes. -/
theorem readBurst_ok {data : List Byte} {s : State} {rest : List RxEvent} (hk : 1 ≤ s.cfg.rxChunk)
    (h : s.rx = arrivals (rdAckPacket ++ data) ++ rest) :
    readBurst data.length s = (.ok data, after s (rdPacket (lengthByte data.length)) rest data.length) := by
  have h1 : s.rx = arrivals rdAckPacket ++ (arrivals data ++ rest) := by simpa using h
  have hf := chunksOf_flatten hk data
  rw [readBurst, withState_apply, andThen_ok (xRdHdr_ok h1), chunkSizes_length hk,
    readSubChunks_ok _ _ _ rest (by rw [hf]), hf]
  refine Prod.ext rfl ?_
  unfold after
  simp

theorem readBursts_ok (bs : List (List Byte)) (out : List Byte) (s : State) (rest : List RxEvent)
    (hk : 1 ≤ s.cfg.rxChunk) (h : s.rx = arrivals (bs.flatMap fun b => rdAckPacket ++ b) ++ rest) :
    readBursts (bs.map List.length) out s =
      (.ok (out ++ bs.flatten),
        after s (bs.flatMap fun b => rdPacket (lengthByte b.length)) rest bs.flatten.length) := by
  induction bs generalizing s out with
  | nil =>
    have h1 : s.rx = rest := h
    rw [← h1]
    simp [readBursts, after_zero]
  | cons b bs ih =>
    have h1 : s.rx = arrivals (rdAckPacket ++ b) ++ (arrivals (bs.flatMap fun b => rdAckPacket ++ b) ++ rest) := by
      rw [h, List.flatMap_cons, arrivals_append, List.append_assoc]
    rw [List.map_cons, readBursts, andThen_ok (readBurst_ok hk h1), ih _ (after s _ _ _) hk rfl, after_after]
    simp only [List.flatMap_cons, List.flatten_cons, List.length_append, List.append_assoc]

end Sys2Proof.Machine
end

