-- ==== Sys2Proof/Laws/Bridge.lean ====
section
/-! SUPPORT. The operations the SPI bridge and the SD engine are built from, every exchange answered (41_debug_core.md
R176, R177, R180, R181; 42_spi_bridge.md R213, R215; 43_sd_command.md R244, R245). -/

namespace Sys2Proof.Machine

/-- What an operation of the debug core needs to have its effect (60_exceptions.md R348, 00_scope.md R8). -/
structure Ready (s : State) : Prop where
  ok : configOk s.cfg = true
  link : s.link = .opened
  en : s.en = true

theorem configOk_bounds {c : Config} (h : configOk c = true) :
    1 ≤ c.subpkt ∧ c.subpkt ≤ c.maxBurst ∧ 1 ≤ c.rxChunk ∧ c.rxChunk ≤ c.maxBurst ∧ c.maxBurst ≤ 256 ∧
      1 ≤ c.ncrMax ∧ 1 ≤ c.fClk := by
  simpa [configOk, and_assoc] using h

theorem Ready.maxBurst {s : State} (h : Ready s) : 1 ≤ s.cfg.maxBurst := by
  have := configOk_bounds h.ok
  omega

theorem opEnableCore_ok {s : State} {rest : List RxEvent} (hl : s.link = .opened) (he : s.en = false)
    (hr : s.rx = arrivals cfgWrAckPacket ++ rest) :
    opEnableCore s = (.ok (), { s with en := true, tx := s.tx ++ cfgWrPacket (cfgByte true s.ai), rx := rest }) := by
  rw [opEnableCore, andThen_ok (requireLink_opened hl), withState_apply, he, if_neg (by simp), andThen_ok (xCfgWr_ok hr)]
  rfl

theorem opDisableCore_ok {s : State} {rest : List RxEvent} (hl : s.link = .opened) (he : s.en = true)
    (hr : s.rx = arrivals cfgWrAckPacket ++ rest) :
    opDisableCore s = (.ok (), { s with en := false, tx := s.tx ++ cfgWrPacket (cfgByte false s.ai), rx := rest }) := by
  rw [opDisableCore, andThen_ok (requireOpenEnabled_ok hl he), withState_apply, andThen_ok (xCfgWr_ok hr)]
  rfl

theorem opSetAutoIncrement_ok {flag : Bool} {s : State} {rest : List RxEvent} (h : Ready s)
    (hr : s.rx = arrivals cfgWrAckPacket ++ rest) :
    opSetAutoIncrement flag s =
      (.ok (), { s with ai := flag, tx := s.tx ++ cfgWrPacket (cfgByte true flag), rx := rest }) := by
  rw [opSetAutoIncrement, andThen_ok (requireOpenEnabled_ok h.link h.en), andThen_ok (xCfgWr_ok hr)]
  rfl

theorem opSetAddress_ok {a : Addr} {s : State} {rest : List RxEvent} (h : Ready s)
    (hr : s.rx = arrivals (setAddrAckPacket a) ++ rest) :
    opSetAddress a.toNat s = (.ok (), { s with addr := a, tx := s.tx ++ setAddrPacket a, rx := rest }) := by
  rw [opSetAddress, andThen_ok (requireRange_ok (by omega)), andThen_ok (requireOpenEnabled_ok h.link h.en),
    show BitVec.ofInt 16 (a.toNat : Int) = a by simp, andThen_ok (xSetAddr_ok hr)]
  rfl

theorem opWrite_ok {data : List Byte} {s : State} {rest : List RxEvent} (h : Ready s)
    (hr : s.rx = arrivals (writeRx s.cfg data) ++ rest) :
    opWrite data s = (.ok (), after s (writeTx s.cfg data) rest data.length) := by
  have hf := chunksOf_flatten h.maxBurst data
  rw [opWrite, andThen_ok (requireOpenEnabled_ok h.link h.en), withState_apply,
    writeBursts_ok _ _ rest (configOk_bounds h.ok).1 hr, hf]
  rfl

theorem opRead_ok {data : List Byte} {s : State} {rest : List RxEvent} (h : Ready s) (h1 : 1 ≤ data.length)
    (h2 : data.length ≤ 0xFFFF) (hr : s.rx = arrivals (readRx s.cfg data) ++ rest) :
    opRead data.length s = (.ok data, after s (readTx s.cfg data.length) rest data.length) := by
  have hf := chunksOf_flatten h.maxBurst data
  have ht : readTx s.cfg data.length =
      (chunksOf data s.cfg.maxBurst).flatMap fun b => rdPacket (lengthByte b.length) := by
    rw [readTx, chunkSizes_length h.maxBurst, List.flatMap_map]
  rw [opRead, andThen_ok (requireRange_ok (by omega)), andThen_ok (requireOpenEnabled_ok h.link h.en), withState_apply,
    Int.toNat_natCast, chunkSizes_length h.maxBurst, readBursts_ok _ _ _ rest (configOk_bounds h.ok).2.2.1 hr, hf, ht]
  rfl

theorem writeTx_singleton {c : Config} (h : 1 ≤ c.maxBurst) (b : Byte) : writeTx c [b] = wrPacket 0 ++ [b] := by
  rw [writeTx, chunksOf_singleton h]
  rfl

theorem writeRx_singleton {c : Config} (h : 1 ≤ c.maxBurst) (b : Byte) : writeRx c [b] = wrAckPacket ++ [b] := by
  rw [writeRx, chunksOf_singleton h]
  rfl

theorem readTx_one {c : Config} (h : 1 ≤ c.maxBurst) : readTx c 1 = rdPacket 0 := by
  rw [readTx, chunkSizes_step h (by omega), Nat.min_eq_right h, Nat.sub_eq_zero_of_le h, chunkSizes_zero h]
  rfl

theorem readRx_singleton {c : Config} (h : 1 ≤ c.maxBurst) (b : Byte) : readRx c [b] = rdAckPacket ++ [b] := by
  rw [readRx, chunksOf_singleton h]
  rfl

theorem opWrite_byte {b : Byte} {s : State} {rest : List RxEvent} (h : Ready s)
    (hr : s.rx = arrivals (wrAckPacket ++ [b]) ++ rest) :
    opWrite [b] s = (.ok (), after s (wrPacket 0 ++ [b]) rest 1) := by
  rw [opWrite_ok h (by rw [writeRx_singleton h.maxBurst]; exact hr), writeTx_singleton h.maxBurst]
  rfl

theorem opRead_byte {b : Byte} {s : State} {rest : List RxEvent} (h : Ready s)
    (hr : s.rx = arrivals (rdAckPacket ++ [b]) ++ rest) :
    opRead 1 s = (.ok [b], after s (rdPacket 0) rest 1) := by
  have h1 := opRead_ok (data := [b]) h (by simp) (by simp) (by rw [readRx_singleton h.maxBurst]; exact hr)
  simpa only [List.length_singleton, readTx_one h.maxBurst, Nat.cast_one] using h1

/-- SPI_SELECT answered (42_spi_bridge.md R213). -/
theorem opSpiSelect_ok {target : Target} {s : State} {rest : List RxEvent} (h : Ready s)
    (hr : s.rx = arrivals (selectRx s.cfg target) ++ rest) :
    opSpiSelect target s =
      (.ok (), { s with ai := false, addr := s.cfg.spiCsAddr, cs := .known target, tx := s.tx ++ selectTx s.cfg target,
                        rx := rest }) := by
  let m := csMaskOf s.cfg.csMask target
  let r2 := arrivals (wrAckPacket ++ [m]) ++ rest
  let r1 := arrivals (setAddrAckPacket s.cfg.spiCsAddr) ++ r2
  have h1 : s.rx = arrivals cfgWrAckPacket ++ r1 := by
    rw [hr]
    simp only [selectRx, registerRx, arrivals_append, List.append_assoc, r1, r2, m]
  let s1 : State := { s with ai := false, tx := s.tx ++ cfgWrPacket (cfgByte true false), rx := r1 }
  have k1 : Ready s1 := ⟨h.ok, h.link, h.en⟩
  let s2 : State := { s1 with addr := s.cfg.spiCsAddr, tx := s1.tx ++ setAddrPacket s.cfg.spiCsAddr, rx := r2 }
  have k2 : Ready s2 := ⟨h.ok, h.link, h.en⟩
  have e1 : opSetAutoIncrement false s = (.ok (), s1) := opSetAutoIncrement_ok h h1
  have e2 : opSetAddress s.cfg.spiCsAddr.toNat s1 = (.ok (), s2) := opSetAddress_ok k1 rfl
  have e3 : opWrite [m] s2 = (.ok (), after s2 (wrPacket 0 ++ [m]) rest 1) := opWrite_byte k2 rfl
  rw [opSpiSelect, andThen_ok (requireOpenEnabled_ok h.link h.en), withState_apply, andThen_ok e1, andThen_ok e2,
    andThen_ok e3, update_apply]
  simp [after, s2, s1, selectTx, registerTx, m]

/-- One byte exchange answered (42_spi_bridge.md R215). -/
theorem spiExchange_ok {b r : Byte} {s : State} {rest : List RxEvent} (h : Ready s)
    (hr : s.rx = arrivals (registerRx s.cfg.spiDataAddr b ++ rdAckPacket ++ [r]) ++ rest) :
    spiExchange b s =
      (.ok [r], { s with addr := if s.ai then s.cfg.spiDataAddr + 2 else s.cfg.spiDataAddr,
                         tx := s.tx ++ (registerTx s.cfg.spiDataAddr b ++ rdPacket 0), rx := rest }) := by
  let r2 := arrivals (rdAckPacket ++ [r]) ++ rest
  let r1 := arrivals (wrAckPacket ++ [b]) ++ r2
  have h1 : s.rx = arrivals (setAddrAckPacket s.cfg.spiDataAddr) ++ r1 := by
    rw [hr]
    simp only [registerRx, arrivals_append, List.append_assoc, r1, r2]
  let s1 : State := { s with addr := s.cfg.spiDataAddr, tx := s.tx ++ setAddrPacket s.cfg.spiDataAddr, rx := r1 }
  have k1 : Ready s1 := ⟨h.ok, h.link, h.en⟩
  let s2 : State := after s1 (wrPacket 0 ++ [b]) r2 1
  have k2 : Ready s2 := ⟨h.ok, h.link, h.en⟩
  have e1 : opSetAddress s.cfg.spiDataAddr.toNat s = (.ok (), s1) := opSetAddress_ok h h1
  have e2 : opWrite [b] s1 = (.ok (), s2) := opWrite_byte k1 rfl
  have e3 : opRead 1 s2 = (.ok [r], after s2 (rdPacket 0) rest 1) := opRead_byte k2 rfl
  rw [spiExchange, withState_apply, andThen_ok e1, andThen_ok e2, e3]
  cases ha : s.ai <;> simp [after, s2, s1, registerTx, ha, BitVec.add_assoc]

/-- Where ADDR is after some byte exchanges. -/
def exchangedAddr (s : State) (n : Nat) : Addr :=
  if n = 0 then s.addr else if s.ai then s.cfg.spiDataAddr + 2 else s.cfg.spiDataAddr

/-- The byte exchanges of SPI_WRITE_READ answered (42_spi_bridge.md R215). -/
theorem spiExchanges_ok (pairs : List (Byte × Byte)) (out : List Byte) (s : State) (rest : List RxEvent) (h : Ready s)
    (hr : s.rx = arrivals (exchangesRx s.cfg pairs) ++ rest) :
    spiExchanges (pairs.map Prod.fst) out s =
      (.ok (out ++ pairs.map Prod.snd), { s with addr := exchangedAddr s pairs.length,
                                                 tx := s.tx ++ exchangesTx s.cfg (pairs.map Prod.fst),
                                                 rx := rest }) := by
  induction pairs generalizing s out with
  | nil =>
    have h1 : s.rx = rest := hr
    rw [← h1]
    simp [spiExchanges, exchangesTx, exchangedAddr]
  | cons p pairs ih =>
    let r1 := arrivals (exchangesRx s.cfg pairs) ++ rest
    have h1 : s.rx = arrivals (registerRx s.cfg.spiDataAddr p.1 ++ rdAckPacket ++ [p.2]) ++ r1 := by
      rw [hr, exchangesRx, List.flatMap_cons, arrivals_append, List.append_assoc]
      rfl
    let s1 : State := { s with addr := if s.ai then s.cfg.spiDataAddr + 2 else s.cfg.spiDataAddr,
                               tx := s.tx ++ (registerTx s.cfg.spiDataAddr p.1 ++ rdPacket 0), rx := r1 }
    have k1 : Ready s1 := ⟨h.ok, h.link, h.en⟩
    have e1 : spiExchange p.1 s = (.ok [p.2], s1) := spiExchange_ok h h1
    rw [List.map_cons, spiExchanges, andThen_ok e1, ih _ s1 k1 rfl]
    have ha : exchangedAddr s1 pairs.length = exchangedAddr s (p :: pairs).length := by
      cases pairs <;> simp [exchangedAddr, s1]
    rw [ha]
    simp [s1, exchangesTx]

theorem opSpiWriteRead_ok (pairs : List (Byte × Byte)) (s : State) (rest : List RxEvent) (h : Ready s)
    (hr : s.rx = arrivals (exchangesRx s.cfg pairs) ++ rest) :
    opSpiWriteRead (pairs.map Prod.fst) s =
      (.ok (pairs.map Prod.snd), { s with addr := exchangedAddr s pairs.length,
                                          tx := s.tx ++ exchangesTx s.cfg (pairs.map Prod.fst), rx := rest }) := by
  rw [opSpiWriteRead, andThen_ok (requireOpenEnabled_ok h.link h.en), spiExchanges_ok _ _ _ _ h hr, List.nil_append]

theorem opSpiWrite_ok (pairs : List (Byte × Byte)) (s : State) (rest : List RxEvent) (h : Ready s)
    (hr : s.rx = arrivals (exchangesRx s.cfg pairs) ++ rest) :
    opSpiWrite (pairs.map Prod.fst) s =
      (.ok (), { s with addr := exchangedAddr s pairs.length, tx := s.tx ++ exchangesTx s.cfg (pairs.map Prod.fst),
                        rx := rest }) := mapValue_ok (opSpiWriteRead_ok pairs s rest h hr)

/-! ### Inside an SD command -/

/-- Ready, and with AI off, as a select leaves it. -/
structure Selected (s : State) : Prop where
  ready : Ready s
  ai : s.ai = false

/-- The state after `n` byte exchanges with AI off. -/
def exchanged (s : State) (n : Nat) (tx : List Byte) (rest : List RxEvent) : State :=
  { s with addr := if n = 0 then s.addr else s.cfg.spiDataAddr, tx := s.tx ++ tx, rx := rest }

@[simp] theorem exchanged_cfg (s : State) (n : Nat) (tx : List Byte) (rest : List RxEvent) :
    (exchanged s n tx rest).cfg = s.cfg := rfl

theorem exchanged_selected {s : State} (h : Selected s) (n : Nat) (tx : List Byte) (rest : List RxEvent) :
    Selected (exchanged s n tx rest) := ⟨⟨h.ready.ok, h.ready.link, h.ready.en⟩, h.ai⟩

theorem exchanged_exchanged (s : State) (m n : Nat) (tx ty : List Byte) (r r' : List RxEvent) :
    exchanged (exchanged s m tx r) n ty r' = exchanged s (m + n) (tx ++ ty) r' := by
  unfold exchanged
  by_cases hm : m = 0 <;> by_cases hn : n = 0 <;> simp [hm, hn]

theorem exchanged_zero (s : State) : exchanged s 0 [] s.rx = s := by
  cases s
  simp [exchanged]

theorem dummyRx_cons (c : Config) (b : Byte) (bs : List Byte) :
    dummyRx c (b :: bs) = registerRx c.spiDataAddr c.dummy ++ rdAckPacket ++ [b] ++ dummyRx c bs := by
  simp [dummyRx, dummies, exchangesRx, List.replicate_succ]

theorem exchangesTx_dummies_cons (c : Config) (b : Byte) (bs : List Byte) :
    exchangesTx c (dummies c (b :: bs)) =
      registerTx c.spiDataAddr c.dummy ++ rdPacket 0 ++ exchangesTx c (dummies c bs) := by
  simp [dummies, exchangesTx, List.replicate_succ]

/-- One dummy byte clocked (43_sd_command.md R244). -/
theorem clockDummy_ok {b : Byte} {s : State} {rest : List RxEvent} (h : Selected s)
    (hr : s.rx = arrivals (registerRx s.cfg.spiDataAddr s.cfg.dummy ++ rdAckPacket ++ [b]) ++ rest) :
    clockDummy s = (.ok b, exchanged s 1 (registerTx s.cfg.spiDataAddr s.cfg.dummy ++ rdPacket 0) rest) := by
  have h1 := opSpiWriteRead_ok [(s.cfg.dummy, b)] s rest h.ready (by rw [hr]; simp [exchangesRx])
  rw [clockDummy, withState_apply]
  have h2 := mapValue_ok (f := fun bs : List Byte => bs.headD 0) h1
  simpa [exchanged, exchangedAddr, h.ai, exchangesTx] using h2

theorem readExtension_ok (miso ext : List Byte) (s : State) (rest : List RxEvent) (h : Selected s)
    (hr : s.rx = arrivals (dummyRx s.cfg miso) ++ rest) :
    readExtension miso.length ext s =
      (.ok (ext ++ miso), exchanged s miso.length (exchangesTx s.cfg (dummies s.cfg miso)) rest) := by
  induction miso generalizing s ext with
  | nil =>
    have h1 : s.rx = rest := hr
    rw [← h1]
    simp [readExtension, exchangesTx, dummies, exchanged_zero]
  | cons b bs ih =>
    rw [dummyRx_cons, arrivals_append, List.append_assoc] at hr
    rw [List.length_cons, readExtension, andThen_ok (clockDummy_ok h hr),
      ih _ (exchanged s _ _ _) (exchanged_selected h ..) rfl, exchanged_exchanged, exchangesTx_dummies_cons,
      Nat.add_comm 1]
    simp [exchanged]

/-- A poll answered with a token (43_sd_command.md R244). -/
theorem pollToken_ok (n : Nat) (pre raw : List Byte) (tok : Byte) (s : State) (rest : List RxEvent) (h : Selected s)
    (hn : pre.length < n) (hpre : ∀ b ∈ pre, b.getLsbD 7 = true) (htok : tok.getLsbD 7 = false)
    (hr : s.rx = arrivals (dummyRx s.cfg (pre ++ [tok])) ++ rest) :
    pollToken n raw s =
      (.ok (some tok, raw ++ pre ++ [tok]),
        exchanged s (pre.length + 1) (exchangesTx s.cfg (dummies s.cfg (pre ++ [tok]))) rest) := by
  induction pre generalizing s raw n with
  | nil =>
    obtain ⟨m, rfl⟩ : ∃ m, n = m + 1 := ⟨n - 1, by simp at hn; omega⟩
    rw [List.nil_append, dummyRx_cons, arrivals_append, List.append_assoc] at hr
    rw [pollToken, andThen_ok (clockDummy_ok h hr), htok]
    simp [exchanged, dummyRx, dummies, exchangesRx, exchangesTx]
  | cons b bs ih =>
    obtain ⟨m, rfl⟩ : ∃ m, n = m + 1 := ⟨n - 1, by simp at hn; omega⟩
    rw [List.cons_append, dummyRx_cons, arrivals_append, List.append_assoc] at hr
    rw [pollToken, andThen_ok (clockDummy_ok h hr), hpre b List.mem_cons_self, if_pos rfl,
      ih m _ (exchanged s _ _ _) (exchanged_selected h ..) (by simpa using hn)
        (fun x hx => hpre x (List.mem_cons_of_mem _ hx)) rfl,
      exchanged_exchanged, List.cons_append, exchangesTx_dummies_cons, Nat.add_comm 1]
    simp [exchanged]

/-- A poll answered with no token (43_sd_command.md R244). -/
theorem pollToken_none (miso raw : List Byte) (s : State) (rest : List RxEvent) (h : Selected s)
    (hm : ∀ b ∈ miso, b.getLsbD 7 = true) (hr : s.rx = arrivals (dummyRx s.cfg miso) ++ rest) :
    pollToken miso.length raw s =
      (.ok (none, raw ++ miso), exchanged s miso.length (exchangesTx s.cfg (dummies s.cfg miso)) rest) := by
  induction miso generalizing s raw with
  | nil =>
    have h1 : s.rx = rest := hr
    rw [← h1]
    simp [pollToken, exchangesTx, dummies, exchanged_zero]
  | cons b bs ih =>
    rw [dummyRx_cons, arrivals_append, List.append_assoc] at hr
    rw [List.length_cons, pollToken, andThen_ok (clockDummy_ok h hr), hm b List.mem_cons_self, if_pos rfl,
      ih _ (exchanged s _ _ _) (exchanged_selected h ..) (fun x hx => hm x (List.mem_cons_of_mem _ hx)) rfl,
      exchanged_exchanged, exchangesTx_dummies_cons, Nat.add_comm 1]
    simp [exchanged]

end Sys2Proof.Machine
end

