-- ==== Sys2Proof/Laws/Frame.lean ====
section
/-! SUPPORT. What an operation leaves alone and which errors it can end with, once for every operation: parameters,
waiting requests and results kept, TX appended to, RX consumed from its head, the registers outside a list kept
(10_state.md R22 to R32), the errors among some codes (60_exceptions.md R338). -/

namespace Sys2Proof.Machine

variable {α β : Type}

/-- What passes from a state to a later one of the same operation, when it writes the registers `ws` only. -/
structure Stays (ws : List Reg) (s t : State) : Prop where
  cfg : t.cfg = s.cfg
  requests : t.requests = s.requests
  results : t.results = s.results
  tx : s.tx <+: t.tx
  rx : t.rx <:+ s.rx
  kept : KeptOutside ws s t

/-- An operation that writes the registers `ws` only and ends with the errors of `codes` only. -/
structure Within (ws : List Reg) (codes : List Nat) (m : Op α) : Prop where
  of : ∀ s, Stays ws s (m s).2 ∧ ∀ e, (m s).1 = .error e → errorCode e ∈ codes

theorem Stays.refl (ws : List Reg) (s : State) : Stays ws s s :=
  ⟨rfl, rfl, rfl, List.prefix_refl _, List.suffix_refl _, fun _ => rfl, fun _ => rfl, fun _ => rfl, fun _ => rfl,
    fun _ => rfl, fun _ => rfl⟩

theorem Stays.trans {ws : List Reg} {s t u : State} (h : Stays ws s t) (k : Stays ws t u) : Stays ws s u := by
  obtain ⟨h1, h2, h3, h4, h5, h6, h7, h8, h9, h10, h11⟩ := h
  obtain ⟨k1, k2, k3, k4, k5, k6, k7, k8, k9, k10, k11⟩ := k
  exact ⟨k1.trans h1, k2.trans h2, k3.trans h3, h4.trans k4, k5.trans h5, fun n => (k6 n).trans (h6 n),
    fun n => (k7 n).trans (h7 n), fun n => (k8 n).trans (h8 n), fun n => (k9 n).trans (h9 n),
    fun n => (k10 n).trans (h10 n), fun n => (k11 n).trans (h11 n)⟩

theorem Stays.mono {ws vs : List Reg} (hw : ws ⊆ vs) {s t : State} (h : Stays ws s t) : Stays vs s t := by
  obtain ⟨h1, h2, h3, h4, h5, h6, h7, h8, h9, h10, h11⟩ := h
  exact ⟨h1, h2, h3, h4, h5, fun n => h6 (n <| hw ·), fun n => h7 (n <| hw ·), fun n => h8 (n <| hw ·),
    fun n => h9 (n <| hw ·), fun n => h10 (n <| hw ·), fun n => h11 (n <| hw ·)⟩

theorem Within.mono {ws vs : List Reg} {cs ds : List Nat} {m : Op α} (h : Within ws cs m) (hw : ws ⊆ vs)
    (hc : cs ⊆ ds) : Within vs ds m := ⟨fun s => ⟨(h.of s).1.mono hw, fun e he => hc ((h.of s).2 e he)⟩⟩

section
variable {ws : List Reg} {cs : List Nat}

theorem within_done (a : α) : Within ws cs (done a) := ⟨fun s => ⟨.refl ws s, fun _ h => nomatch h⟩⟩

theorem within_raise {e : ErrorRecord} (h : errorCode e ∈ cs) : Within ws cs (raise e : Op α) :=
  ⟨fun s => ⟨.refl ws s, fun _ he => by cases he; exact h⟩⟩

theorem within_computed {r : Except ErrorRecord α} (h : ∀ e, r = .error e → errorCode e ∈ cs) :
    Within ws cs (computed r) := ⟨fun s => ⟨.refl ws s, fun e he => h e he⟩⟩

theorem within_andThen {m : Op α} {k : α → Op β} (hm : Within ws cs m) (hk : ∀ a, Within ws cs (k a)) :
    Within ws cs (andThen m k) := by
  refine ⟨fun s => ?_⟩
  rcases andThen_cases m k s with ⟨a, t, h, h'⟩ | ⟨e, t, h, h'⟩
  · have h1 := hm.of s
    rw [h] at h1
    rw [h']
    exact ⟨h1.1.trans ((hk a).of t).1, ((hk a).of t).2⟩
  · have h1 := hm.of s
    rw [h] at h1
    rw [h']
    exact ⟨h1.1, fun e' he => h1.2 e' (by cases he; rfl)⟩

theorem within_withState {f : State → Op α} (h : ∀ s, Within ws cs (f s)) : Within ws cs (withState f) :=
  ⟨fun s => (h s).of s⟩

theorem within_mapValue {f : α → β} {m : Op α} (h : Within ws cs m) : Within ws cs (mapValue f m) :=
  within_andThen h fun _ => within_done _

theorem within_withCleanup {m : Op α} {c : Op Unit} (hm : Within ws cs m) (hc : Within ws cs c) :
    Within ws cs (withCleanup m c) := by
  refine ⟨fun s => ?_⟩
  rcases h : m s with ⟨r, t⟩
  rcases h' : c t with ⟨d, u⟩
  have h1 := hm.of s
  have h2 := hc.of t
  rw [h] at h1
  rw [h'] at h2
  rw [withCleanup_apply h h']
  refine ⟨h1.1.trans h2.1, fun e he => ?_⟩
  cases r with
  | error e1 => rw [firstError_error] at he; cases he; exact h1.2 e rfl
  | ok a => cases d with
    | error e2 => rw [firstError_cleanup] at he; cases he; exact h2.2 e rfl
    | ok x => nomatch he

theorem within_update {f : State → State} (h : ∀ s, Stays ws s (f s)) : Within ws cs (update f) :=
  ⟨fun s => ⟨h s, fun _ he => nomatch he⟩⟩

theorem within_ite {p : Prop} [Decidable p] {m k : Op α} (hm : Within ws cs m) (hk : Within ws cs k) :
    Within ws cs (if p then m else k) := by split <;> assumption

/-! ### Transport and checks -/

theorem within_expect (packet : List Byte) (pat : Pattern) (n : Nat) (ctx : Context) :
    Within ws [2, 3, 4] (expect packet pat n ctx) := by
  refine ⟨fun s => ?_⟩
  obtain ⟨bs, t, ht, hs, h⟩ := expect_cases packet pat n ctx s
  have hst : Stays ws s t := by
    rw [ht] at hs ⊢
    exact ⟨rfl, rfl, rfl, List.prefix_append _ _, hs, fun _ => rfl, fun _ => rfl, fun _ => rfl, fun _ => rfl,
      fun _ => rfl, fun _ => rfl⟩
  rcases h with ⟨-, -, h⟩ | ⟨-, -, h⟩ | ⟨-, h⟩ <;> rw [h] <;> refine ⟨hst, fun e he => ?_⟩ <;> cases he <;> simp [errorCode]

theorem within_requireLink (op : OpName) : Within ws [2, 3, 4] (requireLink op) := by
  refine ⟨fun s => ?_⟩
  cases h : s.link with
  | opened => rw [requireLink_opened h]; exact ⟨.refl ws s, fun _ he => nomatch he⟩
  | closed => rw [requireLink_closed h]; exact ⟨.refl ws s, fun e he => by cases he; simp [errorCode]⟩

theorem within_requireEnabled (op : OpName) : Within ws [2, 3, 4] (requireEnabled op) := by
  refine ⟨fun s => ?_⟩
  unfold requireEnabled
  split
  · exact ⟨.refl ws s, fun _ he => nomatch he⟩
  · exact ⟨.refl ws s, fun e he => by cases he; simp [errorCode]⟩

theorem within_requireOpenEnabled (op : OpName) : Within ws [2, 3, 4] (requireOpenEnabled op) :=
  within_andThen (within_requireLink op) fun _ => within_requireEnabled op

theorem within_requireRange (p : Param) (v lo hi : Int) (h : 5 ∈ cs) : Within ws cs (requireRange p v lo hi) := by
  refine ⟨fun s => ?_⟩
  unfold requireRange
  split
  · exact ⟨.refl ws s, fun _ he => nomatch he⟩
  · exact ⟨.refl ws s, fun e he => by cases he; exact h⟩

/-! ### The exchanges and bursts -/

theorem within_discard {m : Op α} (h : Within ws cs m) : Within ws cs (discard m) := within_mapValue h

theorem within_xCfgWr (cfg : Byte) : Within ws [2, 3, 4] (xCfgWr cfg) := within_discard (within_expect ..)

theorem within_xCfgRd : Within ws [2, 3, 4] xCfgRd := within_mapValue (within_expect ..)

theorem within_xSetAddr (a : Addr) : Within ws [2, 3, 4] (xSetAddr a) := within_discard (within_expect ..)

theorem within_xRdHdr (b : Byte) : Within ws [2, 3, 4] (xRdHdr b) := within_discard (within_expect ..)

theorem within_xWrHdr (b : Byte) : Within ws [2, 3, 4] (xWrHdr b) := within_discard (within_expect ..)

theorem within_xWrData (bs : List Byte) : Within ws [2, 3, 4] (xWrData bs) := within_discard (within_expect ..)

theorem within_xRdData (k : Nat) : Within ws [2, 3, 4] (xRdData k) := within_expect ..

theorem within_advanceAddr (k : Nat) (h : Reg.addr ∈ ws) : Within ws cs (advanceAddr k) := by
  refine within_update fun s => ?_
  split
  · exact ⟨rfl, rfl, rfl, List.prefix_refl _, List.suffix_refl _, fun _ => rfl, fun _ => rfl, fun _ => rfl,
      fun n => absurd h n, fun _ => rfl, fun _ => rfl⟩
  · exact .refl ws s

theorem within_writeSubPackets (h : Reg.addr ∈ ws) : ∀ ps, Within ws [2, 3, 4] (writeSubPackets ps)
  | [] => within_done ()
  | _ :: ps => within_andThen (within_xWrData _) fun _ => within_andThen (within_advanceAddr _ h) fun _ =>
      within_writeSubPackets h ps

theorem within_writeBursts (h : Reg.addr ∈ ws) : ∀ bs, Within ws [2, 3, 4] (writeBursts bs)
  | [] => within_done ()
  | _ :: bs => within_andThen (within_withState fun _ => within_andThen (within_xWrHdr _) fun _ =>
      within_writeSubPackets h _) fun _ => within_writeBursts h bs

theorem within_readSubChunks (h : Reg.addr ∈ ws) : ∀ ks out, Within ws [2, 3, 4] (readSubChunks ks out)
  | [], _ => within_done _
  | _ :: ks, _ => within_andThen (within_xRdData _) fun _ => within_andThen (within_advanceAddr _ h) fun _ =>
      within_readSubChunks h ks _

theorem within_readBursts (h : Reg.addr ∈ ws) : ∀ ns out, Within ws [2, 3, 4] (readBursts ns out)
  | [], _ => within_done _
  | _ :: ns, _ => within_andThen (within_withState fun _ => within_andThen (within_xRdHdr _) fun _ =>
      within_readSubChunks h _ _) fun _ => within_readBursts h ns _

end

/-! ### The operations of the debug core and the SPI bridge -/

theorem within_opEnableCore : Within [.en] [2, 3, 4] opEnableCore :=
  within_andThen (within_requireLink _) fun _ => within_withState fun s => within_ite
    (within_raise (by decide))
    (within_andThen (within_xCfgWr _) fun _ => within_update fun _ => ⟨rfl, rfl, rfl, List.prefix_refl _,
      List.suffix_refl _, fun _ => rfl, fun n => absurd (by decide) n, fun _ => rfl, fun _ => rfl, fun _ => rfl,
      fun _ => rfl⟩)

theorem within_opDisableCore : Within [.en] [2, 3, 4] opDisableCore :=
  within_andThen (within_requireOpenEnabled _) fun _ => within_withState fun s =>
    within_andThen (within_xCfgWr _) fun _ => within_update fun _ => ⟨rfl, rfl, rfl, List.prefix_refl _,
      List.suffix_refl _, fun _ => rfl, fun n => absurd (by decide) n, fun _ => rfl, fun _ => rfl, fun _ => rfl,
      fun _ => rfl⟩

theorem within_opSetAutoIncrement (flag : Bool) : Within [.ai] [2, 3, 4] (opSetAutoIncrement flag) :=
  within_andThen (within_requireOpenEnabled _) fun _ => within_andThen (within_xCfgWr _) fun _ =>
    within_update fun _ => ⟨rfl, rfl, rfl, List.prefix_refl _, List.suffix_refl _, fun _ => rfl, fun _ => rfl,
      fun n => absurd (by decide) n, fun _ => rfl, fun _ => rfl, fun _ => rfl⟩

/-- The part of SET_ADDRESS after its range check. -/
theorem within_setAddress (a : Addr) :
    Within [.addr] [2, 3, 4] (andThen (requireOpenEnabled .setAddress) fun _ => andThen (xSetAddr a) fun _ =>
      update fun t => { t with addr := a }) :=
  within_andThen (within_requireOpenEnabled _) fun _ => within_andThen (within_xSetAddr _) fun _ =>
    within_update fun _ => ⟨rfl, rfl, rfl, List.prefix_refl _, List.suffix_refl _, fun _ => rfl, fun _ => rfl,
      fun _ => rfl, fun n => absurd (by decide) n, fun _ => rfl, fun _ => rfl⟩

theorem within_opSetAddress (a : Int) : Within [.addr] [2, 3, 4, 5] (opSetAddress a) :=
  within_andThen (within_requireRange _ _ _ _ (by decide)) fun _ => (within_setAddress _).mono (by simp) (by decide)

/-- SET_ADDRESS of a 16-bit address has no RangeError. -/
theorem opSetAddress_toNat (a : Addr) :
    opSetAddress a.toNat = andThen (requireOpenEnabled .setAddress) fun _ => andThen (xSetAddr a) fun _ =>
      update fun t => { t with addr := a } := by
  have h : BitVec.ofInt 16 (a.toNat : Int) = a := by simp
  funext s
  rw [opSetAddress, andThen_ok (requireRange_ok (by omega)), h]

theorem within_opSetAddress_toNat (a : Addr) : Within [.addr] [2, 3, 4] (opSetAddress a.toNat) := by
  rw [opSetAddress_toNat]
  exact within_setAddress a

theorem within_opReadConfig : Within [] [2, 3, 4] opReadConfig :=
  within_andThen (within_requireLink _) fun _ => within_xCfgRd

theorem within_opWrite (data : List Byte) : Within [.addr] [2, 3, 4] (opWrite data) :=
  within_andThen (within_requireOpenEnabled _) fun _ => within_withState fun _ => within_writeBursts (by decide) _

theorem within_opRead (n : Int) : Within [.addr] [2, 3, 4, 5] (opRead n) :=
  within_andThen (within_requireRange _ _ _ _ (by decide)) fun _ =>
    Within.mono (ws := [.addr]) (cs := [2, 3, 4]) (within_andThen (within_requireOpenEnabled _) fun _ =>
      within_withState fun _ => within_readBursts (by decide) _ _) (by simp) (by decide)

theorem within_opRead_one : Within [.addr] [2, 3, 4] (opRead 1) := by
  refine ⟨fun s => ?_⟩
  have h : opRead 1 s = (andThen (requireOpenEnabled .read) fun _ => withState fun s =>
      readBursts (chunkSizes 1 s.cfg.maxBurst) []) s := andThen_ok (requireRange_ok (by decide))
  rw [h]
  exact (within_andThen (within_requireOpenEnabled _) fun _ => within_withState fun _ =>
    within_readBursts (by decide) _ _).of s

theorem within_opSendAndExpect (packet : List Byte) (pat : Pattern) (n : Nat) (ctx : Text) :
    Within [] [2, 3, 4] (opSendAndExpect packet pat n ctx) :=
  within_andThen (within_requireLink _) fun _ => within_expect ..

theorem within_opSpiSetSpeed (q : Rat) : Within [.addr, .fdiv] [2, 3, 4, 5] (opSpiSetSpeed q) := by
  refine within_andThen ⟨fun s => ?_⟩ fun _ => Within.mono (ws := [.addr, .fdiv]) (cs := [2, 3, 4]) ?_ (by simp)
    (by decide)
  · unfold requirePositiveHz
    split
    · exact ⟨.refl _ s, fun e he => by cases he; simp [errorCode]⟩
    · exact ⟨.refl _ s, fun _ he => nomatch he⟩
  · exact within_andThen (within_requireOpenEnabled _) fun _ => within_withState fun s =>
      within_andThen ((within_opSetAddress_toNat _).mono (by decide) (by simp)) fun _ =>
      within_andThen ((within_opWrite _).mono (by decide) (by simp)) fun _ =>
      within_andThen (within_update fun _ => ⟨rfl, rfl, rfl, List.prefix_refl _, List.suffix_refl _, fun _ => rfl,
        fun _ => rfl, fun _ => rfl, fun _ => rfl, fun _ => rfl, fun n => absurd (by decide) n⟩) fun _ =>
      within_done _

theorem within_opSpiSelect (target : Target) : Within [.ai, .addr, .cs] [2, 3, 4] (opSpiSelect target) :=
  within_andThen (within_requireOpenEnabled _) fun _ => within_withState fun s =>
    within_andThen ((within_opSetAutoIncrement _).mono (by decide) (by simp)) fun _ =>
    within_andThen ((within_opSetAddress_toNat _).mono (by decide) (by simp)) fun _ =>
    within_andThen ((within_opWrite _).mono (by decide) (by simp)) fun _ =>
    within_update fun _ => ⟨rfl, rfl, rfl, List.prefix_refl _, List.suffix_refl _, fun _ => rfl, fun _ => rfl,
      fun _ => rfl, fun _ => rfl, fun n => absurd (by decide) n, fun _ => rfl⟩

theorem within_spiExchanges : ∀ data out, Within [.addr] [2, 3, 4] (spiExchanges data out)
  | [], _ => within_done _
  | _ :: data, _ => within_andThen (within_withState fun _ => within_andThen (within_opSetAddress_toNat _) fun _ =>
      within_andThen (within_opWrite _) fun _ => within_opRead_one) fun _ => within_spiExchanges data _

theorem within_opSpiWriteRead (data : List Byte) : Within [.addr] [2, 3, 4] (opSpiWriteRead data) :=
  within_andThen (within_requireOpenEnabled _) fun _ => within_spiExchanges data _

theorem within_opSpiWrite (data : List Byte) : Within [.addr] [2, 3, 4] (opSpiWrite data) :=
  within_discard (within_opSpiWriteRead data)

/-! ### The SD commands -/

theorem within_clockDummy : Within [.addr] [2, 3, 4] clockDummy :=
  within_withState fun _ => within_mapValue (within_opSpiWriteRead _)

theorem within_pollToken : ∀ n raw, Within [.addr] [2, 3, 4] (pollToken n raw)
  | 0, _ => within_done _
  | n + 1, _ => within_andThen within_clockDummy fun _ => within_ite (within_pollToken n _) (within_done _)

theorem within_readExtension : ∀ n ext, Within [.addr] [2, 3, 4] (readExtension n ext)
  | 0, _ => within_done _
  | n + 1, _ => within_andThen within_clockDummy fun _ => within_readExtension n _

theorem decodeR1_error {t : Byte} {e : ErrorRecord} (h : decodeR1 t = .error e) : errorCode e = 7 := by
  unfold decodeR1 at h
  split at h <;> cases h
  rfl

theorem vddRange_error {m : BitVec 9} {e : ErrorRecord} (h : vddRange m = .error e) : errorCode e = 7 := by
  unfold vddRange at h
  split at h
  · dsimp only at h
    split at h <;> cases h
    rfl
  · cases h

theorem decodeResponse_error {sh : Shape} {t : Byte} {ext : List Byte} {e : ErrorRecord}
    (h : decodeResponse sh t ext = .error e) : errorCode e = 7 := by
  unfold decodeResponse at h
  cases hr : decodeR1 t with
  | error e1 =>
    have he : e = e1 := by
      cases sh <;> simp only [decodeR1b, decodeR2, decodeR3, decodeR7, hr, Except.map] at h <;> cases h <;> rfl
    exact he ▸ decodeR1_error hr
  | ok r =>
    cases sh <;> simp only [decodeR1b, decodeR2, decodeR3, decodeR7, hr, Except.map] at h <;> try cases h
    split at h <;> try cases h
    next he => split at he <;> cases he; next hv => exact vddRange_error hv

theorem within_decodeReply (cmd : Nat) (arg : Word32) (shape : Shape) (tok : Byte) (raw : List Byte) :
    Within [.addr] [2, 3, 4, 6, 7] (decodeReply cmd arg shape tok raw) :=
  within_withState fun s =>
    within_andThen (within_computed fun e he => by rw [decodeR1_error he]; decide) fun _ =>
    within_ite (within_raise (by simp [errorCode]))
      (within_andThen ((within_readExtension _ _).mono (by simp) (by decide)) fun _ =>
      within_andThen (within_computed fun e he => by rw [decodeResponse_error he]; decide) fun _ =>
      within_ite (within_raise (by simp [errorCode])) (within_done _))

theorem within_commandExchange (cmd : Nat) (arg : Word32) (shape : Shape) :
    Within [.ai, .addr, .cs] [2, 3, 4, 6, 7] (commandExchange cmd arg shape) :=
  within_withState fun s =>
    within_andThen ((within_opSpiSelect _).mono (by simp) (by decide)) fun _ =>
    within_andThen ((within_opSpiWrite _).mono (by decide) (by decide)) fun _ =>
    within_andThen ((within_pollToken _ _).mono (by decide) (by decide)) fun p => by
      rcases p with ⟨_ | tok, raw⟩
      · exact within_raise (by simp [errorCode])
      · exact (within_decodeReply ..).mono (by decide) (by simp)

theorem within_flushDummies : Within [.ai, .addr, .cs] [2, 3, 4, 6, 7] flushDummies :=
  within_withState fun _ => (within_opSpiWrite _).mono (by decide) (by decide)

theorem within_deselectUnlessKept (keep : Bool) {m : Op α} (h : Within [.ai, .addr, .cs] [2, 3, 4, 6, 7] m) :
    Within [.ai, .addr, .cs] [2, 3, 4, 6, 7] (deselectUnlessKept keep m) := by
  refine ⟨fun s => ?_⟩
  have hd : Within [.ai, .addr, .cs] [2, 3, 4, 6, 7] (opSpiSelect .none) :=
    (within_opSpiSelect _).mono (by simp) (by decide)
  have h1 := h.of s
  rcases hm : m s with ⟨r, t⟩
  rw [hm] at h1
  cases r with
  | ok a =>
    cases keep with
    | true => simpa only [deselectUnlessKept, hm, if_true] using h1
    | false =>
      have h2 := (within_withCleanup (within_done a) hd).of t
      simp only [deselectUnlessKept, hm, Bool.false_eq_true, if_false]
      exact ⟨h1.1.trans h2.1, h2.2⟩
  | error e =>
    have h2 := (within_withCleanup (within_raise (α := α) (h1.2 e rfl)) hd).of t
    simp only [deselectUnlessKept, hm]
    exact ⟨h1.1.trans h2.1, h2.2⟩

/-- SD_SEND_CMD with operands in range. -/
theorem within_sendChecked (table : ShapeTable) (cmd : Nat) (arg : Word32) (keep : Bool) :
    Within [.ai, .addr, .cs] [2, 3, 4, 6, 7] (andThen (requireShape table cmd) fun shape =>
      deselectUnlessKept keep (withCleanup (commandExchange cmd arg shape) flushDummies)) := by
  refine within_andThen ⟨fun s => ?_⟩ fun shape => within_deselectUnlessKept keep
    (within_withCleanup (within_commandExchange ..) within_flushDummies)
  unfold requireShape
  split
  · exact ⟨.refl _ s, fun _ he => nomatch he⟩
  · exact ⟨.refl _ s, fun e he => by cases he; simp [errorCode]⟩

theorem within_requireCmdArg (cmd arg : Int) : Within [.ai, .addr, .cs] [2, 3, 4, 5, 6, 7] (requireCmdArg cmd arg) :=
  within_andThen (within_requireRange _ _ _ _ (by decide)) fun _ => within_requireRange _ _ _ _ (by decide)

theorem within_opSdSendCmd (table : ShapeTable) (cmd arg : Int) (keep : Bool) :
    Within [.ai, .addr, .cs] [2, 3, 4, 5, 6, 7] (opSdSendCmd table cmd arg keep) :=
  within_andThen (within_requireCmdArg cmd arg) fun _ => (within_sendChecked ..).mono (by simp) (by decide)

theorem within_opSdSendAcmd (acmd arg : Int) (keep : Bool) :
    Within [.ai, .addr, .cs] [2, 3, 4, 5, 6, 7] (opSdSendAcmd acmd arg keep) := by
  refine within_withState fun s => within_andThen (within_requireCmdArg acmd arg) fun _ =>
    within_andThen ⟨fun s => ?_⟩ fun _ => within_andThen (within_opSdSendCmd ..) fun _ => within_opSdSendCmd ..
  unfold requireShape
  split
  · exact ⟨.refl _ s, fun _ he => nomatch he⟩
  · exact ⟨.refl _ s, fun e he => by cases he; simp [errorCode]⟩

theorem requireCmdArg_ok {cmd arg : Int} {s : State} (hc : 0 ≤ cmd) (hc' : cmd ≤ 63) (ha : 0 ≤ arg)
    (ha' : arg ≤ 0xFFFFFFFF) : requireCmdArg cmd arg s = (.ok (), s) := by
  rw [requireCmdArg, andThen_ok (requireRange_ok ⟨hc, hc'⟩), requireRange_ok ⟨ha, ha'⟩]

/-- SD_SEND_CMD of operands in range has no RangeError. -/
theorem within_opSdSendCmd_inRange (table : ShapeTable) {cmd arg : Int} (keep : Bool) (hc : 0 ≤ cmd) (hc' : cmd ≤ 63)
    (ha : 0 ≤ arg) (ha' : arg ≤ 0xFFFFFFFF) :
    Within [.ai, .addr, .cs] [2, 3, 4, 6, 7] (opSdSendCmd table cmd arg keep) := by
  refine ⟨fun s => ?_⟩
  rw [opSdSendCmd, andThen_ok (requireCmdArg_ok hc hc' ha ha')]
  exact (within_sendChecked _ _ _ _).of s

end Sys2Proof.Machine
end

