-- ==== Sys2Proof/Laws/Exchanges.lean ====
section
/-! SUPPORT. What a transfer does exchange by exchange, whatever the device sends, draws among it: every exchange answered,
or the one at which it breaks off (40_framing_codec.md R131, R134, R147, R148; 60_exceptions.md R340). -/

namespace Sys2Proof.Machine

/-! ### The receive stream -/

/-- The state after `n` events of the receive stream are consumed (10_state.md R22; log entry 2). -/
def consumed (s : State) (n : Nat) : State := { s with rx := s.rx.drop n, draws := s.draws + (n - s.rx.length) }

@[simp] theorem consumed_zero (s : State) : consumed s 0 = s := by cases s; simp [consumed]

theorem consumed_consumed (s : State) (m n : Nat) : consumed (consumed s m) n = consumed s (m + n) := by
  have h : s.draws + (m - s.rx.length) + (n - (s.rx.length - m)) = s.draws + (m + n - s.rx.length) := by omega
  simp only [consumed, List.drop_drop, List.length_drop, h]

theorem nextRx_eq (s : State) : nextRx s = (eventAt s 0, consumed s 1) := by
  cases h : s.rx with
  | nil => simp [nextRx, eventAt, consumed, h]
  | cons e rest => simp [nextRx, eventAt, consumed, h]

theorem eventAt_consumed (s : State) (n i : Nat) : eventAt (consumed s n) i = eventAt s (n + i) := by
  have h : s.draws + (n - s.rx.length) + (i - (s.rx.length - n)) = s.draws + (n + i - s.rx.length) := by omega
  simp only [eventAt, consumed, List.getElem?_drop, List.length_drop, h]

@[simp] theorem upcoming_nil (s : State) : Upcoming s [] := fun i e h => by simp at h

theorem upcoming_cons (s : State) (e : RxEvent) (evs : List RxEvent) :
    Upcoming s (e :: evs) ↔ eventAt s 0 = e ∧ Upcoming (consumed s 1) evs := by
  constructor
  · intro h
    refine ⟨h 0 e rfl, fun i f hf => ?_⟩
    rw [eventAt_consumed, Nat.add_comm]
    exact h (i + 1) f hf
  · rintro ⟨h0, h⟩ i f hf
    cases i with
    | zero => simpa [h0] using hf
    | succ i =>
      have := h i f (by simpa using hf)
      rwa [eventAt_consumed, Nat.add_comm] at this

theorem upcoming_append (s : State) (as bs : List RxEvent) :
    Upcoming s (as ++ bs) ↔ Upcoming s as ∧ Upcoming (consumed s as.length) bs := by
  induction as generalizing s with
  | nil => simp
  | cons a as ih =>
    rw [List.cons_append, upcoming_cons, upcoming_cons, ih, consumed_consumed, List.length_cons, and_assoc,
      Nat.add_comm 1]

/-- What stands in RX is what is received next. -/
theorem upcoming_of_rx {s : State} {evs rest : List RxEvent} (h : s.rx = evs ++ rest) : Upcoming s evs := by
  intro i e hi
  have hl : i < evs.length := by
    by_contra hn
    rw [List.getElem?_eq_none (by omega)] at hi
    cases hi
  rw [eventAt, h, List.getElem?_append_left hl, hi, Option.getD_some]

/-- What follows in RX stays. -/
theorem consumed_of_rx {s : State} {evs rest : List RxEvent} (h : s.rx = evs ++ rest) :
    consumed s evs.length = { s with rx := rest } := by
  simp [consumed, h]

theorem recvUpTo_upcoming {bs : List Byte} {s : State} (h : Upcoming s (arrivals bs)) :
    recvUpTo bs.length s = (bs, consumed s bs.length) := by
  induction bs generalizing s with
  | nil => rw [List.length_nil, consumed_zero]; rfl
  | cons b bs ih =>
    rw [arrivals_cons, upcoming_cons] at h
    simp only [List.length_cons, recvUpTo, nextRx_eq, h.1, ih h.2, consumed_consumed, Nat.add_comm 1]

theorem recvUpTo_timeout {bs : List Byte} {s : State} {n : Nat} (h : Upcoming s (arrivals bs ++ [.timeout]))
    (hn : bs.length < n) : recvUpTo n s = (bs, consumed s (bs.length + 1)) := by
  induction bs generalizing s n with
  | nil =>
    obtain ⟨m, rfl⟩ : ∃ m, n = m + 1 := ⟨n - 1, by simp at hn; omega⟩
    rw [arrivals_nil, List.nil_append, upcoming_cons] at h
    simp only [recvUpTo, nextRx_eq, h.1, List.length_nil]
  | cons b bs ih =>
    obtain ⟨m, rfl⟩ : ∃ m, n = m + 1 := ⟨n - 1, by simp at hn; omega⟩
    rw [arrivals_cons, List.cons_append, upcoming_cons] at h
    simp only [recvUpTo, nextRx_eq, h.1, ih h.2 (show bs.length < m by simpa using hn), consumed_consumed,
      List.length_cons]
    rw [show 1 + (bs.length + 1) = bs.length + 1 + 1 by omega]

/-! ### One exchange -/

/-- The state after an exchange is sent and `n` events are consumed. -/
def exchangedWire (s : State) (tx : List Byte) (n : Nat) : State := consumed { s with tx := s.tx ++ tx } n

theorem expect_received {packet : List Byte} {pat : Pattern} {ctx : Context} {s : State} {bs : List Byte}
    (h : Upcoming s (arrivals bs)) (hl : bs.length = pat.length) :
    expect packet pat pat.length ctx s =
      (if matchPattern pat bs then .ok (captures pat bs) else .error (.protocol pat pat.length bs ctx),
        exchangedWire s packet bs.length) := by
  have h1 : recvExact pat.length { s with tx := s.tx ++ packet } = (.ok bs, exchangedWire s packet bs.length) := by
    simp only [recvExact, ← hl, recvUpTo_upcoming (s := { s with tx := s.tx ++ packet }) h, if_true, exchangedWire]
  simp only [expect, send, andThen_ok (update_apply _ s), andThen_ok h1]
  split <;> rfl

theorem expect_timeout {packet : List Byte} {pat : Pattern} {ctx : Context} {s : State} {bs : List Byte}
    (h : Upcoming s (arrivals bs ++ [.timeout])) (hl : bs.length < pat.length) :
    expect packet pat pat.length ctx s =
      (.error (.transport pat.length bs), exchangedWire s packet (bs.length + 1)) := by
  have h1 : recvExact pat.length { s with tx := s.tx ++ packet } =
      (.error (.transport pat.length bs), exchangedWire s packet (bs.length + 1)) := by
    simp only [recvExact, recvUpTo_timeout (s := { s with tx := s.tx ++ packet }) h hl, if_neg (Nat.ne_of_lt hl),
      exchangedWire]
  simp only [expect, send, andThen_ok (update_apply _ s), andThen_error h1]

/-! ### A list of exchanges -/

/-- Exchanges in order, each counted into ADDR when it succeeds: what a transfer does on the wire. -/
def runExchanges : List Exchange → Op Unit
  | [] => done ()
  | x :: xs =>
    andThen (discard (expect x.packet x.pattern x.pattern.length x.context)) fun _ =>
    andThen (advanceAddr x.counts) fun _ => runExchanges xs

/-- Every reply matches its pattern. -/
def Matching (xs : List Exchange) : Prop := ∀ x ∈ xs, matchPattern x.pattern x.reply = true

/-- The state in which a transfer ends, but for the result. -/
def transferred (s : State) (done : List Exchange) (tx : List Byte) (n : Nat) : State :=
  { exchangedWire s tx n with addr := if s.ai then s.addr + BitVec.ofNat 16 (countedBy done) else s.addr }

theorem deliver_transferred (s : State) (done : List Exchange) (tx : List Byte) (n : Nat) (r : Result) :
    deliver r (transferred s done tx n) = afterTransfer s done tx n r := rfl

theorem transferred_nil (s : State) (tx : List Byte) (n : Nat) : transferred s [] tx n = exchangedWire s tx n := by
  simp [transferred, countedBy, exchangedWire, consumed]

/-- One exchange, counted, and then others. -/
theorem transferred_cons (s : State) (x : Exchange) (done : List Exchange) (tx : List Byte) (m n : Nat) :
    transferred (transferred s [x] x.packet m) done tx n = transferred s (x :: done) (x.packet ++ tx) (m + n) := by
  have h := consumed_consumed { s with tx := s.tx ++ x.packet } m n
  simp only [consumed, State.mk.injEq] at h
  simp only [transferred, exchangedWire, consumed, State.mk.injEq, countedBy, List.append_assoc, List.map_cons,
    List.sum_cons, true_and, and_true]
  refine ⟨?_, h.2.2.2.2.2.2.2.2.1, h.2.2.2.2.2.2.2.2.2.2.1⟩
  cases s.ai <;> simp [BitVec.ofNat_add, BitVec.add_assoc]

theorem advanceAddr_wire (s : State) (x : Exchange) (m : Nat) :
    advanceAddr x.counts (exchangedWire s x.packet m) = (.ok (), transferred s [x] x.packet m) := by
  simp only [advanceAddr, update_apply, transferred, countedBy, List.map_cons, List.map_nil, List.sum_cons,
    List.sum_nil, Nat.add_zero]
  cases h : s.ai <;> simp [exchangedWire, consumed, h]

theorem repliesOf_cons (x : Exchange) (xs : List Exchange) : repliesOf (x :: xs) = x.reply ++ repliesOf xs := rfl

theorem packetsOf_cons (x : Exchange) (xs : List Exchange) : packetsOf (x :: xs) = x.packet ++ packetsOf xs := rfl

@[simp] theorem repliesOf_append (xs ys : List Exchange) : repliesOf (xs ++ ys) = repliesOf xs ++ repliesOf ys :=
  List.flatMap_append

@[simp] theorem packetsOf_append (xs ys : List Exchange) : packetsOf (xs ++ ys) = packetsOf xs ++ packetsOf ys :=
  List.flatMap_append

@[simp] theorem arrivals_length (bs : List Byte) : (arrivals bs).length = bs.length := List.length_map ..

/-- An exchange answered as expected, and then the others. -/
theorem runExchanges_step {x : Exchange} {xs : List Exchange} {s : State} (hm : matchPattern x.pattern x.reply = true)
    (h : Upcoming s (arrivals x.reply)) :
    runExchanges (x :: xs) s = runExchanges xs (transferred s [x] x.packet x.reply.length) := by
  have h1 := expect_received (packet := x.packet) (ctx := x.context) h (matchPattern_length hm)
  rw [hm, if_pos rfl] at h1
  rw [runExchanges, discard, andThen_ok (mapValue_ok h1), andThen_ok (advanceAddr_wire s x _)]

theorem upcoming_transferred {s : State} {done : List Exchange} {tx : List Byte} {n : Nat} {evs : List RxEvent} :
    Upcoming (transferred s done tx n) evs ↔ Upcoming (consumed s n) evs := Iff.rfl

/-- Every exchange answered. -/
theorem runExchanges_ok {xs : List Exchange} {s : State} (hm : Matching xs) (h : Upcoming s (arrivals (repliesOf xs))) :
    runExchanges xs s = (.ok (), transferred s xs (packetsOf xs) (repliesOf xs).length) := by
  induction xs generalizing s with
  | nil => simp [runExchanges, transferred_nil, exchangedWire, packetsOf, repliesOf]
  | cons x xs ih =>
    rw [repliesOf_cons, arrivals_append, upcoming_append] at h
    rw [runExchanges_step (hm x List.mem_cons_self) h.1, ih (fun y hy => hm y (List.mem_cons_of_mem _ hy))
      (upcoming_transferred.2 (by simpa using h.2)), transferred_cons, repliesOf_cons, packetsOf_cons, List.length_append]

/-- What breaks off at its first exchange, or after it. -/
theorem Broken.cons {x : Exchange} {xs done : List Exchange} {tx : List Byte} {rx : List RxEvent} {e : ErrorRecord}
    (h : Broken (x :: xs) done tx rx e) :
    (done = [] ∧ Broken [x] [] tx rx e) ∨
      ∃ done' tx' rx', done = x :: done' ∧ tx = x.packet ++ tx' ∧ rx = arrivals x.reply ++ rx' ∧
        Broken xs done' tx' rx' e := by
  cases h with
  | mismatch y more bs h1 h2 h3 =>
    cases done with
    | nil => cases h1; exact .inl ⟨rfl, .mismatch x [] bs rfl h2 h3⟩
    | cons z done =>
      cases h1
      exact .inr ⟨done, _, _, rfl, by rw [List.cons_append, packetsOf_cons], by
        rw [repliesOf_cons, List.append_assoc, arrivals_append], .mismatch y more bs rfl h2 h3⟩
  | short y more bs h1 h2 =>
    cases done with
    | nil => cases h1; exact .inl ⟨rfl, .short x [] bs rfl h2⟩
    | cons z done =>
      cases h1
      exact .inr ⟨done, _, _, rfl, by rw [List.cons_append, packetsOf_cons], by
        rw [repliesOf_cons, List.append_assoc, arrivals_append, List.append_assoc], .short y more bs rfl h2⟩

/-- What breaks off in a first part, or after it. -/
theorem Broken.append {xs ys done : List Exchange} {tx : List Byte} {rx : List RxEvent} {e : ErrorRecord}
    (h : Broken (xs ++ ys) done tx rx e) :
    Broken xs done tx rx e ∨
      ∃ done' tx' rx', done = xs ++ done' ∧ tx = packetsOf xs ++ tx' ∧ rx = arrivals (repliesOf xs) ++ rx' ∧
        Broken ys done' tx' rx' e := by
  induction xs generalizing done tx rx with
  | nil => exact .inr ⟨done, tx, rx, rfl, rfl, rfl, h⟩
  | cons x xs ih =>
    rcases Broken.cons h with ⟨rfl, hb⟩ | ⟨done', tx', rx', rfl, rfl, rfl, hb⟩
    · refine .inl ?_
      cases hb with
      | mismatch y more bs h1 h2 h3 => cases h1; exact .mismatch x xs bs rfl h2 h3
      | short y more bs h1 h2 => cases h1; exact .short x xs bs rfl h2
    · rcases ih hb with hc | ⟨done'', tx'', rx'', rfl, rfl, rfl, hc⟩
      · refine .inl ?_
        cases hc with
        | mismatch y more bs h1 h2 h3 =>
          have h := Broken.mismatch (xs := x :: xs) (done := x :: done') y more bs (by rw [h1]; rfl) h2 h3
          simpa only [List.cons_append, packetsOf_cons, repliesOf_cons, arrivals_append, List.append_assoc] using h
        | short y more bs h1 h2 =>
          have h := Broken.short (xs := x :: xs) (done := x :: done') y more bs (by rw [h1]; rfl) h2
          simpa only [List.cons_append, packetsOf_cons, repliesOf_cons, arrivals_append, List.append_assoc] using h
      · exact .inr ⟨done'', tx'', rx'', rfl, by rw [packetsOf_cons, List.append_assoc], by
          rw [repliesOf_cons, arrivals_append, List.append_assoc], hc⟩

/-- An exchange that fails. -/
theorem expect_broken {x : Exchange} {s : State} {tx : List Byte} {rx : List RxEvent} {e : ErrorRecord}
    (h : Broken [x] [] tx rx e) (hu : Upcoming s rx) :
    expect x.packet x.pattern x.pattern.length x.context s = (.error e, exchangedWire s tx rx.length) := by
  cases h with
  | mismatch y more bs h1 h2 h3 =>
    cases h1
    have hu : Upcoming s (arrivals bs) := hu
    rw [expect_received hu h2, h3]
    simp [packetsOf, repliesOf]
  | short y more bs h1 h2 =>
    cases h1
    rw [expect_timeout hu h2]
    simp [packetsOf, repliesOf]

/-- What a transfer leaves that breaks off. -/
theorem runExchanges_broken {xs done : List Exchange} {s : State} {tx : List Byte} {rx : List RxEvent} {e : ErrorRecord}
    (hm : Matching xs) (h : Broken xs done tx rx e) (hu : Upcoming s rx) :
    runExchanges xs s = (.error e, transferred s done tx rx.length) := by
  induction xs generalizing s done tx rx with
  | nil => cases h <;> simp_all
  | cons x xs ih =>
    rcases Broken.cons h with ⟨rfl, hb⟩ | ⟨done', tx', rx', rfl, rfl, rfl, hb⟩
    · rw [runExchanges, discard, andThen_error (mapValue_error (expect_broken hb hu)), transferred_nil]
    · rw [upcoming_append] at hu
      rw [runExchanges_step (hm x List.mem_cons_self) hu.1,
        ih (fun y hy => hm y (List.mem_cons_of_mem _ hy)) hb (upcoming_transferred.2 (by simpa using hu.2)), transferred_cons]
      simp

/-! ### WRITE and READ as lists of exchanges -/

theorem fixAll_length (bs : List Byte) : (fixAll bs).length = bs.length := List.length_map ..

theorem capAll_length (n : Nat) : (capAll n).length = n := List.length_replicate ..

theorem matching_fixed (packet reply : List Byte) (ctx : Context) (n : Nat) :
    matchPattern (fixedExchange packet reply ctx n).pattern (fixedExchange packet reply ctx n).reply = true :=
  matchPattern_fixAll reply

theorem matching_data (bs : List Byte) : matchPattern (dataExchange bs).pattern (dataExchange bs).reply = true :=
  matchPattern_capAll bs

theorem Matching.append {xs ys : List Exchange} (hx : Matching xs) (hy : Matching ys) : Matching (xs ++ ys) :=
  fun x h => (List.mem_append.mp h).elim (hx x) (hy x)

theorem matching_writeExchanges (c : Config) (data : List Byte) : Matching (writeExchanges c data) := by
  intro x hx
  simp only [writeExchanges, List.mem_flatMap, List.mem_cons, List.mem_map] at hx
  obtain ⟨b, -, rfl | ⟨p, -, rfl⟩⟩ := hx <;> exact matching_fixed ..

theorem matching_readExchanges (c : Config) (data : List Byte) : Matching (readExchanges c data) := by
  intro x hx
  simp only [readExchanges, List.mem_flatMap, List.mem_cons, List.mem_map] at hx
  obtain ⟨b, -, rfl | ⟨p, -, rfl⟩⟩ := hx
  · exact matching_fixed ..
  · exact matching_data p

@[simp] theorem advanceAddr_zero : advanceAddr 0 = done () := by
  funext s
  simp only [advanceAddr, update_apply, done_apply]
  cases s
  simp

theorem andThen_assoc {α β γ : Type} (m : Op α) (k : α → Op β) (l : β → Op γ) :
    andThen (andThen m k) l = andThen m fun a => andThen (k a) l := by
  funext s
  rcases h : m s with ⟨e | a, t⟩
  · rw [andThen_error (andThen_error h), andThen_error h]
  · rw [andThen_ok h, andThen, andThen_ok h, andThen]

theorem done_andThen {α β : Type} (a : α) (k : α → Op β) : andThen (done a) k = k a := rfl

theorem runExchanges_append (xs ys : List Exchange) :
    runExchanges (xs ++ ys) = andThen (runExchanges xs) fun _ => runExchanges ys := by
  induction xs with
  | nil => rfl
  | cons x xs ih => simp only [List.cons_append, runExchanges, ih, andThen_assoc]

theorem discard_andThen {α β : Type} (m : Op α) (k : α → Op β) :
    discard (andThen m k) = andThen m fun a => discard (k a) := andThen_assoc ..

/-- A value that is not used may be discarded. -/
theorem andThen_discard {α β : Type} (m : Op α) (k : Op β) :
    andThen (discard m) (fun _ => k) = andThen m fun _ => k := andThen_assoc ..

theorem writeSubPackets_eq (ps : List (List Byte)) :
    writeSubPackets ps = runExchanges (ps.map fun p => fixedExchange p p .wrData p.length) := by
  induction ps with
  | nil => rfl
  | cons p ps ih => simp only [writeSubPackets, List.map_cons, runExchanges, ih, fixedExchange, fixAll_length, xWrData]

theorem readSubChunks_eq (cs : List (List Byte)) (out : List Byte) :
    discard (readSubChunks (cs.map List.length) out) = runExchanges (cs.map dataExchange) := by
  induction cs generalizing out with
  | nil => rfl
  | cons c cs ih =>
    simp only [List.map_cons, readSubChunks, runExchanges, discard_andThen, ih, dataExchange, capAll_length, xRdData,
      andThen_discard]

/-- The header of a burst, and the burst. -/
theorem writeBurst_eq (b : List Byte) (s : State) :
    writeBurst b s = runExchanges (fixedExchange (wrPacket (lengthByte b.length)) wrAckPacket .wrHdr 0 ::
      (chunksOf b s.cfg.subpkt).map fun p => fixedExchange p p .wrData p.length) s := by
  rw [writeBurst, withState_apply, writeSubPackets_eq]
  simp only [runExchanges, fixedExchange, fixAll_length, advanceAddr_zero, done_andThen, xWrHdr]
  rfl

theorem within_runExchanges (ws : List Reg) (h : Reg.addr ∈ ws) : ∀ xs, Within ws [2, 3, 4] (runExchanges xs)
  | [] => within_done ()
  | _ :: xs => within_andThen (within_discard (within_expect ..)) fun _ =>
      within_andThen (within_advanceAddr _ h) fun _ => within_runExchanges ws h xs

theorem runExchanges_cfg (xs : List Exchange) (s : State) : (runExchanges xs s).2.cfg = s.cfg :=
  ((within_runExchanges [.addr] (by decide) xs).of s).1.cfg

theorem writeBursts_eq (bs : List (List Byte)) (s : State) :
    writeBursts bs s = runExchanges (bs.flatMap fun b =>
      fixedExchange (wrPacket (lengthByte b.length)) wrAckPacket .wrHdr 0 ::
        (chunksOf b s.cfg.subpkt).map fun p => fixedExchange p p .wrData p.length) s := by
  induction bs generalizing s with
  | nil => rfl
  | cons b bs ih =>
    rw [writeBursts, List.flatMap_cons, runExchanges_append]
    simp only [andThen, writeBurst_eq]
    have hc := runExchanges_cfg (fixedExchange (wrPacket (lengthByte b.length)) wrAckPacket .wrHdr 0 ::
        (chunksOf b s.cfg.subpkt).map fun p => fixedExchange p p .wrData p.length) s
    split <;> rename_i h <;> rw [h] at hc
    · rw [ih, hc]

/-- WRITE is its exchanges (41_debug_core.md R180, 40_framing_codec.md R147). -/
theorem opWrite_eq {s : State} (h : Ready s) (data : List Byte) :
    opWrite data s = runExchanges (writeExchanges s.cfg data) s := by
  rw [opWrite, andThen_ok (requireOpenEnabled_ok h.link h.en), withState_apply, writeBursts_eq]
  rfl

theorem readBurst_eq {s : State} (hk : 1 ≤ s.cfg.rxChunk) (b : List Byte) :
    discard (readBurst b.length) s = runExchanges (fixedExchange (rdPacket (lengthByte b.length)) rdAckPacket .rdHdr 0 ::
      (chunksOf b s.cfg.rxChunk).map dataExchange) s := by
  have h : discard (readBurst b.length) s = (andThen (xRdHdr (lengthByte b.length)) fun _ =>
      discard (readSubChunks (chunkSizes b.length s.cfg.rxChunk) [])) s := by
    rw [← discard_andThen]
    rfl
  rw [h, chunkSizes_length hk, readSubChunks_eq]
  simp only [runExchanges, fixedExchange, fixAll_length, advanceAddr_zero, done_andThen, xRdHdr]
  rfl

theorem readBursts_eq (bs : List (List Byte)) (out : List Byte) {s : State} (hk : 1 ≤ s.cfg.rxChunk) :
    discard (readBursts (bs.map List.length) out) s = runExchanges (bs.flatMap fun b =>
      fixedExchange (rdPacket (lengthByte b.length)) rdAckPacket .rdHdr 0 ::
        (chunksOf b s.cfg.rxChunk).map dataExchange) s := by
  induction bs generalizing s out with
  | nil => rfl
  | cons b bs ih =>
    rw [List.flatMap_cons, runExchanges_append, List.map_cons, readBursts, discard_andThen]
    have hd := readBurst_eq hk b
    have hc := runExchanges_cfg (fixedExchange (rdPacket (lengthByte b.length)) rdAckPacket .rdHdr 0 ::
      (chunksOf b s.cfg.rxChunk).map dataExchange) s
    rcases hb : readBurst b.length s with ⟨e | r, t⟩
    · rw [discard, mapValue_error hb] at hd
      rw [andThen_error hb, andThen_error hd.symm]
    · rw [discard, mapValue_ok hb] at hd
      rw [← hd] at hc
      rw [andThen_ok hb, andThen_ok hd.symm, ih _ (by rw [hc]; exact hk), hc]

/-- READ is its exchanges, but for the value (41_debug_core.md R181, 40_framing_codec.md R148). -/
theorem opRead_eq {s : State} (h : Ready s) {data : List Byte} (h1 : 1 ≤ data.length) (h2 : data.length ≤ 0xFFFF) :
    discard (opRead data.length) s = runExchanges (readExchanges s.cfg data) s := by
  rw [opRead, discard_andThen, andThen_ok (requireRange_ok (by omega)), discard_andThen,
    andThen_ok (requireOpenEnabled_ok h.link h.en), discard, mapValue, andThen, withState_apply, Int.toNat_natCast,
    chunkSizes_length h.maxBurst]
  exact readBursts_eq _ [] (configOk_bounds h.ok).2.2.1

/-- What a sub-chunk that is received leaves (40_framing_codec.md R146, R148). -/
theorem readSubChunks_received (cs : List (List Byte)) (out : List Byte) {s : State}
    (h : Upcoming s (arrivals (repliesOf (cs.map dataExchange)))) :
    readSubChunks (cs.map List.length) out s = (.ok (out ++ cs.flatten),
      transferred s (cs.map dataExchange) [] (repliesOf (cs.map dataExchange)).length) := by
  induction cs generalizing s out with
  | nil => simp [readSubChunks, transferred_nil, exchangedWire, repliesOf]
  | cons c cs ih =>
    rw [List.map_cons, repliesOf_cons, arrivals_append, upcoming_append] at h
    have h1 := expect_received (packet := []) (pat := capAll c.length) (ctx := .rdData) (bs := c) h.1
      (capAll_length _).symm
    rw [matchPattern_capAll, if_pos rfl, captures_capAll, capAll_length] at h1
    have ha : advanceAddr c.length (exchangedWire s [] c.length) = _ := advanceAddr_wire s (dataExchange c) c.length
    rw [List.map_cons, readSubChunks, xRdData, andThen_ok h1, andThen_ok ha, ih _ (upcoming_transferred.2 (by simpa [dataExchange] using h.2)),
      List.map_cons, repliesOf_cons, List.length_append]
    refine Prod.ext (by simp) ?_
    have ht := transferred_cons s (dataExchange c) (cs.map dataExchange) [] c.length
      (repliesOf (cs.map dataExchange)).length
    exact ht

/-- A read burst, every exchange answered: its bytes. -/
theorem readBurst_received {b : List Byte} {s : State} (hk : 1 ≤ s.cfg.rxChunk)
    (h : Upcoming s (arrivals (repliesOf (fixedExchange (rdPacket (lengthByte b.length)) rdAckPacket .rdHdr 0 ::
      (chunksOf b s.cfg.rxChunk).map dataExchange)))) : (readBurst b.length s).1 = .ok b := by
  rw [repliesOf_cons, arrivals_append, upcoming_append] at h
  have h1 := expect_received (packet := rdPacket (lengthByte b.length)) (pat := fixAll rdAckPacket) (ctx := .rdHdr)
    (bs := rdAckPacket) h.1 rfl
  rw [matchPattern_fixAll, if_pos rfl] at h1
  have h2 : Upcoming (exchangedWire s (rdPacket (lengthByte b.length)) rdAckPacket.length) _ := h.2
  rw [readBurst, withState_apply, andThen_ok (show xRdHdr (lengthByte b.length) s = _ from mapValue_ok h1),
    chunkSizes_length hk, readSubChunks_received _ _ h2, chunksOf_flatten hk, List.nil_append]

theorem readBursts_received (bs : List (List Byte)) (out : List Byte) {s : State} (hk : 1 ≤ s.cfg.rxChunk)
    (h : Upcoming s (arrivals (repliesOf (bs.flatMap fun b =>
      fixedExchange (rdPacket (lengthByte b.length)) rdAckPacket .rdHdr 0 ::
        (chunksOf b s.cfg.rxChunk).map dataExchange)))) :
    (readBursts (bs.map List.length) out s).1 = .ok (out ++ bs.flatten) := by
  induction bs generalizing s out with
  | nil => simp [readBursts]
  | cons b bs ih =>
    rw [List.flatMap_cons, repliesOf_append, arrivals_append, upcoming_append] at h
    have hm : Matching (fixedExchange (rdPacket (lengthByte b.length)) rdAckPacket .rdHdr 0 ::
        (chunksOf b s.cfg.rxChunk).map dataExchange) := by
      intro x hx
      rcases List.mem_cons.mp hx with rfl | hx
      · exact matching_fixed ..
      · obtain ⟨p, -, rfl⟩ := List.mem_map.mp hx
        exact matching_data p
    have hv := readBurst_received hk h.1
    have hs := (readBurst_eq hk b).trans (runExchanges_ok hm h.1)
    rcases hb : readBurst b.length s with ⟨e | r, t⟩
    · rw [hb] at hv
      cases hv
    · rw [hb] at hv
      cases hv
      rw [discard, mapValue_ok hb] at hs
      have ht := (Prod.ext_iff.mp hs).2
      dsimp only at ht
      have hu : Upcoming t _ := ht ▸ upcoming_transferred.2 (by simpa using h.2)
      have hc : t.cfg = s.cfg := by rw [ht]; rfl
      rw [List.map_cons, readBursts, andThen_ok hb, ih (s := t) _ (by rw [hc]; exact hk) (by rw [hc]; exact hu)]
      simp

/-- READ, every exchange answered (41_debug_core.md R181, 40_framing_codec.md R148). -/
theorem opRead_received {s : State} (h : Ready s) {data : List Byte} (h1 : 1 ≤ data.length)
    (h2 : data.length ≤ 0xFFFF) (hu : Upcoming s (arrivals (repliesOf (readExchanges s.cfg data)))) :
    opRead data.length s = (.ok data, transferred s (readExchanges s.cfg data) (packetsOf (readExchanges s.cfg data))
      (repliesOf (readExchanges s.cfg data)).length) := by
  have hk := (configOk_bounds h.ok).2.2.1
  have hs := (opRead_eq h h1 h2).trans (runExchanges_ok (matching_readExchanges _ _) hu)
  have hv : (opRead data.length s).1 = .ok data := by
    rw [opRead, andThen_ok (requireRange_ok (by omega)), andThen_ok (requireOpenEnabled_ok h.link h.en),
      withState_apply, Int.toNat_natCast, chunkSizes_length h.maxBurst, readBursts_received _ _ hk hu,
      chunksOf_flatten h.maxBurst, List.nil_append]
  rcases hr : opRead data.length s with ⟨e | r, t⟩
  · rw [hr] at hv
    cases hv
  · rw [hr] at hv
    cases hv
    rw [discard, mapValue_ok hr] at hs
    exact congrArg (Prod.mk (Except.ok data)) (Prod.ext_iff.mp hs).2

/-- A READ that breaks off. -/
theorem opRead_broken {s : State} (h : Ready s) {data : List Byte} (h1 : 1 ≤ data.length) (h2 : data.length ≤ 0xFFFF)
    {done : List Exchange} {tx : List Byte} {rx : List RxEvent} {e : ErrorRecord}
    (hb : Broken (readExchanges s.cfg data) done tx rx e) (hu : Upcoming s rx) :
    opRead data.length s = (.error e, transferred s done tx rx.length) := by
  have hs := (opRead_eq h h1 h2).trans (runExchanges_broken (matching_readExchanges _ _) hb hu)
  rcases hr : opRead data.length s with ⟨e' | r, t⟩
  · rw [discard, mapValue_error hr] at hs
    cases hs
    rfl
  · rw [discard, mapValue_ok hr] at hs
    cases hs

/-- A WRITE that breaks off. -/
theorem opWrite_broken {s : State} (h : Ready s) {data : List Byte} {done : List Exchange} {tx : List Byte}
    {rx : List RxEvent} {e : ErrorRecord} (hb : Broken (writeExchanges s.cfg data) done tx rx e) (hu : Upcoming s rx) :
    opWrite data s = (.error e, transferred s done tx rx.length) := by
  rw [opWrite_eq h, runExchanges_broken (matching_writeExchanges _ _) hb hu]

end Sys2Proof.Machine
end

