-- ==== Sys2Proof/Laws/SdCommand.lean ====
section
/-! SUPPORT. The parts of an SD command, every exchange answered (43_sd_command.md R245, R246): the select and the frame,
the flush, the end; and what an error-free token gives (44_sd_response.md R281). -/

namespace Sys2Proof.Machine

theorem sdFrame_length (cmd : Nat) (arg : Word32) : (sdFrame cmd arg).length = 6 := rfl

/-- The state after the SPI_SELECT of a command, but for the streams (42_spi_bridge.md R213). -/
def cardSelected (s : State) : State := { s with ai := false, addr := s.cfg.spiCsAddr, cs := .known .sd }

theorem opSpiWrite_zip {out miso : List Byte} (hl : out.length = miso.length) {s : State} {rest : List RxEvent}
    (h : Selected s) (hr : s.rx = arrivals (exchangesRx s.cfg (out.zip miso)) ++ rest) :
    opSpiWrite out s = (.ok (), exchanged s out.length (exchangesTx s.cfg out) rest) := by
  have hw := opSpiWrite_ok (out.zip miso) s rest h.ready hr
  rw [List.map_fst_zip (by omega)] at hw
  rw [hw]
  simp [exchanged, exchangedAddr, h.ai, hl]

/-- Steps 3 and 4 of SD_SEND_CMD (43_sd_command.md R245): what is left of the exchange runs with the card selected and
the frame sent. -/
theorem commandExchange_start {cmd : Nat} {arg : Word32} {shape : Shape} {s : State} {miso : List Byte}
    {rest : List RxEvent} (h : Ready s) (hf : miso.length = 6)
    (hr : s.rx = arrivals (selectRx s.cfg .sd ++ exchangesRx s.cfg ((sdFrame cmd arg).zip miso)) ++ rest) :
    ∃ t, Selected t ∧
      t = exchanged (cardSelected s) 6 (selectTx s.cfg .sd ++ exchangesTx s.cfg (sdFrame cmd arg)) rest ∧
      commandExchange cmd arg shape s =
        (andThen (pollToken s.cfg.ncrMax []) fun p =>
          match p with
          | (none, raw) => raise (.sd cmd arg raw none)
          | (some tok, raw) => decodeReply cmd arg shape tok raw) t := by
  rw [arrivals_append, List.append_assoc] at hr
  have h1 := opSpiSelect_ok (target := .sd) h hr
  set u : State := { s with ai := false, addr := s.cfg.spiCsAddr, cs := .known .sd, tx := s.tx ++ selectTx s.cfg .sd,
                            rx := arrivals (exchangesRx s.cfg ((sdFrame cmd arg).zip miso)) ++ rest } with hu
  have k : Selected u := ⟨⟨h.ok, h.link, h.en⟩, rfl⟩
  have h2 := opSpiWrite_zip (out := sdFrame cmd arg) (by rw [hf]; rfl) k rfl
  refine ⟨exchanged u 6 (exchangesTx u.cfg (sdFrame cmd arg)) rest, exchanged_selected k _ _ _, ?_, ?_⟩
  · simp [exchanged, cardSelected, u]
  · rw [commandExchange, withState_apply, andThen_ok h1, andThen_ok h2]
    rfl

theorem flushDummies_ok {miso : List Byte} {s : State} {rest : List RxEvent} (h : Selected s)
    (hf : miso.length = s.cfg.flushN) (hr : s.rx = arrivals (dummyRx s.cfg miso) ++ rest) :
    flushDummies s = (.ok (), exchanged s miso.length (exchangesTx s.cfg (dummies s.cfg miso)) rest) := by
  have hw := opSpiWrite_zip (out := dummies s.cfg miso) (by simp [dummies]) h hr
  rw [dummies] at hw
  rw [flushDummies, withState_apply, ← hf, hw]
  simp [dummies]

/-- Steps 8 and 9 of SD_SEND_CMD (43_sd_command.md R245, R246) after an exchange that ended with `r`. -/
theorem deselectUnlessKept_ok {keep : Bool} {α : Type} {m : Op α} {s t : State} {r : Except ErrorRecord α}
    {miso : List Byte} {rest : List RxEvent} (hm : m s = (r, t)) (h : Selected t) (hf : miso.length = t.cfg.flushN)
    (hk : keep = true → r.isOk = true)
    (hr : t.rx = arrivals (dummyRx t.cfg miso ++ deselectRx t.cfg keep) ++ rest) :
    deselectUnlessKept keep (withCleanup m flushDummies) s =
      (r, if keep then exchanged t miso.length (exchangesTx t.cfg (dummies t.cfg miso)) rest
          else { t with addr := t.cfg.spiCsAddr, cs := .known .none,
                        tx := t.tx ++ exchangesTx t.cfg (dummies t.cfg miso) ++ selectTx t.cfg .none, rx := rest }) := by
  rw [arrivals_append, List.append_assoc] at hr
  have h1 := withCleanup_apply hm (flushDummies_ok h hf hr)
  have k := exchanged_selected h miso.length (exchangesTx t.cfg (dummies t.cfg miso))
    (arrivals (deselectRx t.cfg keep) ++ rest)
  cases keep with
  | true =>
    cases r with
    | error e => simp [Except.isOk, Except.toBool] at hk
    | ok a => simp [deselectUnlessKept, h1, deselectRx]
  | false =>
    have h2 := opSpiSelect_ok (target := .none) (rest := rest) k.ready rfl
    cases r with
    | error e =>
      simp only [firstError_error] at h1
      simp only [deselectUnlessKept, h1]
      rw [withCleanup_apply (raise_apply _ _) h2]
      simp [exchanged, h.ai]
    | ok a =>
      simp only [firstError_ok] at h1
      simp only [deselectUnlessKept, h1]
      rw [if_neg (by simp), withCleanup_apply (done_apply _ _) h2]
      simp [exchanged, h.ai]

/-- SD_SEND_CMD of operands in range is its shape check and its exchange (43_sd_command.md R245). -/
theorem opSdSendCmd_inRange (table : ShapeTable) {cmd : Nat} (arg : Word32) (keep : Bool) (hc : cmd ≤ 63) (s : State) :
    opSdSendCmd table cmd arg.toNat keep s =
      (andThen (requireShape table cmd) fun shape =>
        deselectUnlessKept keep (withCleanup (commandExchange cmd arg shape) flushDummies)) s := by
  have := arg.isLt
  rw [opSdSendCmd, andThen_ok (requireCmdArg_ok (by omega) (by omega) (by omega) (by omega))]
  simp

theorem decodeR1_ok {tok : Byte} (h : tok.getLsbD 7 = false) : ∃ r1, decodeR1 tok = .ok r1 ∧ r1.token = tok := by
  rw [decodeR1, h]
  exact ⟨_, rfl, rfl⟩

/-- A response without an error has no R1 error (44_sd_response.md R291). -/
theorem r1Error_of_response {sh : Shape} {tok : Byte} {ext : List Byte} {resp : SDResponse} {r1 : R1Rec} {m1 m2 : Byte}
    (h1 : decodeR1 tok = .ok r1) (h : decodeResponse sh tok ext = .ok resp) (he : sdErrorOf m1 m2 resp = false) :
    r1Error m1 r1 = false := by
  cases sh <;> simp [decodeResponse, decodeR1b, decodeR2, decodeR3, decodeR7, h1, Except.map] at h
  · subst h; exact he
  · subst h; exact he
  · subst h; simp [sdErrorOf, r2Error] at he; exact he.1
  · split at h <;> cases h
    next h2 => split at h2 <;> cases h2; exact he
  · subst h; exact he

end Sys2Proof.Machine
end

