-- ==== Sys2Proof/Laws/Broken.lean ====
section
/-! SUPPORT. Where the operations of the SPI bridge and the SD engine break off, one lemma for each (42_spi_bridge.md R213,
R215; 43_sd_command.md R244, R245; 60_exceptions.md R340). -/

namespace Sys2Proof.Machine

/-! ### The exchange lists and their bytes -/

theorem packetsOf_single (x : Exchange) : packetsOf [x] = x.packet := List.append_nil _

theorem writeExchanges_singleton {c : Config} (h : 1 ≤ c.maxBurst) (h' : 1 ≤ c.subpkt) (b : Byte) :
    writeExchanges c [b] =
      [fixedExchange (wrPacket 0) wrAckPacket .wrHdr 0, fixedExchange [b] [b] .wrData 1] := by
  rw [writeExchanges, chunksOf_singleton h]
  simp only [List.flatMap_cons, List.flatMap_nil, chunksOf_singleton h', List.map_cons, List.map_nil, List.append_nil]
  rfl

theorem readExchanges_singleton {c : Config} (h : 1 ≤ c.maxBurst) (h' : 1 ≤ c.rxChunk) (b : Byte) :
    readExchanges c [b] = [fixedExchange (rdPacket 0) rdAckPacket .rdHdr 0, dataExchange [b]] := by
  rw [readExchanges, chunksOf_singleton h]
  simp only [List.flatMap_cons, List.flatMap_nil, chunksOf_singleton h', List.map_cons, List.map_nil, List.append_nil]
  rfl

section
variable {c : Config} (hc : configOk c = true)
include hc

theorem configOk_maxBurst : 1 ≤ c.maxBurst := by
  have := configOk_bounds hc
  omega

theorem packetsOf_registerExchanges (a : Addr) (b : Byte) : packetsOf (registerExchanges c a b) = registerTx a b := by
  rw [registerExchanges, writeExchanges_singleton (configOk_maxBurst hc) (configOk_bounds hc).1]
  rfl

theorem repliesOf_registerExchanges (a : Addr) (b : Byte) : repliesOf (registerExchanges c a b) = registerRx a b := by
  rw [registerExchanges, writeExchanges_singleton (configOk_maxBurst hc) (configOk_bounds hc).1]
  rfl

theorem packetsOf_selectExchanges (t : Target) : packetsOf (selectExchanges c t) = selectTx c t := by
  rw [selectExchanges, packetsOf_cons, packetsOf_registerExchanges hc]
  rfl

theorem repliesOf_selectExchanges (t : Target) : repliesOf (selectExchanges c t) = selectRx c t := by
  rw [selectExchanges, repliesOf_cons, repliesOf_registerExchanges hc]
  rfl

theorem packetsOf_byteExchanges (pairs : List (Byte × Byte)) :
    packetsOf (byteExchanges c pairs) = exchangesTx c (pairs.map Prod.fst) := by
  induction pairs with
  | nil => rfl
  | cons p pairs ih =>
    rw [byteExchanges, List.flatMap_cons, packetsOf_append, packetsOf_append, packetsOf_registerExchanges hc,
      readExchanges_singleton (configOk_maxBurst hc) (configOk_bounds hc).2.2.1]
    exact congrArg (registerTx c.spiDataAddr p.1 ++ rdPacket 0 ++ ·) ih

theorem repliesOf_byteExchanges (pairs : List (Byte × Byte)) :
    repliesOf (byteExchanges c pairs) = exchangesRx c pairs := by
  induction pairs with
  | nil => rfl
  | cons p pairs ih =>
    rw [byteExchanges, List.flatMap_cons, repliesOf_append, repliesOf_append, repliesOf_registerExchanges hc,
      readExchanges_singleton (configOk_maxBurst hc) (configOk_bounds hc).2.2.1]
    exact (congrArg (registerRx c.spiDataAddr p.1 ++ (rdAckPacket ++ [p.2]) ++ ·) ih).trans
      (by rw [exchangesRx, exchangesRx, List.flatMap_cons, ← List.append_assoc])

theorem packetsOf_dummyExchanges (miso : List Byte) :
    packetsOf (dummyExchanges c miso) = exchangesTx c (dummies c miso) := by
  rw [dummyExchanges, packetsOf_byteExchanges hc, List.map_fst_zip (by simp [dummies])]

theorem repliesOf_dummyExchanges (miso : List Byte) : repliesOf (dummyExchanges c miso) = dummyRx c miso :=
  repliesOf_byteExchanges hc _

end

theorem dummyExchanges_cons (c : Config) (b : Byte) (bs : List Byte) :
    dummyExchanges c (b :: bs) = byteExchanges c [(c.dummy, b)] ++ dummyExchanges c bs := by
  simp [dummyExchanges, dummies, byteExchanges, List.replicate_succ]

/-! ### What is left after an operation that breaks off -/

/-- The state an operation of the bridge or the SD engine leaves: streams moved, AI, ADDR and CS as may be. -/
def Left (s : State) (tx : List Byte) (rest : List RxEvent) (t : State) : Prop :=
  ∃ ai addr cs, t = { s with ai := ai, addr := addr, cs := cs, tx := s.tx ++ tx, rx := rest }

theorem Left.ready {s t : State} {tx : List Byte} {rest : List RxEvent} (h : Left s tx rest t) (k : Ready s) :
    Ready t := by
  obtain ⟨_, _, _, rfl⟩ := h
  exact ⟨k.ok, k.link, k.en⟩

theorem Left.cfg {s t : State} {tx : List Byte} {rest : List RxEvent} (h : Left s tx rest t) : t.cfg = s.cfg := by
  obtain ⟨_, _, _, rfl⟩ := h
  rfl

theorem Left.rx {s t : State} {tx : List Byte} {rest : List RxEvent} (h : Left s tx rest t) : t.rx = rest := by
  obtain ⟨_, _, _, rfl⟩ := h
  rfl

theorem Left.trans {s t u : State} {tx ty : List Byte} {rest rest' : List RxEvent} (h : Left s tx rest t)
    (k : Left t ty rest' u) : Left s (tx ++ ty) rest' u := by
  obtain ⟨_, _, _, rfl⟩ := h
  obtain ⟨_, _, _, rfl⟩ := k
  exact ⟨_, _, _, by rw [List.append_assoc]⟩

theorem exchanged_left (s : State) (n : Nat) (tx : List Byte) (rest : List RxEvent) :
    Left s tx rest (exchanged s n tx rest) := ⟨_, _, s.cs, rfl⟩

theorem transferred_of_rx {s : State} {evs rest : List RxEvent} (h : s.rx = evs ++ rest) (done : List Exchange)
    (tx : List Byte) :
    transferred s done tx evs.length =
      { s with addr := if s.ai then s.addr + BitVec.ofNat 16 (countedBy done) else s.addr, tx := s.tx ++ tx,
               rx := rest } := by
  have h1 : (consumed { s with tx := s.tx ++ tx } evs.length) = { s with tx := s.tx ++ tx, rx := rest } :=
    consumed_of_rx (s := { s with tx := s.tx ++ tx }) h
  rw [transferred, exchangedWire, h1]

theorem exchange_broken {x : Exchange} {s : State} {tx : List Byte} {rx rest : List RxEvent} {e : ErrorRecord}
    (h : Broken [x] [] tx rx e) (hr : s.rx = rx ++ rest) :
    discard (expect x.packet x.pattern x.pattern.length x.context) s =
      (.error e, { s with tx := s.tx ++ tx, rx := rest }) := by
  have h1 : (consumed { s with tx := s.tx ++ tx } rx.length) = { s with tx := s.tx ++ tx, rx := rest } :=
    consumed_of_rx (s := { s with tx := s.tx ++ tx }) hr
  rw [discard, mapValue_error (expect_broken h (upcoming_of_rx hr)), exchangedWire, h1]

theorem opSetAddress_broken {a : Addr} {s : State} {tx : List Byte} {rx rest : List RxEvent} {e : ErrorRecord}
    (k : Ready s) (h : Broken [fixedExchange (setAddrPacket a) (setAddrAckPacket a) .setAddr 0] [] tx rx e)
    (hr : s.rx = rx ++ rest) : opSetAddress a.toNat s = (.error e, { s with tx := s.tx ++ tx, rx := rest }) := by
  rw [opSetAddress_toNat, andThen_ok (requireOpenEnabled_ok k.link k.en),
    andThen_error (show xSetAddr a s = _ from exchange_broken h hr)]

theorem opSetAutoIncrement_broken {flag : Bool} {s : State} {tx : List Byte} {rx rest : List RxEvent}
    {e : ErrorRecord} (k : Ready s)
    (h : Broken [fixedExchange (cfgWrPacket (cfgByte true flag)) cfgWrAckPacket .cfgWr 0] [] tx rx e)
    (hr : s.rx = rx ++ rest) :
    opSetAutoIncrement flag s = (.error e, { s with tx := s.tx ++ tx, rx := rest }) := by
  rw [opSetAutoIncrement, andThen_ok (requireOpenEnabled_ok k.link k.en),
    andThen_error (show xCfgWr _ s = _ from exchange_broken h hr)]

/-- A byte written at a register (42_spi_bridge.md R210) that breaks off: at the address, or after it. -/
theorem registerExchanges_broken {α : Type} {a : Addr} {b : Byte} {s : State} {done : List Exchange} {tx : List Byte}
    {rx rest : List RxEvent} {e : ErrorRecord} {k : Op α} (h : Ready s)
    (hb : Broken (registerExchanges s.cfg a b) done tx rx e) (hr : s.rx = rx ++ rest) :
    andThen (opSetAddress a.toNat) (fun _ => andThen (opWrite [b]) fun _ => k) s =
      (.error e, { s with addr := if done.length < 1 then s.addr
                                  else if s.ai then a + BitVec.ofNat 16 (countedBy done) else a,
                          tx := s.tx ++ tx, rx := rest }) := by
  rcases Broken.cons hb with ⟨rfl, hc⟩ | ⟨done', tx', rx', rfl, rfl, rfl, hc⟩
  · rw [andThen_error (opSetAddress_broken h hc hr)]
    simp
  · rw [List.append_assoc] at hr
    rw [andThen_ok (opSetAddress_ok h hr)]
    have h2 : Ready { s with addr := a, tx := s.tx ++ setAddrPacket a, rx := rx' ++ rest } := ⟨h.ok, h.link, h.en⟩
    have h3 := opWrite_broken h2 hc (upcoming_of_rx rfl)
    rw [transferred_of_rx rfl] at h3
    rw [andThen_error h3]
    simp [countedBy, fixedExchange, List.append_assoc]

/-- SPI_SELECT that breaks off (42_spi_bridge.md R213): the shadows of the steps before have changed, CS has not. -/
theorem opSpiSelect_broken {t : Target} {s : State} {done : List Exchange} {tx : List Byte} {rx rest : List RxEvent}
    {e : ErrorRecord} (h : Ready s) (hb : Broken (selectExchanges s.cfg t) done tx rx e) (hr : s.rx = rx ++ rest) :
    opSpiSelect t s =
      (.error e, { s with ai := if done.length < 1 then s.ai else false,
                          addr := if done.length < 2 then s.addr else s.cfg.spiCsAddr,
                          tx := s.tx ++ tx, rx := rest }) := by
  rw [opSpiSelect, andThen_ok (requireOpenEnabled_ok h.link h.en), withState_apply]
  rcases Broken.cons hb with ⟨rfl, hc⟩ | ⟨done', tx', rx', rfl, rfl, rfl, hc⟩
  · rw [andThen_error (opSetAutoIncrement_broken h hc hr)]
    simp
  · rw [List.append_assoc] at hr
    rw [andThen_ok (opSetAutoIncrement_ok h hr)]
    have h2 : Ready { s with ai := false, tx := s.tx ++ cfgWrPacket (cfgByte true false), rx := rx' ++ rest } :=
      ⟨h.ok, h.link, h.en⟩
    rw [registerExchanges_broken h2 hc rfl]
    simp [fixedExchange, List.append_assoc]

/-- One byte exchange that breaks off (42_spi_bridge.md R215). -/
theorem spiExchange_broken {b r : Byte} {s : State} {done : List Exchange} {tx : List Byte} {rx rest : List RxEvent}
    {e : ErrorRecord} (h : Ready s) (hb : Broken (byteExchanges s.cfg [(b, r)]) done tx rx e)
    (hr : s.rx = rx ++ rest) : ∃ t, Left s tx rest t ∧ spiExchange b s = (.error e, t) := by
  have hs : byteExchanges s.cfg [(b, r)] = registerExchanges s.cfg s.cfg.spiDataAddr b ++ readExchanges s.cfg [r] :=
    List.append_nil _
  rw [hs] at hb
  rcases Broken.append hb with hb | ⟨done', tx', rx', rfl, rfl, rfl, hc⟩
  · exact ⟨_, ⟨_, _, _, rfl⟩, by rw [spiExchange, withState_apply, registerExchanges_broken h hb hr]⟩
  · rw [repliesOf_registerExchanges h.ok, registerRx, List.append_assoc, List.append_assoc, arrivals_append,
      List.append_assoc] at hr
    rw [packetsOf_registerExchanges h.ok]
    set u : State := { s with addr := s.cfg.spiDataAddr, tx := s.tx ++ setAddrPacket s.cfg.spiDataAddr,
                              rx := arrivals (wrAckPacket ++ [b]) ++ (rx' ++ rest) } with hu
    have h2 : Ready u := ⟨h.ok, h.link, h.en⟩
    have h3 := opWrite_byte h2 rfl
    have h4 := opRead_broken (data := [r]) (s := after u (wrPacket 0 ++ [b]) (rx' ++ rest) 1)
      ⟨h2.ok, h2.link, h2.en⟩ (by simp) (by simp) hc (upcoming_of_rx rfl)
    rw [transferred_of_rx rfl] at h4
    refine ⟨_, ?_, by
      rw [spiExchange, withState_apply, andThen_ok (opSetAddress_ok h hr), andThen_ok h3]; exact h4⟩
    exact ⟨s.ai, _, s.cs, by simp only [after, registerTx, List.append_assoc, hu]; rfl⟩

/-- The byte exchanges of SPI_WRITE_READ that break off (42_spi_bridge.md R215). -/
theorem spiExchanges_broken {pairs : List (Byte × Byte)} {out : List Byte} {s : State} {done : List Exchange}
    {tx : List Byte} {rx rest : List RxEvent} {e : ErrorRecord} (h : Ready s)
    (hb : Broken (byteExchanges s.cfg pairs) done tx rx e) (hr : s.rx = rx ++ rest) :
    ∃ t, Left s tx rest t ∧ spiExchanges (pairs.map Prod.fst) out s = (.error e, t) := by
  induction pairs generalizing s out done tx rx with
  | nil => cases hb <;> simp_all [byteExchanges]
  | cons p pairs ih =>
    have hs : byteExchanges s.cfg (p :: pairs) = byteExchanges s.cfg [p] ++ byteExchanges s.cfg pairs := by
      simp [byteExchanges]
    rw [hs] at hb
    rcases Broken.append hb with hb | ⟨done', tx', rx', rfl, rfl, rfl, hc⟩
    · obtain ⟨t, ht, he⟩ := spiExchange_broken h hb hr
      exact ⟨t, ht, by rw [List.map_cons, spiExchanges, andThen_error he]⟩
    · rw [repliesOf_byteExchanges h.ok, List.append_assoc] at hr
      have h1 : s.rx = arrivals (registerRx s.cfg.spiDataAddr p.1 ++ rdAckPacket ++ [p.2]) ++ (rx' ++ rest) := by
        rw [hr]
        simp [exchangesRx]
      have h2 := spiExchange_ok h h1
      set u : State := { s with addr := if s.ai then s.cfg.spiDataAddr + 2 else s.cfg.spiDataAddr,
                                tx := s.tx ++ (registerTx s.cfg.spiDataAddr p.1 ++ rdPacket 0), rx := rx' ++ rest }
      obtain ⟨t, ht, he⟩ := ih (s := u) (out := out ++ [p.2]) ⟨h.ok, h.link, h.en⟩ hc rfl
      refine ⟨t, ?_, by rw [List.map_cons, spiExchanges, andThen_ok h2]; exact he⟩
      rw [packetsOf_byteExchanges h.ok]
      exact Left.trans (t := u) (rest := rx' ++ rest) ⟨s.ai, u.addr, s.cs, by simp [exchangesTx, u]⟩ ht

theorem opSpiWriteRead_broken {pairs : List (Byte × Byte)} {s : State} {done : List Exchange} {tx : List Byte}
    {rx rest : List RxEvent} {e : ErrorRecord} (h : Ready s) (hb : Broken (byteExchanges s.cfg pairs) done tx rx e)
    (hr : s.rx = rx ++ rest) :
    ∃ t, Left s tx rest t ∧ opSpiWriteRead (pairs.map Prod.fst) s = (.error e, t) := by
  obtain ⟨t, ht, he⟩ := spiExchanges_broken (out := []) h hb hr
  exact ⟨t, ht, by rw [opSpiWriteRead, andThen_ok (requireOpenEnabled_ok h.link h.en), he]⟩

theorem opSpiWrite_broken {out miso : List Byte} (hl : out.length = miso.length) {s : State} {done : List Exchange}
    {tx : List Byte} {rx rest : List RxEvent} {e : ErrorRecord} (h : Ready s)
    (hb : Broken (byteExchanges s.cfg (out.zip miso)) done tx rx e) (hr : s.rx = rx ++ rest) :
    ∃ t, Left s tx rest t ∧ opSpiWrite out s = (.error e, t) := by
  obtain ⟨t, ht, he⟩ := opSpiWriteRead_broken h hb hr
  rw [List.map_fst_zip (by omega)] at he
  exact ⟨t, ht, mapValue_error he⟩

theorem clockDummy_broken {b : Byte} {s : State} {done : List Exchange} {tx : List Byte} {rx rest : List RxEvent}
    {e : ErrorRecord} (h : Ready s) (hb : Broken (byteExchanges s.cfg [(s.cfg.dummy, b)]) done tx rx e)
    (hr : s.rx = rx ++ rest) : ∃ t, Left s tx rest t ∧ clockDummy s = (.error e, t) := by
  obtain ⟨t, ht, he⟩ := opSpiWriteRead_broken h hb hr
  exact ⟨t, ht, by rw [clockDummy, withState_apply]; exact mapValue_error he⟩

/-- The extension bytes that break off (43_sd_command.md R250). -/
theorem readExtension_broken {miso ext : List Byte} {s : State} {done : List Exchange} {tx : List Byte}
    {rx rest : List RxEvent} {e : ErrorRecord} (h : Selected s) (hb : Broken (dummyExchanges s.cfg miso) done tx rx e)
    (hr : s.rx = rx ++ rest) : ∃ t, Left s tx rest t ∧ readExtension miso.length ext s = (.error e, t) := by
  induction miso generalizing s ext done tx rx with
  | nil => cases hb <;> simp_all [dummyExchanges, dummies, byteExchanges]
  | cons b bs ih =>
    rw [dummyExchanges_cons] at hb
    rcases Broken.append hb with hb | ⟨done', tx', rx', rfl, rfl, rfl, hc⟩
    · obtain ⟨t, ht, he⟩ := clockDummy_broken h.ready hb hr
      exact ⟨t, ht, by rw [List.length_cons, readExtension, andThen_error he]⟩
    · rw [repliesOf_byteExchanges h.ready.ok, List.append_assoc] at hr
      have h1 := clockDummy_ok (b := b) (rest := rx' ++ rest) h (by rw [hr]; simp [exchangesRx])
      obtain ⟨t, ht, he⟩ := ih (s := exchanged s _ _ _) (ext := ext ++ [b]) (exchanged_selected h _ _ _) hc rfl
      refine ⟨t, ?_, by rw [List.length_cons, readExtension, andThen_ok h1]; exact he⟩
      rw [packetsOf_byteExchanges h.ready.ok]
      refine Left.trans (rest := rx' ++ rest) ?_ ht
      simpa [exchangesTx] using exchanged_left s 1 _ (rx' ++ rest)

/-- A poll that breaks off (43_sd_command.md R244). -/
theorem pollToken_broken {n : Nat} {pre raw : List Byte} {tok : Byte} {s : State} {done : List Exchange}
    {tx : List Byte} {rx rest : List RxEvent} {e : ErrorRecord} (h : Selected s) (hn : pre.length < n)
    (hpre : ∀ b ∈ pre, b.getLsbD 7 = true) (hb : Broken (dummyExchanges s.cfg (pre ++ [tok])) done tx rx e)
    (hr : s.rx = rx ++ rest) : ∃ t, Left s tx rest t ∧ pollToken n raw s = (.error e, t) := by
  induction pre generalizing s raw n done tx rx with
  | nil =>
    obtain ⟨m, rfl⟩ : ∃ m, n = m + 1 := ⟨n - 1, by simp at hn; omega⟩
    have hs : dummyExchanges s.cfg ([] ++ [tok]) = byteExchanges s.cfg [(s.cfg.dummy, tok)] := by
      rw [List.nil_append, dummyExchanges_cons]
      exact List.append_nil _
    obtain ⟨t, ht, he⟩ := clockDummy_broken h.ready (hs ▸ hb) hr
    exact ⟨t, ht, by rw [pollToken, andThen_error he]⟩
  | cons b bs ih =>
    obtain ⟨m, rfl⟩ : ∃ m, n = m + 1 := ⟨n - 1, by simp at hn; omega⟩
    rw [List.cons_append, dummyExchanges_cons] at hb
    rcases Broken.append hb with hb | ⟨done', tx', rx', rfl, rfl, rfl, hc⟩
    · obtain ⟨t, ht, he⟩ := clockDummy_broken h.ready hb hr
      exact ⟨t, ht, by rw [pollToken, andThen_error he]⟩
    · rw [repliesOf_byteExchanges h.ready.ok, List.append_assoc] at hr
      have h1 := clockDummy_ok (b := b) (rest := rx' ++ rest) h (by rw [hr]; simp [exchangesRx])
      obtain ⟨t, ht, he⟩ := ih (s := exchanged s _ _ _) (raw := raw ++ [b]) (exchanged_selected h _ _ _)
        (show bs.length < m by simpa using hn) (fun x hx => hpre x (List.mem_cons_of_mem _ hx)) hc rfl
      refine ⟨t, ?_, by
        rw [pollToken, andThen_ok h1, hpre b List.mem_cons_self, if_pos rfl]; exact he⟩
      rw [packetsOf_byteExchanges h.ready.ok]
      refine Left.trans (rest := rx' ++ rest) ?_ ht
      simpa [exchangesTx] using exchanged_left s 1 _ (rx' ++ rest)

/-! ### An SD command -/

theorem Polled.ok {r : CardReply} {tok : Byte} {s : State} {rest : List RxEvent} (h : Selected s)
    (hp : Polled s.cfg r tok) (hr : s.rx = arrivals (dummyRx s.cfg r.poll) ++ rest) :
    pollToken s.cfg.ncrMax [] s =
      (.ok (some tok, r.poll), exchanged s r.poll.length (exchangesTx s.cfg (dummies s.cfg r.poll)) rest) := by
  obtain ⟨pre, hq, hpre, htok, hn⟩ := hp
  rw [hq] at hr hn ⊢
  rw [pollToken_ok s.cfg.ncrMax pre [] tok s rest h (by simp at hn; omega) hpre htok hr]
  simp

/-- What is left of the exchange after its select and its frame. -/
abbrev restOfTry (c : Config) (cmd : Nat) (arg : Word32) (shape : Shape) : Op SdReply :=
  andThen (pollToken c.ncrMax []) fun p =>
    match p with
    | (none, raw) => raise (.sd cmd arg raw none)
    | (some tok, raw) => decodeReply cmd arg shape tok raw

/-- A token without an R1 error is followed by the extension (43_sd_command.md R245, steps 5 to 7). -/
theorem decodeReply_extension {cmd : Nat} {arg : Word32} {shape : Shape} {tok : Byte} {raw : List Byte} {r1 : R1Rec}
    {s : State} (h1 : decodeR1 tok = .ok r1) (he : r1Error s.cfg.r1ErrMask r1 = false) :
    decodeReply cmd arg shape tok raw s =
      (andThen (readExtension (extraBytes shape) []) fun ext =>
        andThen (computed (decodeResponse shape tok ext)) fun resp =>
        if sdErrorOf s.cfg.r1ErrMask s.cfg.r2ErrMask resp then raise (.sd cmd arg (raw ++ ext) (some resp))
        else done ⟨resp, raw ++ ext⟩) s := by
  rw [decodeReply, withState_apply, andThen_ok (show computed (decodeR1 tok) s = (.ok r1, s) by rw [h1]; rfl),
    if_neg (by simp [he])]

/-- An answered extension: the response, or its error (43_sd_command.md R245, steps 6 and 7). -/
theorem decodeReply_ok {cmd : Nat} {arg : Word32} {shape : Shape} {tok : Byte} {raw ext : List Byte} {r1 : R1Rec}
    {resp : SDResponse} {s : State} {rest : List RxEvent} (h : Selected s) (h1 : decodeR1 tok = .ok r1)
    (he : r1Error s.cfg.r1ErrMask r1 = false) (hx : ext.length = extraBytes shape)
    (hd : decodeResponse shape tok ext = .ok resp) (hr : s.rx = arrivals (dummyRx s.cfg ext) ++ rest) :
    decodeReply cmd arg shape tok raw s =
      (if sdErrorOf s.cfg.r1ErrMask s.cfg.r2ErrMask resp then .error (.sd cmd arg (raw ++ ext) (some resp))
        else .ok ⟨resp, raw ++ ext⟩,
        exchanged s ext.length (exchangesTx s.cfg (dummies s.cfg ext)) rest) := by
  rw [decodeReply_extension h1 he, ← hx, andThen_ok (readExtension_ok ext [] s rest h hr), List.nil_append,
    andThen_ok (show computed (decodeResponse shape tok ext) _ = (.ok resp, _) by rw [hd]; rfl)]
  split <;> rfl

/-- The state in which the poll starts. -/
theorem commandExchange_rx {cmd : Nat} {arg : Word32} {shape : Shape} {s : State} {miso : List Byte}
    {rest : List RxEvent} (h : Ready s) (hf : miso.length = 6)
    (hr : s.rx = arrivals (selectRx s.cfg .sd ++ exchangesRx s.cfg ((sdFrame cmd arg).zip miso)) ++ rest) :
    ∃ t, Selected t ∧ t.cfg = s.cfg ∧ t.rx = rest ∧
      t = exchanged (cardSelected s) 6 (selectTx s.cfg .sd ++ exchangesTx s.cfg (sdFrame cmd arg)) rest ∧
      Left s (selectTx s.cfg .sd ++ exchangesTx s.cfg (sdFrame cmd arg)) rest t ∧
      commandExchange cmd arg shape s = restOfTry t.cfg cmd arg shape t := by
  obtain ⟨t, k, rfl, he⟩ := commandExchange_start h hf hr
  exact ⟨_, k, rfl, rfl, rfl, ⟨_, _, _, rfl⟩, he⟩

/-- Steps 3 to 7 of SD_SEND_CMD when they succeed (43_sd_command.md R245). -/
theorem commandExchange_succeeds {cmd : Nat} {arg : Word32} {shape : Shape} {s : State} {tx : List Byte}
    {rx rest : List RxEvent} {reply : SdReply} (h : Ready s) (hs : TrySucceeds s.cfg cmd arg shape tx rx reply)
    (hr : s.rx = rx ++ rest) :
    ∃ t, Selected t ∧ t = { cardSelected s with addr := s.cfg.spiDataAddr, tx := s.tx ++ tx, rx := rest } ∧
      commandExchange cmd arg shape s = (.ok reply, t) := by
  obtain ⟨r, tok, resp, hf, hp, hx, hd, he⟩ := hs
  have htok : tok.getLsbD 7 = false := hp.choose_spec.2.2.1
  obtain ⟨r1, h1, -⟩ := decodeR1_ok htok
  have hE := r1Error_of_response h1 hd he
  simp only [tryRx, arrivals_append, List.append_assoc] at hr
  rw [← List.append_assoc, ← arrivals_append] at hr
  obtain ⟨t, k, hc, hrx, ht, -, hce⟩ := commandExchange_rx (cmd := cmd) (arg := arg) (shape := shape) h hf hr
  have k2 := exchanged_selected k r.poll.length (exchangesTx t.cfg (dummies t.cfg r.poll))
    (arrivals (dummyRx s.cfg r.ext) ++ rest)
  have hpoll := Polled.ok (rest := arrivals (dummyRx s.cfg r.ext) ++ rest) k (by rw [hc]; exact hp)
    (by rw [hrx, hc])
  have hrep := decodeReply_ok (cmd := cmd) (arg := arg) (raw := r.poll) (rest := rest) k2 h1
    (by show r1Error t.cfg.r1ErrMask r1 = false; rw [hc]; exact hE) hx hd
    (by show _ = arrivals (dummyRx t.cfg r.ext) ++ rest; rw [hc]; rfl)
  have he2 : sdErrorOf t.cfg.r1ErrMask t.cfg.r2ErrMask resp = false := by rw [hc]; exact he
  refine ⟨_, exchanged_selected k2 r.ext.length (exchangesTx t.cfg (dummies t.cfg r.ext)) rest, ?_, ?_⟩
  · simp [exchanged, ht, tryTx, cardSelected]
  · rw [hce, restOfTry, andThen_ok hpoll]
    simp only [hrep, exchanged_cfg, he2, Bool.false_eq_true, if_false]

/-- Steps 3 to 7 of SD_SEND_CMD when they fail (43_sd_command.md R245). -/
theorem commandExchange_fails {cmd : Nat} {arg : Word32} {shape : Shape} {s : State} {tx : List Byte}
    {rx rest : List RxEvent} {e : ErrorRecord} (h : Ready s) (hs : TryFails s.cfg cmd arg shape tx rx e)
    (hr : s.rx = rx ++ rest) : ∃ t, Left s tx rest t ∧ commandExchange cmd arg shape s = (.error e, t) := by
  cases hs with
  | noToken r hf hm hn hx =>
    simp only [tryRx, arrivals_append, List.append_assoc] at hr
    rw [← List.append_assoc, ← arrivals_append] at hr
    obtain ⟨t, k, hc, hrx, -, hl, hce⟩ := commandExchange_rx (cmd := cmd) (arg := arg) (shape := shape) h hf hr
    have hpoll := pollToken_none r.poll [] t (arrivals (dummyRx s.cfg r.ext) ++ rest) k hm (by rw [hrx, hc])
    refine ⟨_, ?_, by rw [hce, restOfTry, hc, ← hn, andThen_ok hpoll]; rfl⟩
    simpa [tryTx, hx, hc, exchangesTx, dummies, dummyRx, exchangesRx] using
      hl.trans (exchanged_left t r.poll.length (exchangesTx t.cfg (dummies t.cfg r.poll)) _)
  | r1Error r tok r1 hf hp h1 hE hx =>
    simp only [tryRx, arrivals_append, List.append_assoc] at hr
    rw [← List.append_assoc, ← arrivals_append] at hr
    obtain ⟨t, k, hc, hrx, -, hl, hce⟩ := commandExchange_rx (cmd := cmd) (arg := arg) (shape := shape) h hf hr
    have hpoll := Polled.ok (rest := arrivals (dummyRx s.cfg r.ext) ++ rest) k (by rw [hc]; exact hp) (by rw [hrx, hc])
    refine ⟨_, ?_, by
      rw [hce, restOfTry, andThen_ok hpoll]
      simp only [decodeReply, withState_apply]
      rw [andThen_ok (show computed (decodeR1 tok) _ = (.ok r1, _) by rw [h1]; rfl), if_pos]
      · rfl
      · show Machine.r1Error t.cfg.r1ErrMask r1 = true
        rw [hc]; exact hE⟩
    simpa [tryTx, hx, hc, exchangesTx, dummies, dummyRx, exchangesRx] using
      hl.trans (exchanged_left t r.poll.length (exchangesTx t.cfg (dummies t.cfg r.poll)) _)
  | responseError r tok r1 resp hf hp h1 hE hx hd he =>
    simp only [tryRx, arrivals_append, List.append_assoc] at hr
    rw [← List.append_assoc, ← arrivals_append] at hr
    obtain ⟨t, k, hc, hrx, -, hl, hce⟩ := commandExchange_rx (cmd := cmd) (arg := arg) (shape := shape) h hf hr
    have hpoll := Polled.ok (rest := arrivals (dummyRx s.cfg r.ext) ++ rest) k (by rw [hc]; exact hp) (by rw [hrx, hc])
    have k2 := exchanged_selected k r.poll.length (exchangesTx t.cfg (dummies t.cfg r.poll))
      (arrivals (dummyRx s.cfg r.ext) ++ rest)
    have hrep := decodeReply_ok (cmd := cmd) (arg := arg) (raw := r.poll) (rest := rest) k2 h1
      (by show Machine.r1Error t.cfg.r1ErrMask r1 = false; rw [hc]; exact hE) hx hd
      (by show _ = arrivals (dummyRx t.cfg r.ext) ++ rest; rw [hc]; rfl)
    have he2 : sdErrorOf t.cfg.r1ErrMask t.cfg.r2ErrMask resp = true := by rw [hc]; exact he
    refine ⟨_, ?_, by
      rw [hce, restOfTry, andThen_ok hpoll]
      simp only [hrep, exchanged_cfg, he2, if_true]
      rfl⟩
    have h3 := (hl.trans (exchanged_left t r.poll.length (exchangesTx t.cfg (dummies t.cfg r.poll))
      (arrivals (dummyRx s.cfg r.ext) ++ rest))).trans
      (exchanged_left _ r.ext.length (exchangesTx t.cfg (dummies t.cfg r.ext)) rest)
    rw [hc] at h3 ⊢
    exact h3
  | exchange r tok r1 d _ _ _ hf hp h1 hE hx hb =>
    rw [tryExchanges, List.append_assoc, List.append_assoc] at hb
    rcases Broken.append hb with hb | ⟨d1, tx1, rx1, rfl, rfl, rfl, hb1⟩
    · rw [commandExchange, withState_apply]
      exact ⟨_, ⟨_, _, s.cs, rfl⟩, andThen_error (opSpiSelect_broken h hb hr)⟩
    · rw [repliesOf_selectExchanges h.ok, List.append_assoc] at hr
      rw [packetsOf_selectExchanges h.ok]
      rcases Broken.append hb1 with hb | ⟨d2, tx2, rx2, rfl, rfl, rfl, hb2⟩
      · have hsel := opSpiSelect_ok (target := .sd) h hr
        set u : State := { s with ai := false, addr := s.cfg.spiCsAddr, cs := .known .sd,
                                  tx := s.tx ++ selectTx s.cfg .sd, rx := rx1 ++ rest }
        obtain ⟨t, ht, he⟩ := opSpiWrite_broken (out := sdFrame cmd arg) (miso := r.frame) (s := u) (by rw [hf]; rfl)
          ⟨h.ok, h.link, h.en⟩ hb rfl
        exact ⟨t, Left.trans (t := u) (rest := rx1 ++ rest) ⟨_, _, _, rfl⟩ ht, by
          rw [commandExchange, withState_apply, andThen_ok hsel, andThen_error he]⟩
      · rw [repliesOf_byteExchanges h.ok, List.append_assoc, ← List.append_assoc (arrivals (selectRx _ _)),
          ← arrivals_append] at hr
        rw [packetsOf_byteExchanges h.ok, List.map_fst_zip (by rw [hf]; exact le_rfl), ← List.append_assoc]
        obtain ⟨t, k, hc, hrx, -, hl, hce⟩ := commandExchange_rx (cmd := cmd) (arg := arg) (shape := shape) h hf hr
        rw [hce, restOfTry]
        rcases Broken.append hb2 with hb | ⟨d3, tx3, rx3, rfl, rfl, rfl, hb3⟩
        · obtain ⟨pre, hq, hpre, -, hn⟩ := hp
          rw [hq] at hb hn
          obtain ⟨u, hu, he⟩ := pollToken_broken (raw := []) k (n := t.cfg.ncrMax)
            (by rw [hc]; simp at hn; omega) hpre (by rw [hc]; exact hb) hrx
          exact ⟨u, hl.trans hu, andThen_error he⟩
        · rw [repliesOf_dummyExchanges h.ok, List.append_assoc] at hrx
          rw [packetsOf_dummyExchanges h.ok]
          have hpoll := Polled.ok (rest := rx3 ++ rest) k (by rw [hc]; exact hp) (by rw [hrx, hc])
          have k2 := exchanged_selected k r.poll.length (exchangesTx t.cfg (dummies t.cfg r.poll)) (rx3 ++ rest)
          obtain ⟨u, hu, he⟩ := readExtension_broken (ext := []) k2 (miso := r.ext)
            (by show Broken (dummyExchanges t.cfg r.ext) _ _ _ _; rw [hc]; exact hb3) rfl
          refine ⟨u, ?_, ?_⟩
          · have h4 := (hl.trans (exchanged_left t r.poll.length (exchangesTx t.cfg (dummies t.cfg r.poll))
              (rx3 ++ rest))).trans hu
            rw [hc] at h4
            simpa using h4
          · rw [andThen_ok hpoll]
            simp only
            rw [decodeReply_extension h1 (by
              show Machine.r1Error t.cfg.r1ErrMask r1 = false; rw [hc]; exact hE), ← hx, andThen_error he]

/-! ### The cleanups of an SD command -/

/-- The state in which an SD command ends whose last select or deselect was of a target (43_sd_command.md R245). -/
def sdEnded (s : State) (addr : Addr) (cs : Target) (tx : List Byte) (rest : List RxEvent) : State :=
  { s with ai := false, addr := addr, cs := .known cs, tx := s.tx ++ tx, rx := rest }

theorem deliver_sdEnded (s : State) (addr : Addr) (cs : Target) (tx : List Byte) (rest : List RxEvent) (r : Result) :
    deliver r (sdEnded s addr cs tx rest) = afterSd s addr cs tx rest r := rfl

theorem flushDummies_left {flush : List Byte} {s : State} {rest : List RxEvent} (h : Ready s)
    (hf : flush.length = s.cfg.flushN) (hr : s.rx = arrivals (dummyRx s.cfg flush) ++ rest) :
    ∃ t, Left s (exchangesTx s.cfg (dummies s.cfg flush)) rest t ∧ flushDummies s = (.ok (), t) := by
  have hw := opSpiWrite_ok ((dummies s.cfg flush).zip flush) s rest h hr
  rw [List.map_fst_zip (by simp [dummies])] at hw
  refine ⟨_, ?_, by rw [flushDummies, withState_apply, ← hf]; exact hw⟩
  exact ⟨s.ai, _, s.cs, rfl⟩

theorem flushDummies_broken {flush : List Byte} {s : State} {done : List Exchange} {tx : List Byte}
    {rx rest : List RxEvent} {e : ErrorRecord} (h : Ready s) (hf : flush.length = s.cfg.flushN)
    (hb : Broken (dummyExchanges s.cfg flush) done tx rx e) (hr : s.rx = rx ++ rest) :
    ∃ t, Left s tx rest t ∧ flushDummies s = (.error e, t) := by
  obtain ⟨t, ht, he⟩ := opSpiWrite_broken (out := dummies s.cfg flush) (by simp [dummies]) h hb hr
  exact ⟨t, ht, by rw [flushDummies, withState_apply, ← hf]; exact he⟩

/-- The deselect, answered, after an operation of the engine. -/
theorem deselect_left {s t : State} {tx : List Byte} {rest : List RxEvent} (h : Ready s)
    (hl : Left s tx (arrivals (selectRx s.cfg .none) ++ rest) t) :
    opSpiSelect .none t = (.ok (), sdEnded s s.cfg.spiCsAddr .none (tx ++ selectTx s.cfg .none) rest) := by
  have hr := hl.rx
  rw [← hl.cfg] at hr
  rw [opSpiSelect_ok (hl.ready h) hr]
  obtain ⟨_, _, _, rfl⟩ := hl
  simp [sdEnded]

/-- A main part that failed, with its cleanups (43_sd_command.md R246, 60_exceptions.md R346): its error is the result,
whatever they do. -/
theorem deselectUnlessKept_error {α : Type} {keep : Bool} {m : Op α} {s t : State} {e : ErrorRecord}
    (hm : m s = (.error e, t)) :
    deselectUnlessKept keep (withCleanup m flushDummies) s =
      (.error e, (opSpiSelect .none (flushDummies t).2).2) := by
  simp only [deselectUnlessKept, withCleanup_error hm, withCleanup_error (raise_apply e _)]

/-- A flush that failed after a success: its error is the result, and the deselect is made (43_sd_command.md R246). -/
theorem deselectUnlessKept_flushError {α : Type} {keep : Bool} {m : Op α} {s t u : State} {a : α} {e : ErrorRecord}
    (hm : m s = (.ok a, t)) (hf : flushDummies t = (.error e, u)) :
    deselectUnlessKept keep (withCleanup m flushDummies) s = (.error e, (opSpiSelect .none u).2) := by
  have h1 : withCleanup m flushDummies s = (.error e, u) := by rw [withCleanup_apply hm hf, firstError_cleanup]
  simp only [deselectUnlessKept, h1, withCleanup_error (raise_apply e _)]

/-- A deselect that failed after a success: its error is the result (43_sd_command.md R246). -/
theorem deselectUnlessKept_deselectError {α : Type} {m : Op α} {s t u v : State} {a : α} {e : ErrorRecord}
    (hm : m s = (.ok a, t)) (hf : flushDummies t = (.ok (), u)) (hd : opSpiSelect .none u = (.error e, v)) :
    deselectUnlessKept false (withCleanup m flushDummies) s = (.error e, v) := by
  have h1 : withCleanup m flushDummies s = (.ok a, u) := by rw [withCleanup_apply hm hf, firstError_ok]
  simp only [deselectUnlessKept, h1]
  rw [if_neg (by simp), withCleanup_apply (done_apply _ _) hd, firstError_cleanup]

section
variable {table : ShapeTable} {cmd : Nat} {arg : Word32} {keep : Bool} {shape : Shape} {s : State} (h : Ready s)
  (hc : cmd ≤ 63) (hs : lookupShape table cmd = some shape)
include hc hs

theorem opSdSendCmd_shaped : opSdSendCmd table cmd arg.toNat keep s =
    deselectUnlessKept keep (withCleanup (commandExchange cmd arg shape) flushDummies) s := by
  rw [opSdSendCmd_inRange table arg keep hc, andThen_ok (show requireShape table cmd s = (.ok shape, s) by
    simp only [requireShape, hs])]

include h

/-- The error of the main part is the result, whatever the cleanups do. -/
theorem opSdSendCmd_tryError {tx : List Byte} {rx rest : List RxEvent} {e : ErrorRecord}
    (hf : TryFails s.cfg cmd arg shape tx rx e) (hr : s.rx = rx ++ rest) :
    (opSdSendCmd table cmd arg.toNat keep s).1 = .error e := by
  obtain ⟨t, -, he⟩ := commandExchange_fails h hf hr
  rw [opSdSendCmd_shaped hc hs, deselectUnlessKept_error he]

/-- The error of the flush after a success is the result, whatever the deselect does. -/
theorem opSdSendCmd_flushError {tx tx' flush : List Byte} {rx rx' rest : List RxEvent} {reply : SdReply}
    {done : List Exchange} {e : ErrorRecord} (ht : TrySucceeds s.cfg cmd arg shape tx rx reply)
    (hl : flush.length = s.cfg.flushN) (hb : Broken (dummyExchanges s.cfg flush) done tx' rx' e)
    (hr : s.rx = rx ++ rx' ++ rest) : (opSdSendCmd table cmd arg.toNat keep s).1 = .error e := by
  rw [List.append_assoc] at hr
  obtain ⟨t, k, ht, he⟩ := commandExchange_succeeds h ht hr
  have hcfg : t.cfg = s.cfg := by rw [ht]; rfl
  obtain ⟨u, -, hu⟩ := flushDummies_broken k.ready (by rw [hcfg]; exact hl) (by rw [hcfg]; exact hb)
    (show t.rx = rx' ++ rest by rw [ht])
  rw [opSdSendCmd_shaped hc hs, deselectUnlessKept_flushError he hu]

/-- SD_SEND_CMD that fails after its entry checks (43_sd_command.md R245, R246). -/
theorem opSdSendCmd_fails {tx : List Byte} {rx rest : List RxEvent} {e : ErrorRecord} {addr : Addr} {cs : Target}
    (hf : CommandFails s.cfg cmd arg shape keep tx rx e addr cs) (hr : s.rx = rx ++ rest) :
    opSdSendCmd table cmd arg.toNat keep s = (.error e, sdEnded s addr cs tx rest) := by
  rw [opSdSendCmd_shaped hc hs]
  cases hf with
  | inTry tx rx e flush hf hl =>
    rw [arrivals_append, List.append_assoc, List.append_assoc] at hr
    obtain ⟨t, ht, he⟩ := commandExchange_fails h hf hr
    obtain ⟨u, hu, hfl⟩ := flushDummies_left (ht.ready h) (by rw [ht.cfg]; exact hl) (by rw [ht.cfg]; exact ht.rx)
    rw [ht.cfg] at hu
    rw [deselectUnlessKept_error he, hfl, deselect_left h (ht.trans hu)]
  | inFlush tx rx reply flush done tx' rx' e ht hl hb =>
    rw [List.append_assoc, List.append_assoc] at hr
    obtain ⟨t, k, ht, he⟩ := commandExchange_succeeds h ht hr
    have hl1 : Left s tx _ t := ⟨_, _, _, ht⟩
    obtain ⟨u, hu, hfl⟩ := flushDummies_broken (k.ready) (by rw [hl1.cfg]; exact hl) (by rw [hl1.cfg]; exact hb) hl1.rx
    rw [deselectUnlessKept_flushError he hfl, deselect_left h (hl1.trans hu)]
  | inDeselect tx rx reply flush done tx' rx' e hk ht hl hb =>
    subst hk
    rw [List.append_assoc, List.append_assoc] at hr
    obtain ⟨t, k, ht, he⟩ := commandExchange_succeeds h ht hr
    have hcfg : t.cfg = s.cfg := by rw [ht]; rfl
    have hfl := flushDummies_ok (miso := flush) (rest := rx' ++ rest) k (by rw [hcfg]; exact hl)
      (by rw [hcfg, ht])
    have k2 := exchanged_selected k flush.length (exchangesTx t.cfg (dummies t.cfg flush)) (rx' ++ rest)
    have hd := opSpiSelect_broken k2.ready (by rw [exchanged_cfg, hcfg]; exact hb) rfl
    rw [deselectUnlessKept_deselectError he hfl hd]
    simp only [sdEnded, exchanged, ht, cardSelected]
    split <;> split <;> simp

/-- SD_SEND_CMD that succeeds, the card deselected (43_sd_command.md R245). -/
theorem opSdSendCmd_succeeds {tx flush : List Byte} {rx rest : List RxEvent} {reply : SdReply}
    (ht : TrySucceeds s.cfg cmd arg shape tx rx reply) (hl : flush.length = s.cfg.flushN)
    (hr : s.rx = rx ++ arrivals (dummyRx s.cfg flush ++ selectRx s.cfg .none) ++ rest) :
    opSdSendCmd table cmd arg.toNat false s =
      (.ok reply, sdEnded s s.cfg.spiCsAddr .none
        (tx ++ exchangesTx s.cfg (dummies s.cfg flush) ++ selectTx s.cfg .none) rest) := by
  rw [List.append_assoc] at hr
  obtain ⟨t, k, ht, he⟩ := commandExchange_succeeds h ht hr
  have hcfg : t.cfg = s.cfg := by rw [ht]; rfl
  rw [opSdSendCmd_shaped hc hs, deselectUnlessKept_ok (keep := false) (rest := rest) he k (by rw [hcfg]; exact hl)
    (by simp) (by rw [hcfg, ht]; rfl)]
  simp [sdEnded, ht, cardSelected]

end

end Sys2Proof.Machine
end

