-- ==== Sys2Proof/Laws/PerInstr.lean ====
section
/-! SUPPORT. The family of statements with one lemma per instruction: which byte opens the encoding of each row. -/

namespace Sys2Proof.Laws.FirstByte

open Sys2Proof

/-- The first byte of each row: the tag of a host request (30_encoding.md R110), the opcode of a wire packet (R81), or
`0x40 | index` of an SD frame (R92). -/
def codeOf : Instr → Byte
  | .init _ => 0x01
  | .close => 0x02
  | .enableCore => 0x03
  | .disableCore => 0x04
  | .setAddress _ => 0x05
  | .setAutoIncrement _ => 0x06
  | .enableAutoIncrement => 0x07
  | .disableAutoIncrement => 0x08
  | .readConfig => 0x09
  | .write _ => 0x0A
  | .read _ => 0x0B
  | .withCoreEnabled _ => 0x0C
  | .sendAndExpect _ _ _ _ => 0x10
  | .scatter _ _ => 0x11
  | .spiSetSpeed _ => 0x20
  | .spiSelect _ => 0x21
  | .spiDeselect => 0x22
  | .spiWriteRead _ => 0x23
  | .spiWrite _ => 0x24
  | .sdBuildFrame _ _ => 0x30
  | .sdSendCmd _ _ _ => 0x31
  | .sdSendAcmd _ _ _ => 0x32
  | .sdDecodeR1 _ => 0x40
  | .sdDecodeR1b _ _ => 0x41
  | .sdDecodeR2 _ _ => 0x42
  | .sdDecodeR3 _ _ _ _ _ => 0x43
  | .sdDecodeR7 _ _ _ _ _ => 0x44
  | .sdError _ => 0x45
  | .crc7 _ => 0x50
  | .cfgRd => 0x02
  | .cfgRdAck _ => 0x03
  | .cfgWr _ _ => 0x04
  | .cfgWrAck => 0x05
  | .setAddr _ => 0x10
  | .setAddrAck _ => 0x11
  | .rd _ => 0x20
  | .rdAck => 0x21
  | .wr _ => 0x30
  | .wrAck => 0x31
  | .cmd0GoIdleState _ _ _ => 0x40
  | .cmd1SendOpCond _ _ _ => 0x41
  | .cmd6SwitchFunc _ _ _ => 0x46
  | .cmd8SendIfCond _ _ _ => 0x48
  | .cmd9SendCsd _ _ _ => 0x49
  | .cmd10SendCid _ _ _ => 0x4A
  | .cmd12StopTransmission _ _ _ => 0x4C
  | .cmd13SendStatus _ _ _ => 0x4D
  | .cmd16SetBlocklen _ _ _ => 0x50
  | .cmd17ReadSingleBlock _ _ _ => 0x51
  | .cmd18ReadMultipleBlock _ _ _ => 0x52
  | .cmd24WriteBlock _ _ _ => 0x58
  | .cmd25WriteMultipleBlock _ _ _ => 0x59
  | .cmd27ProgramCsd _ _ _ => 0x5B
  | .cmd28SetWriteProt _ _ _ => 0x5C
  | .cmd29ClrWriteProt _ _ _ => 0x5D
  | .cmd30SendWriteProt _ _ _ => 0x5E
  | .cmd32EraseWrBlkStartAddr _ _ _ => 0x60
  | .cmd33EraseWrBlkEndAddr _ _ _ => 0x61
  | .cmd38Erase _ _ _ => 0x66
  | .cmd42LockUnlock _ _ _ => 0x6A
  | .cmd55AppCmd _ _ _ => 0x77
  | .cmd56GenCmd _ _ _ => 0x78
  | .cmd58ReadOcr _ _ _ => 0x7A
  | .cmd59CrcOnOff _ _ _ => 0x7B
  | .acmd13SdStatus _ _ _ => 0x4D
  | .acmd22SendNumWrBlocks _ _ _ => 0x56
  | .acmd23SetWrBlkEraseCount _ _ _ => 0x57
  | .acmd41SdSendOpCond _ _ _ => 0x69
  | .acmd42SetClrCardDetect _ _ _ => 0x6A
  | .acmd51SendScr _ _ _ => 0x73

/-- The encoding of an instruction begins with the byte of its row. -/
def Statement (i : Instr) : Prop := ∃ rest, encode i = codeOf i :: rest

theorem init a : Statement (.init a) := ⟨_, rfl⟩

theorem close : Statement (.close) := ⟨_, rfl⟩

theorem enableCore : Statement (.enableCore) := ⟨_, rfl⟩

theorem disableCore : Statement (.disableCore) := ⟨_, rfl⟩

theorem setAddress a : Statement (.setAddress a) := ⟨_, rfl⟩

theorem setAutoIncrement a : Statement (.setAutoIncrement a) := ⟨_, rfl⟩

theorem enableAutoIncrement : Statement (.enableAutoIncrement) := ⟨_, rfl⟩

theorem disableAutoIncrement : Statement (.disableAutoIncrement) := ⟨_, rfl⟩

theorem readConfig : Statement (.readConfig) := ⟨_, rfl⟩

theorem write a : Statement (.write a) := ⟨_, rfl⟩

theorem read a : Statement (.read a) := ⟨_, rfl⟩

theorem withCoreEnabled a : Statement (.withCoreEnabled a) := ⟨_, rfl⟩

theorem sendAndExpect a b c d : Statement (.sendAndExpect a b c d) := ⟨_, rfl⟩

theorem scatter a b : Statement (.scatter a b) := ⟨_, rfl⟩

theorem spiSetSpeed a : Statement (.spiSetSpeed a) := ⟨_, rfl⟩

theorem spiSelect a : Statement (.spiSelect a) := ⟨_, rfl⟩

theorem spiDeselect : Statement (.spiDeselect) := ⟨_, rfl⟩

theorem spiWriteRead a : Statement (.spiWriteRead a) := ⟨_, rfl⟩

theorem spiWrite a : Statement (.spiWrite a) := ⟨_, rfl⟩

theorem sdBuildFrame a b : Statement (.sdBuildFrame a b) := ⟨_, rfl⟩

theorem sdSendCmd a b c : Statement (.sdSendCmd a b c) := ⟨_, rfl⟩

theorem sdSendAcmd a b c : Statement (.sdSendAcmd a b c) := ⟨_, rfl⟩

theorem sdDecodeR1 a : Statement (.sdDecodeR1 a) := ⟨_, rfl⟩

theorem sdDecodeR1b a b : Statement (.sdDecodeR1b a b) := ⟨_, rfl⟩

theorem sdDecodeR2 a b : Statement (.sdDecodeR2 a b) := ⟨_, rfl⟩

theorem sdDecodeR3 a b c d e : Statement (.sdDecodeR3 a b c d e) := ⟨_, rfl⟩

theorem sdDecodeR7 a b c d e : Statement (.sdDecodeR7 a b c d e) := ⟨_, rfl⟩

theorem sdError a : Statement (.sdError a) := ⟨_, rfl⟩

theorem crc7 a : Statement (.crc7 a) := ⟨_, rfl⟩

theorem cfgRd : Statement (.cfgRd) := ⟨_, rfl⟩

theorem cfgRdAck a : Statement (.cfgRdAck a) := ⟨_, rfl⟩

theorem cfgWr a b : Statement (.cfgWr a b) := ⟨_, rfl⟩

theorem cfgWrAck : Statement (.cfgWrAck) := ⟨_, rfl⟩

theorem setAddr a : Statement (.setAddr a) := ⟨_, rfl⟩

theorem setAddrAck a : Statement (.setAddrAck a) := ⟨_, rfl⟩

theorem rd a : Statement (.rd a) := ⟨_, rfl⟩

theorem rdAck : Statement (.rdAck) := ⟨_, rfl⟩

theorem wr a : Statement (.wr a) := ⟨_, rfl⟩

theorem wrAck : Statement (.wrAck) := ⟨_, rfl⟩

theorem cmd0GoIdleState a b c : Statement (.cmd0GoIdleState a b c) := ⟨_, rfl⟩

theorem cmd1SendOpCond a b c : Statement (.cmd1SendOpCond a b c) := ⟨_, rfl⟩

theorem cmd6SwitchFunc a b c : Statement (.cmd6SwitchFunc a b c) := ⟨_, rfl⟩

theorem cmd8SendIfCond a b c : Statement (.cmd8SendIfCond a b c) := ⟨_, rfl⟩

theorem cmd9SendCsd a b c : Statement (.cmd9SendCsd a b c) := ⟨_, rfl⟩

theorem cmd10SendCid a b c : Statement (.cmd10SendCid a b c) := ⟨_, rfl⟩

theorem cmd12StopTransmission a b c : Statement (.cmd12StopTransmission a b c) := ⟨_, rfl⟩

theorem cmd13SendStatus a b c : Statement (.cmd13SendStatus a b c) := ⟨_, rfl⟩

theorem cmd16SetBlocklen a b c : Statement (.cmd16SetBlocklen a b c) := ⟨_, rfl⟩

theorem cmd17ReadSingleBlock a b c : Statement (.cmd17ReadSingleBlock a b c) := ⟨_, rfl⟩

theorem cmd18ReadMultipleBlock a b c : Statement (.cmd18ReadMultipleBlock a b c) := ⟨_, rfl⟩

theorem cmd24WriteBlock a b c : Statement (.cmd24WriteBlock a b c) := ⟨_, rfl⟩

theorem cmd25WriteMultipleBlock a b c : Statement (.cmd25WriteMultipleBlock a b c) := ⟨_, rfl⟩

theorem cmd27ProgramCsd a b c : Statement (.cmd27ProgramCsd a b c) := ⟨_, rfl⟩

theorem cmd28SetWriteProt a b c : Statement (.cmd28SetWriteProt a b c) := ⟨_, rfl⟩

theorem cmd29ClrWriteProt a b c : Statement (.cmd29ClrWriteProt a b c) := ⟨_, rfl⟩

theorem cmd30SendWriteProt a b c : Statement (.cmd30SendWriteProt a b c) := ⟨_, rfl⟩

theorem cmd32EraseWrBlkStartAddr a b c : Statement (.cmd32EraseWrBlkStartAddr a b c) := ⟨_, rfl⟩

theorem cmd33EraseWrBlkEndAddr a b c : Statement (.cmd33EraseWrBlkEndAddr a b c) := ⟨_, rfl⟩

theorem cmd38Erase a b c : Statement (.cmd38Erase a b c) := ⟨_, rfl⟩

theorem cmd42LockUnlock a b c : Statement (.cmd42LockUnlock a b c) := ⟨_, rfl⟩

theorem cmd55AppCmd a b c : Statement (.cmd55AppCmd a b c) := ⟨_, rfl⟩

theorem cmd56GenCmd a b c : Statement (.cmd56GenCmd a b c) := ⟨_, rfl⟩

theorem cmd58ReadOcr a b c : Statement (.cmd58ReadOcr a b c) := ⟨_, rfl⟩

theorem cmd59CrcOnOff a b c : Statement (.cmd59CrcOnOff a b c) := ⟨_, rfl⟩

theorem acmd13SdStatus a b c : Statement (.acmd13SdStatus a b c) := ⟨_, rfl⟩

theorem acmd22SendNumWrBlocks a b c : Statement (.acmd22SendNumWrBlocks a b c) := ⟨_, rfl⟩

theorem acmd23SetWrBlkEraseCount a b c : Statement (.acmd23SetWrBlkEraseCount a b c) := ⟨_, rfl⟩

theorem acmd41SdSendOpCond a b c : Statement (.acmd41SdSendOpCond a b c) := ⟨_, rfl⟩

theorem acmd42SetClrCardDetect a b c : Statement (.acmd42SetClrCardDetect a b c) := ⟨_, rfl⟩

theorem acmd51SendScr a b c : Statement (.acmd51SendScr a b c) := ⟨_, rfl⟩

end Sys2Proof.Laws.FirstByte
end

