-- ==== Sys2Proof/Laws/Reading.lean ====
section
/-! SUPPORT. What each reader of the decoder gives on the bytes its encoder writes, whatever follows them: one lemma per
operand form (log entry 5 for the layout; 30_encoding.md R92 for the frame fields). -/

namespace Sys2Proof

open Sys2Proof.Machine

/-- A reader gives back what its encoder wrote, and leaves what follows. -/
def ReadsBack {α : Type} (m : Reader α) (enc : α → List Byte) : Prop := ∀ a rest, m (enc a ++ rest) = .ok (a, rest)

theorem readNat_fuel (f n : Nat) (h : n ≤ f) (rest : List Byte) :
    readNat (encodeNatFuel f n ++ rest) = .ok (n, rest) := by
  induction f generalizing n with
  | zero =>
    obtain rfl : n = 0 := by omega
    rfl
  | succ f ih =>
    rw [encodeNatFuel]
    split
    · rename_i h1
      have : (BitVec.ofNat 8 n).toNat = n := by simp; omega
      simp only [List.cons_append, List.nil_append, readNat, this, h1, if_true]
    · have : (BitVec.ofNat 8 (n % 128 + 128)).toNat = n % 128 + 128 := by simp; omega
      simp only [List.cons_append, readNat, this, ih (n / 128) (by omega)]
      rw [if_neg (by omega)]
      congr 2
      omega

theorem readNat_encode : ReadsBack readNat encodeNat := fun n rest => readNat_fuel n n le_rfl rest

theorem readInt_encode : ReadsBack readInt encodeInt := fun n rest => by
  simp only [readInt, encodeInt, readMap, readThen, readNat_encode _ _, readPure]
  congr 2
  cases n <;> simp [natOfInt, intOfNat]
  omega

theorem readBool_encode : ReadsBack readBool encodeBool := fun b _ => by cases b <;> rfl

theorem readKeep_encode : ReadsBack readKeep encodeBool := fun b _ => by cases b <;> rfl

theorem readByte_encode : ReadsBack readByte fun b => [b] := fun _ _ => rfl

theorem readItems_encode {α : Type} {m : Reader α} {enc : α → List Byte} (h : ReadsBack m enc) (xs : List α)
    (rest : List Byte) : readItems m xs.length (xs.flatMap enc ++ rest) = .ok (xs, rest) := by
  induction xs with
  | nil => rfl
  | cons x xs ih =>
    simp only [List.length_cons, readItems, List.flatMap_cons, List.append_assoc, readThen, h _ _, ih, readPure]

theorem readList_encode {α : Type} {m : Reader α} {enc : α → List Byte} (h : ReadsBack m enc) :
    ReadsBack (readList m) (encodeList enc) := fun xs rest => by
  simp only [readList, encodeList, readThen, List.append_assoc, readNat_encode _ _, readItems_encode h]

theorem readBytes_encode : ReadsBack readBytes encodeBytes := readList_encode readByte_encode

theorem readPatElem_encode : ReadsBack readPatElem encodePatElem := fun p _ => by cases p <;> rfl

theorem readRat_encode : ReadsBack readRat encodeRat := fun q rest => by
  simp only [readRat, encodeRat, readThen, readMap, List.append_assoc, readInt_encode _ _, readNat_encode _ _, readPure]
  rw [Nat.sub_add_cancel q.den_pos, Rat.mkRat_self]

theorem readTarget_encode : ReadsBack readTarget encodeTarget := fun t _ => by cases t <;> rfl

theorem readShape_encode : ReadsBack readShape encodeShape := fun sh _ => by cases sh <;> rfl

/-- A response that is one (44_sd_response.md R280) reads back from its shape, token and extension bytes. -/
theorem readResponse_encode {r : SDResponse} (h : isResponse r = true) (rest : List Byte) :
    readResponse (encodeResponse r ++ rest) = .ok (r, rest) := by
  simp only [isResponse, decide_eq_true_eq] at h
  have len : extraBytes (responseBytes r).1 = (responseBytes r).2.2.length := by cases r <;> rfl
  have items := readItems_encode readByte_encode (responseBytes r).2.2 rest
  simp only [List.flatMap_singleton'] at items
  simp only [readResponse, encodeResponse, readThen, List.append_assoc, readShape_encode _ _, List.cons_append, readByte,
    len, items, h, readPure]

theorem readWord_encode : ReadsBack readWord wordBytes := fun w rest => by
  simp only [wordBytes, readWord, readThen, readByte, readMap, List.cons_append, List.nil_append, readPure, wordOfBytes]
  congr 2
  rw [BitVec.extractLsb'_append_extractLsb'_eq_extractLsb' (by rfl),
    BitVec.extractLsb'_append_extractLsb'_eq_extractLsb' (by rfl),
    BitVec.extractLsb'_append_extractLsb'_eq_extractLsb' (by rfl)]
  simp

theorem readAddr_encode : ReadsBack readAddr fun a => [addrHi a, addrLo a] := fun a rest => by
  simp only [readAddr, readThen, readByte, readMap, List.cons_append, List.nil_append, readPure, addrOfBytes, addrHi,
    addrLo]
  congr 2
  rw [BitVec.extractLsb'_append_extractLsb'_eq_extractLsb' (by rfl)]
  simp

theorem readCrcByte_encode : ReadsBack readCrcByte fun c => [crcByte c] := fun c rest => by
  have : (crcByte c).getLsbD 0 = true ∧ (crcByte c).extractLsb' 1 7 = c := by revert c; decide
  simp only [readCrcByte, readThen, readByte, List.cons_append, List.nil_append, this.1, this.2, if_true, readPure]

/-- The start and transmission bits and the index of the first byte of a frame (30_encoding.md R92, R93). -/
theorem frame_first_byte (n : Nat) (h : n ≤ 63) :
    (0x40#8 ||| BitVec.ofNat 8 n).extractLsb' 6 2 = 0b01#2 ∧
      ((0x40#8 ||| BitVec.ofNat 8 n).extractLsb' 0 6).toNat = n := by
  have : ∀ n : Nat, n < 64 → (0x40#8 ||| BitVec.ofNat 8 n).extractLsb' 6 2 = 0b01#2 ∧
      ((0x40#8 ||| BitVec.ofNat 8 n).extractLsb' 0 6).toNat = n := by decide
  exact this n (by omega)

end Sys2Proof
end

