-- ==== Sys2Proof/Laws/Session.lean ====
section
/-! SUPPORT. What INIT, CLOSE, a session and a request inside one leave alone (41_debug_core.md R170, R171, R183). -/

namespace Sys2Proof.Machine

/-- Every register (10_state.md R26 to R31). -/
abbrev allRegs : List Reg := [.link, .en, .ai, .addr, .cs, .fdiv]

theorem mem_allRegs (r : Reg) : r ∈ allRegs := by cases r <;> decide

/-- A step that may write every register. -/
theorem stays_allRegs {s t : State} (hc : t.cfg = s.cfg) (hq : t.requests = s.requests) (hr : t.results = s.results)
    (htx : s.tx <+: t.tx) (hrx : t.rx <:+ s.rx) : Stays allRegs s t :=
  ⟨hc, hq, hr, htx, hrx, fun n => absurd (mem_allRegs _) n, fun n => absurd (mem_allRegs _) n,
    fun n => absurd (mem_allRegs _) n, fun n => absurd (mem_allRegs _) n, fun n => absurd (mem_allRegs _) n,
    fun n => absurd (mem_allRegs _) n⟩

theorem within_initExchanges : Within allRegs [2, 3, 4] initExchanges :=
  within_withState fun _ => within_andThen (within_expect _ _ _ _) fun _ => within_andThen (within_xCfgWr _) fun _ =>
    within_andThen (within_xSetAddr _) fun _ => within_xCfgWr _

/-- What `drawOpen` can do: the next known outcome, or a draw; only `opens` and the counter move. -/
theorem drawOpen_snd (s : State) :
    (drawOpen s).2 = { s with opens := (drawOpen s).2.opens, draws := (drawOpen s).2.draws } := by
  unfold drawOpen
  split <;> rfl

theorem within_opInit (path : Text) : Within allRegs [1, 2, 3, 4] (opInit path) := by
  refine ⟨fun s => ?_⟩
  cases hl : s.link with
  | opened =>
    simp only [opInit, hl]
    exact ⟨.refl _ s, fun e he => by cases he; simp [errorCode]⟩
  | closed =>
    have hd := drawOpen_snd s
    rcases hds : drawOpen s with ⟨o, t⟩
    rw [hds] at hd
    dsimp only at hd
    cases o with
    | failed =>
      simp only [opInit, hl, hds]
      exact ⟨by rw [hd]; exact stays_allRegs rfl rfl rfl (List.prefix_refl _) (List.suffix_refl _),
        fun e he => by cases he; simp [errorCode]⟩
    | opened =>
      have h0 : Stays allRegs s { t with link := .opened } := by
        rw [hd]; exact stays_allRegs rfl rfl rfl (List.prefix_refl _) (List.suffix_refl _)
      have h1 := within_initExchanges.of { t with link := .opened }
      rcases hi : initExchanges { t with link := .opened } with ⟨r, u⟩
      rw [hi] at h1
      have h2 := h0.trans h1.1
      have h3 : ∀ l, Stays allRegs u (resetShadows l u) := fun l =>
        stays_allRegs rfl rfl rfl (List.prefix_refl _) (List.suffix_refl _)
      cases r with
      | error e =>
        simp only [opInit, hl, hds, hi]
        exact ⟨h2.trans (h3 _), fun e' he => by
          cases he
          exact List.mem_cons_of_mem _ (h1.2 _ rfl)⟩
      | ok x =>
        simp only [opInit, hl, hds, hi]
        exact ⟨h2.trans (h3 _), fun _ he => nomatch he⟩

theorem within_opClose : Within allRegs [] opClose :=
  within_update fun _ => stays_allRegs rfl rfl rfl (List.prefix_refl _) (List.suffix_refl _)

theorem within_disableIfEnabled : Within allRegs [2, 3, 4] disableIfEnabled :=
  within_withState fun _ => within_ite (within_opDisableCore.mono (by simp) (by simp)) (within_done _)

/-- A session ends with the errors of its body and of ENABLE_CORE and DISABLE_CORE (60_exceptions.md R338). -/
theorem within_session {α : Type} {body : Op α} {cs : List Nat} (h : Within allRegs cs body) :
    Within allRegs ([2, 3, 4] ++ cs) (session body) :=
  within_andThen (within_opEnableCore.mono (by simp) (by simp)) fun _ =>
    within_withCleanup (h.mono (by simp) (List.subset_append_right _ _)) (within_disableIfEnabled.mono (by simp) (by simp))

/-- Every register is among all of them. -/
theorem Within.all {α : Type} {ws : List Reg} {cs : List Nat} {m : Op α} (h : Within ws cs m) : Within allRegs cs m :=
  h.mono (fun r _ => mem_allRegs r) (List.Subset.refl _)

theorem within_decodeR1 (t : Byte) : Within allRegs [7] (computed (decodeR1 t)) :=
  within_computed fun e he => by rw [decodeR1_error he]; simp

theorem within_decodeResponse (sh : Shape) (t : Byte) (ext : List Byte) :
    Within allRegs [7] (computed (decodeResponse sh t ext)) :=
  within_computed fun e he => by rw [decodeResponse_error he]; simp

theorem within_scatterOf (xs : List Nat) (k : Int) : Within allRegs [5] (computed (scatterOf xs k)) := by
  refine within_computed fun e he => ?_
  unfold scatterOf at he
  split at he <;> cases he
  simp [errorCode]

theorem within_opSdBuildFrame (cmd arg : Int) : Within allRegs [5] (opSdBuildFrame cmd arg) :=
  within_andThen (within_andThen (within_requireRange _ _ _ _ (by simp)) fun _ =>
    within_requireRange _ _ _ _ (by simp)) fun _ => within_done _

mutual
/-- A request inside a session keeps the parameters, the waiting requests and the results, appends to TX and consumes
RX from its head, and ends with the errors of its row of the raise matrix (60_exceptions.md R338). -/
theorem within_perform : ∀ r : Request, Within allRegs (requestCodes r) (perform r)
  | .init _ => within_mapValue (within_opInit _).all
  | .close => within_mapValue within_opClose.all
  | .enableCore => within_mapValue within_opEnableCore.all
  | .disableCore => within_mapValue within_opDisableCore.all
  | .setAddress _ => within_mapValue (within_opSetAddress _).all
  | .setAutoIncrement _ => within_mapValue (within_opSetAutoIncrement _).all
  | .enableAutoIncrement => within_mapValue (within_opSetAutoIncrement _).all
  | .disableAutoIncrement => within_mapValue (within_opSetAutoIncrement _).all
  | .readConfig => within_mapValue within_opReadConfig.all
  | .write _ => within_mapValue (within_opWrite _).all
  | .read _ => within_mapValue (within_opRead _).all
  | .withCoreEnabled body => within_mapValue (within_session (within_performAll body))
  | .sendAndExpect _ _ _ _ => within_mapValue (within_opSendAndExpect _ _ _ _).all
  | .scatter _ _ => within_mapValue (within_scatterOf _ _)
  | .spiSetSpeed _ => within_mapValue (within_opSpiSetSpeed _).all
  | .spiSelect _ => within_mapValue (within_opSpiSelect _).all
  | .spiDeselect => within_mapValue (within_opSpiSelect _).all
  | .spiWriteRead _ => within_mapValue (within_opSpiWriteRead _).all
  | .spiWrite _ => within_mapValue (within_opSpiWrite _).all
  | .sdBuildFrame _ _ => within_mapValue (within_opSdBuildFrame _ _)
  | .sdSendCmd _ _ _ => within_mapValue (within_withState fun _ => (within_opSdSendCmd _ _ _ _).all)
  | .sdSendAcmd _ _ _ => within_mapValue (within_opSdSendAcmd _ _ _).all
  | .sdDecodeR1 _ => within_mapValue (within_decodeR1 _)
  | .sdDecodeR1b _ _ => within_mapValue (within_decodeResponse _ _ _)
  | .sdDecodeR2 _ _ => within_mapValue (within_decodeResponse _ _ _)
  | .sdDecodeR3 _ _ _ _ _ => within_mapValue (within_decodeResponse _ _ _)
  | .sdDecodeR7 _ _ _ _ _ => within_mapValue (within_decodeResponse _ _ _)
  | .sdError _ => within_mapValue (within_withState fun _ => within_done _)
  | .crc7 _ => within_mapValue (within_done _)
/-- `within_perform` of a body. -/
theorem within_performAll : ∀ rs : Requests, Within allRegs (bodyCodes rs) (performAll rs)
  | .nil => within_done _
  | .cons r rs => within_andThen ((within_perform r).mono (List.Subset.refl _) (List.subset_append_left _ _)) fun _ =>
      within_mapValue ((within_performAll rs).mono (List.Subset.refl _) (List.subset_append_right _ _))
end

end Sys2Proof.Machine
end

