-- ==== Sys2Proof/Tests/Slice0.lean ====
section
/-! SUPPORT. Small tests. The expected results are the vectors of 95_test_vectors.md (named in each docstring) or are
written out from the rule named; the witnesses at the end show, for each statement with hypotheses, operands and a state
that meet them together. -/

namespace Sys2Proof.Tests

open Sys2Proof Sys2Proof.Machine

/-! ### Decoding: one word of every row, written out from its encoding -/

/-- Every host request, its tag from 30_encoding.md R110, its operands laid out by log entry 5. -/
theorem test_decode_host : ∀ p ∈ ([
    ([0x01, 0x02, 0x2F, 0x70], .init [0x2F, 0x70]),
    ([0x02], .close),
    ([0x03], .enableCore),
    ([0x04], .disableCore),
    ([0x05, 0xE8, 0x48], .setAddress 0x1234),
    ([0x06, 0x01], .setAutoIncrement true),
    ([0x07], .enableAutoIncrement),
    ([0x08], .disableAutoIncrement),
    ([0x09], .readConfig),
    ([0x0A, 0x03, 0xDE, 0xAD, 0xBE], .write [0xDE, 0xAD, 0xBE]),
    ([0x0B, 0x01], .read (-1)),
    ([0x0C, 0x01, 0x05, 0x20, 0x01, 0x04, 0x00], .withCoreEnabled (.cons (.setAddress 0x10) (.cons .disableCore .nil))),
    ([0x10, 0x01, 0x02, 0x03, 0x00, 0x03, 0x01, 0x02, 0x03, 0x00], .sendAndExpect [0x02] [.fix 0x03, .any, .cap] 3 []),
    ([0x11, 0x03, 0x63, 0xAC, 0x02, 0x03, 0x08], .scatter [99, 300, 3] 4),
    ([0x20, 0x80, 0xEA, 0x30, 0x00], .spiSetSpeed 400000),
    ([0x21, 0x02], .spiSelect .sd),
    ([0x22], .spiDeselect),
    ([0x23, 0x02, 0x9A, 0xBC], .spiWriteRead [0x9A, 0xBC]),
    ([0x24, 0x02, 0xFF, 0xFE], .spiWrite [0xFF, 0xFE]),
    ([0x30, 0x10, 0xD4, 0x06], .sdBuildFrame 8 0x1AA),
    ([0x31, 0x22, 0x00, 0x01], .sdSendCmd 17 0 true),
    ([0x32, 0x52, 0x07, 0x00], .sdSendAcmd 41 (-4) false),
    ([0x40, 0x41], .sdDecodeR1 0x41),
    ([0x41, 0x01, 0xFF], .sdDecodeR1b 0x01 0xFF),
    ([0x42, 0x00, 0x80], .sdDecodeR2 0x00 0x80),
    ([0x43, 0x00, 0xC0, 0xFF, 0x80, 0x00], .sdDecodeR3 0x00 0xC0 0xFF 0x80 0x00),
    ([0x44, 0x01, 0x10, 0x00, 0x02, 0x55], .sdDecodeR7 0x01 0x10 0x00 0x02 0x55),
    ([0x45, 0x00, 0x40], .sdError (.r1 ⟨false, false, false, false, false, false, true, 0x40⟩)),
    ([0x50, 0x05, 0x40, 0x00, 0x00, 0x00, 0x00], .crc7 [0x40, 0x00, 0x00, 0x00, 0x00])] : List (List Byte × Instr)),
    decodeSubmission ⟨.host, p.1⟩ = .ok p.2 := by decide +kernel

/-- Every wire packet, written out from 30_encoding.md R81 to R87. -/
theorem test_decode_wire : ∀ p ∈ ([
    ([0x02], .cfgRd),
    ([0x03, 0x7E], .cfgRdAck 0x7E),
    ([0x04, 0x02], .cfgWr false true),
    ([0x05], .cfgWrAck),
    ([0x10, 0x12, 0x34], .setAddr 0x1234),
    ([0x11, 0xA6, 0x03], .setAddrAck 0xA603),
    ([0x20, 0xFF], .rd 0xFF),
    ([0x21], .rdAck),
    ([0x30, 0x02], .wr 0x02),
    ([0x31], .wrAck)] : List (List Byte × Instr)),
    decodeSubmission ⟨.wire, p.1⟩ = .ok p.2 := by decide +kernel

/-- Every CMD frame, written out bit by bit from 30_encoding.md R92 (its CRC byte computed outside the model), then `keep`. -/
theorem test_decode_sd : ∀ p ∈ ([
    ([0x40, 0x00, 0x00, 0x00, 0x00, 0x95, 0x00], .cmd0GoIdleState 0x00000000 0x4A false),
    ([0x41, 0x40, 0x00, 0x00, 0x00, 0x6B, 0x01], .cmd1SendOpCond 0x40000000 0x35 true),
    ([0x46, 0x00, 0xFF, 0xFF, 0xF0, 0x0D, 0x00], .cmd6SwitchFunc 0x00FFFFF0 0x06 false),
    ([0x48, 0x00, 0x00, 0x01, 0xAA, 0x87, 0x01], .cmd8SendIfCond 0x000001AA 0x43 true),
    ([0x49, 0x05, 0x0A, 0x0F, 0x14, 0x71, 0x00], .cmd9SendCsd 0x050A0F14 0x38 false),
    ([0x4A, 0x06, 0x0C, 0x12, 0x18, 0x4D, 0x01], .cmd10SendCid 0x060C1218 0x26 true),
    ([0x4C, 0x07, 0x0E, 0x15, 0x1C, 0xA7, 0x00], .cmd12StopTransmission 0x070E151C 0x53 false),
    ([0x4D, 0x08, 0x10, 0x18, 0x20, 0x21, 0x01], .cmd13SendStatus 0x08101820 0x10 true),
    ([0x50, 0x00, 0x00, 0x02, 0x00, 0x15, 0x00], .cmd16SetBlocklen 0x00000200 0x0A false),
    ([0x51, 0x12, 0x34, 0x56, 0x78, 0x5D, 0x01], .cmd17ReadSingleBlock 0x12345678 0x2E true),
    ([0x52, 0x0B, 0x16, 0x21, 0x2C, 0xF9, 0x00], .cmd18ReadMultipleBlock 0x0B16212C 0x7C false),
    ([0x58, 0x0C, 0x18, 0x24, 0x30, 0xC3, 0x01], .cmd24WriteBlock 0x0C182430 0x61 true),
    ([0x59, 0x0D, 0x1A, 0x27, 0x34, 0x67, 0x00], .cmd25WriteMultipleBlock 0x0D1A2734 0x33 false),
    ([0x5B, 0x0E, 0x1C, 0x2A, 0x38, 0x45, 0x01], .cmd27ProgramCsd 0x0E1C2A38 0x22 true),
    ([0x5C, 0x0F, 0x1E, 0x2D, 0x3C, 0xC3, 0x00], .cmd28SetWriteProt 0x0F1E2D3C 0x61 false),
    ([0x5D, 0x10, 0x20, 0x30, 0x40, 0xF9, 0x01], .cmd29ClrWriteProt 0x10203040 0x7C true),
    ([0x5E, 0x11, 0x22, 0x33, 0x44, 0x85, 0x00], .cmd30SendWriteProt 0x11223344 0x42 false),
    ([0x60, 0x12, 0x24, 0x36, 0x48, 0x05, 0x01], .cmd32EraseWrBlkStartAddr 0x12243648 0x02 true),
    ([0x61, 0x13, 0x26, 0x39, 0x4C, 0x49, 0x00], .cmd33EraseWrBlkEndAddr 0x1326394C 0x24 false),
    ([0x66, 0x14, 0x28, 0x3C, 0x50, 0xEB, 0x01], .cmd38Erase 0x14283C50 0x75 true),
    ([0x6A, 0x15, 0x2A, 0x3F, 0x54, 0xD7, 0x00], .cmd42LockUnlock 0x152A3F54 0x6B false),
    ([0x77, 0x00, 0x00, 0x00, 0x00, 0x65, 0x01], .cmd55AppCmd 0x00000000 0x32 true),
    ([0x78, 0x80, 0x00, 0x00, 0x01, 0x01, 0x00], .cmd56GenCmd 0x80000001 0x00 false),
    ([0x7A, 0x00, 0x00, 0x00, 0x00, 0xFD, 0x01], .cmd58ReadOcr 0x00000000 0x7E true),
    ([0x7B, 0x00, 0x00, 0x00, 0x01, 0x83, 0x00], .cmd59CrcOnOff 0x00000001 0x41 false)] : List (List Byte × Instr)),
    decodeSubmission ⟨.sd, p.1⟩ = .ok p.2 := by decide +kernel

/-- Every ACMD frame, written out from 30_encoding.md R92, then `keep`. -/
theorem test_decode_sdApp : ∀ p ∈ ([
    ([0x4D, 0x1A, 0x34, 0x4E, 0x68, 0xC5, 0x01], .acmd13SdStatus 0x1A344E68 0x62 true),
    ([0x56, 0x1B, 0x36, 0x51, 0x6C, 0xD9, 0x00], .acmd22SendNumWrBlocks 0x1B36516C 0x6C false),
    ([0x57, 0x1C, 0x38, 0x54, 0x70, 0x01, 0x01], .acmd23SetWrBlkEraseCount 0x1C385470 0x00 true),
    ([0x69, 0x40, 0x00, 0x00, 0x00, 0x77, 0x00], .acmd41SdSendOpCond 0x40000000 0x3B false),
    ([0x6A, 0x1E, 0x3C, 0x5A, 0x78, 0x4D, 0x01], .acmd42SetClrCardDetect 0x1E3C5A78 0x26 true),
    ([0x73, 0x1F, 0x3E, 0x5D, 0x7C, 0x4B, 0x00], .acmd51SendScr 0x1F3E5D7C 0x25 false)] : List (List Byte × Instr)),
    decodeSubmission ⟨.sdApp, p.1⟩ = .ok p.2 := by decide +kernel

/-- One ill-formed frame for each SD row: its CRC field has a wrong bit (30_encoding.md R92). -/
theorem test_ill_formed_crc : ∀ i ∈ ([
    .cmd0GoIdleState 0x00000000 0x4B false,
    .cmd1SendOpCond 0x40000000 0x34 false,
    .cmd6SwitchFunc 0x00FFFFF0 0x07 false,
    .cmd8SendIfCond 0x000001AA 0x42 false,
    .cmd9SendCsd 0x050A0F14 0x39 false,
    .cmd10SendCid 0x060C1218 0x27 false,
    .cmd12StopTransmission 0x070E151C 0x52 false,
    .cmd13SendStatus 0x08101820 0x11 false,
    .cmd16SetBlocklen 0x00000200 0x0B false,
    .cmd17ReadSingleBlock 0x12345678 0x2F false,
    .cmd18ReadMultipleBlock 0x0B16212C 0x7D false,
    .cmd24WriteBlock 0x0C182430 0x60 false,
    .cmd25WriteMultipleBlock 0x0D1A2734 0x32 false,
    .cmd27ProgramCsd 0x0E1C2A38 0x23 false,
    .cmd28SetWriteProt 0x0F1E2D3C 0x60 false,
    .cmd29ClrWriteProt 0x10203040 0x7D false,
    .cmd30SendWriteProt 0x11223344 0x43 false,
    .cmd32EraseWrBlkStartAddr 0x12243648 0x03 false,
    .cmd33EraseWrBlkEndAddr 0x1326394C 0x25 false,
    .cmd38Erase 0x14283C50 0x74 false,
    .cmd42LockUnlock 0x152A3F54 0x6A false,
    .cmd55AppCmd 0x00000000 0x33 false,
    .cmd56GenCmd 0x80000001 0x01 false,
    .cmd58ReadOcr 0x00000000 0x7F false,
    .cmd59CrcOnOff 0x00000001 0x40 false,
    .acmd13SdStatus 0x1A344E68 0x63 false,
    .acmd22SendNumWrBlocks 0x1B36516C 0x6D false,
    .acmd23SetWrBlkEraseCount 0x1C385470 0x01 false,
    .acmd41SdSendOpCond 0x40000000 0x3A false,
    .acmd42SetClrCardDetect 0x1E3C5A78 0x27 false,
    .acmd51SendScr 0x1F3E5D7C 0x24 false] : List Instr), i.wellFormed = false := by decide +kernel

/-- One ill-formed term for each other check: a pattern of another length (40_framing_codec.md R133), a response that no
bytes decode to (44_sd_response.md R280), and both inside a session; beside them a well-formed term of each. -/
theorem test_ill_formed_requests :
    (Instr.sendAndExpect [0x02] [.fix 0x03, .cap] 3 []).wellFormed = false ∧
      (Instr.sdError (.r1 ⟨true, false, false, false, false, false, false, 0x00⟩)).wellFormed = false ∧
      (Instr.sdError (.r1b ⟨⟨true, false, false, false, false, false, false, 0x01⟩, true, 0x01⟩)).wellFormed = false ∧
      (Instr.withCoreEnabled (.cons (.sendAndExpect [] [.any] 0 []) .nil)).wellFormed = false ∧
      (Instr.withCoreEnabled
        (.cons .readConfig (.cons (.withCoreEnabled (.cons (.sdError (.r1 ⟨false, false, false, false, false, false, false,
          0x80⟩)) .nil)) .nil))).wellFormed = false ∧
      (Instr.sendAndExpect [0x02] [.fix 0x03, .cap] 2 []).wellFormed = true ∧
      (Instr.sdError (.r1 ⟨true, false, false, false, false, false, false, 0x01⟩)).wellFormed = true := by decide +kernel

/-- What the decoder rejects, each by its name (30_encoding.md R111, R82, R89, R91, R92, R94). -/
theorem test_decode_rejects :
    decodeSubmission ⟨.host, []⟩ = .error .empty ∧ decodeSubmission ⟨.host, [0x0D]⟩ = .error (.unknownTag 0x0D) ∧
      decodeSubmission ⟨.host, [0x05]⟩ = .error .truncated ∧
      decodeSubmission ⟨.host, [0x06, 0x02]⟩ = .error (.badOperand 0x02) ∧
      decodeSubmission ⟨.host, [0x02, 0x01]⟩ = .error .trailing ∧
      decodeSubmission ⟨.host, [0x10, 0x00, 0x01, 0x01, 0x02, 0x00]⟩ = .error (.badOperand 0x10) ∧
      decodeSubmission ⟨.wire, [0x43]⟩ = .error (.unknownOpcode 0x43) ∧
      decodeSubmission ⟨.wire, [0x04, 0x07]⟩ = .error (.fixedBits 0x07) ∧
      decodeSubmission ⟨.sd, [0x42, 0x00, 0x00, 0x00, 0x00, 0x00]⟩ = .error (.fixedBits 0x00) ∧
      decodeSubmission ⟨.sd, [0x40, 0x00, 0x00, 0x00, 0x00, 0x94, 0x00]⟩ = .error (.fixedBits 0x94) := by decide +kernel

/-- A frame whose index has no row is for the shape lookup to answer, not for the decoder (30_encoding.md R95); a frame
stands alone with `keep` clear. -/
theorem test_frames_without_a_row :
    decodeSubmission ⟨.sd, [0x42, 0x12, 0x34, 0x56, 0x78, 0x01]⟩ = .ok (.sdSendCmd 2 0x12345678 false) ∧
      decodeSubmission ⟨.sdApp, [0x47, 0x00, 0x00, 0x00, 0x00, 0x01, 0x01]⟩ = .ok (.sdSendAcmd 7 0 true) ∧
      decodeSubmission ⟨.sd, [0x40, 0x00, 0x00, 0x00, 0x00, 0x95]⟩ = .ok (.cmd0GoIdleState 0 0x4A false) := by decide +kernel

/-- Words as the opcode table numbers them (98_reader.md: byte 0 the most significant). -/
theorem test_decode_table_words :
    decodeTableWord 8 0x0D = none ∧ decodeTableWord 8 0x03 = some .enableCore ∧ decodeTableWord 8 0x24 = some (.spiWrite []) ∧
      decodeTableWord 24 0x101234 = some (.setAddr 0x1234) ∧ decodeTableWord 16 0x0403 = some (.cfgWr true true) ∧
      decodeTableWord 48 0x48000001AA87 = some (.cmd8SendIfCond 0x1AA 0x43 false) ∧
      decodeTableWord 48 0x694000000077 = some (.acmd41SdSendOpCond 0x40000000 0x3B false) := by decide +kernel

/-! ### One step each, from small states -/

/-- The parameters of the vectors: `F_CLK` 50 MHz, `FLUSH_REQ` and `FLUSH_ACK` one byte each. -/
def config : Config := defaultsWith 50000000 0 [0xF0] [.fix 0xA0]

/-- A state with its LINK, EN, AI and ADDR, `CS` and `FDIV` UNKNOWN, and what arrives. -/
def state (link : Link) (en ai : Bool) (addr : Addr) (rx : List RxEvent) : State :=
  { cfg := config, link := link, en := en, ai := ai, addr := addr, cs := .unknown, fdiv := .unknown, tx := [], rx := rx,
    opens := [.opened], draws := 0, requests := [], results := [] }

/-- The start state of most vectors: open and enabled, `AI = 0`, `ADDR = 0`. -/
def enabled (rx : List Byte) : State := state .opened true false 0 (arrivals rx)

/-- Open and disabled. -/
def disabled (rx : List Byte) : State := state .opened false false 0 (arrivals rx)

/-- Closed. -/
def closed : State := state .closed false false 0 []

/-- The registers (10_state.md R26 to R31). -/
structure Registers where
  link : Link
  en : Bool
  ai : Bool
  addr : Addr
  cs : Shadow Target
  fdiv : Shadow Byte
  deriving DecidableEq, Repr

/-- What a test looks at: the registers, TX, what is left of RX, and the results. -/
def seen (o : Host.Outcome State Fault Refusal) : Option (Registers × List Byte × List RxEvent × List Result) :=
  match o with
  | .next t => some (⟨t.link, t.en, t.ai, t.addr, t.cs, t.fdiv⟩, t.tx, t.rx, t.results)
  | .fault _ => none
  | .refused _ => none

/-- L2.2 row 1. -/
theorem test_init :
    seen (exec (.init [0x70]) (state .closed false false 0 (arrivals [0xA0, 0x05, 0x11, 0x00, 0x00, 0x05]))) =
      some (⟨.opened, false, false, 0, .unknown, .unknown⟩, [0xF0, 0x04, 0x01, 0x10, 0x00, 0x00, 0x04, 0x00], [],
        [.ok .unit]) := by decide +kernel

/-- L2.2 row 2a: the flush reply does not match. -/
theorem test_init_bad_flush :
    seen (exec (.init [0x70]) (state .closed false false 0 (arrivals [0xA1, 0x05]))) =
      some (⟨.closed, false, false, 0, .unknown, .unknown⟩, [0xF0], arrivals [0x05],
        [.err (.protocol [.fix 0xA0] 1 [0xA1] .flush)]) := by decide +kernel

/-- L2.2 row 18, its first step, from an enabled state with AI. -/
theorem test_close :
    seen (exec .close (state .opened true true 0x1234 (arrivals [0x05]))) =
      some (⟨.closed, false, false, 0, .unknown, .unknown⟩, [], arrivals [0x05], [.ok .unit]) := by decide +kernel

/-- L1.4: first call. -/
theorem test_enable_core :
    seen (exec .enableCore (disabled [0x05])) =
      some (⟨.opened, true, false, 0, .unknown, .unknown⟩, [0x04, 0x01], [], [.ok .unit]) := by decide +kernel

/-- L1.4: second call. -/
theorem test_enable_core_twice :
    seen (exec .enableCore (enabled [0x05])) =
      some (⟨.opened, true, false, 0, .unknown, .unknown⟩, [], arrivals [0x05],
        [.err (.state .enableCore .disabled)]) := by decide +kernel

/-- L2.2 row 6. -/
theorem test_disable_core :
    seen (exec .disableCore (state .opened true true 0 (arrivals [0x05]))) =
      some (⟨.opened, false, true, 0, .unknown, .unknown⟩, [0x04, 0x02], [], [.ok .unit]) := by decide +kernel

/-- L1.5. -/
theorem test_disable_core_disabled :
    seen (exec .disableCore (disabled [])) =
      some (⟨.opened, false, false, 0, .unknown, .unknown⟩, [], [], [.err (.state .disableCore .enabled)]) := by
  decide +kernel

/-- L1.1. -/
theorem test_set_address :
    seen (exec (.setAddress 0xFFFF) (enabled [0x11, 0xFF, 0xFF])) =
      some (⟨.opened, true, false, 0xFFFF, .unknown, .unknown⟩, [0x10, 0xFF, 0xFF], [], [.ok .unit]) := by decide +kernel

/-- L2.7 row 1. -/
theorem test_set_address_range_first :
    seen (exec (.setAddress 0x10000) (disabled [])) =
      some (⟨.opened, false, false, 0, .unknown, .unknown⟩, [], [], [.err (.range .addr 65536)]) := by decide +kernel

/-- L2.2 row 5. -/
theorem test_set_auto_increment :
    seen (exec (.setAutoIncrement true) (state .opened true true 0 (arrivals [0x05]))) =
      some (⟨.opened, true, true, 0, .unknown, .unknown⟩, [0x04, 0x03], [], [.ok .unit]) := by decide +kernel

/-- L2.2 row 3. -/
theorem test_enable_auto_increment :
    seen (exec .enableAutoIncrement (enabled [0x05])) =
      some (⟨.opened, true, true, 0, .unknown, .unknown⟩, [0x04, 0x03], [], [.ok .unit]) := by decide +kernel

/-- L2.2 row 4. -/
theorem test_disable_auto_increment :
    seen (exec .disableAutoIncrement (state .opened true true 0 (arrivals [0x05]))) =
      some (⟨.opened, true, false, 0, .unknown, .unknown⟩, [0x04, 0x01], [], [.ok .unit]) := by decide +kernel

/-- L2.2 row 17. -/
theorem test_read_config :
    seen (exec .readConfig (disabled [0x03, 0x00])) =
      some (⟨.opened, false, false, 0, .unknown, .unknown⟩, [0x02], [], [.ok (.byte 0x00)]) := by decide +kernel

/-- L2.2 row 8: 257 bytes across the top of the address space. -/
theorem test_write_wraps :
    let o := seen (exec (.write (List.replicate 257 0x5A))
      (state .opened true true 0xFFF0 (arrivals ([0x31] ++ List.replicate 256 0x5A ++ [0x31, 0x5A]))))
    o.map (·.1.addr) = some 0x00F1 ∧ o.map (·.2.1.length) = some 261 ∧ o.map (·.2.1.take 2) = some [0x30, 0xFF] ∧
      o.map (·.2.1.drop 258) = some [0x30, 0x00, 0x5A] ∧ o.map (·.2.2) = some ([], [.ok .unit]) := by decide +kernel

/-- L2.2 row 14. -/
theorem test_write_bad_echo :
    seen (exec (.write [0x01, 0x02, 0x03]) (state .opened true true 0x40 (arrivals [0x31, 0x01, 0x02, 0x04]))) =
      some (⟨.opened, true, true, 0x40, .unknown, .unknown⟩, [0x30, 0x02, 0x01, 0x02, 0x03], [],
        [.err (.protocol [.fix 0x01, .fix 0x02, .fix 0x03] 3 [0x01, 0x02, 0x04] .wrData)]) := by decide +kernel

/-- P1 step 6. -/
theorem test_read :
    seen (exec (.read 3) (state .opened true true 0x1234 (arrivals [0x21, 0xDE, 0xAD, 0xBE]))) =
      some (⟨.opened, true, true, 0x1237, .unknown, .unknown⟩, [0x20, 0x02], [], [.ok (.bytes [0xDE, 0xAD, 0xBE])]) := by
  decide +kernel

/-- L2.2 row 12. -/
theorem test_read_range :
    seen (exec (.read 65536) closed) =
      some (⟨.closed, false, false, 0, .unknown, .unknown⟩, [], [], [.err (.range .length 65536)]) := by decide +kernel

/-- L2.2 row 20. -/
theorem test_session :
    seen (exec (.withCoreEnabled (.cons (.setAddress 0x10) .nil)) (disabled [0x05, 0x11, 0x00, 0x10, 0x05])) =
      some (⟨.opened, false, false, 0x10, .unknown, .unknown⟩, [0x04, 0x01, 0x10, 0x00, 0x10, 0x04, 0x00], [],
        [.ok (.results (.cons .unit .nil))]) := by decide +kernel

/-- L2.2 row 21. -/
theorem test_session_body_error :
    seen (exec (.withCoreEnabled (.cons (.read 0) .nil)) (disabled [0x05, 0x05])) =
      some (⟨.opened, false, false, 0, .unknown, .unknown⟩, [0x04, 0x01, 0x04, 0x00], [], [.err (.range .length 0)]) := by
  decide +kernel

/-- L2.1 row 5. -/
theorem test_send_and_expect :
    seen (exec (.sendAndExpect [0x04, 0x01] [.fix 0x05] 1 []) (disabled [0x05])) =
      some (⟨.opened, false, false, 0, .unknown, .unknown⟩, [0x04, 0x01], [], [.ok (.bytes [])]) := by decide +kernel

/-- L2.1 row 8: a short reply is a TransportError, not a ProtocolError. -/
theorem test_send_and_expect_short :
    seen (exec (.sendAndExpect [0x10, 0x12, 0x34] [.fix 0x11, .fix 0x12, .fix 0x34] 3 [])
        (state .opened false false 0 [.byte 0x11, .byte 0x12, .timeout])) =
      some (⟨.opened, false, false, 0, .unknown, .unknown⟩, [0x10, 0x12, 0x34], [],
        [.err (.transport 3 [0x11, 0x12])]) := by decide +kernel

/-- L1.7. -/
theorem test_scatter :
    seen (exec (.scatter [99, 38, 3, 46, 59, 57, 68, 87, 42, 3, 27, 38, 38, 61, 49, 30] 3) closed) =
      some (⟨.closed, false, false, 0, .unknown, .unknown⟩, [], [],
        [.ok (.chunks [[99, 38, 3], [46, 59, 57], [68, 87, 42], [3, 27, 38], [38, 61, 49], [30]])]) := by decide +kernel

/-- L1.8. -/
theorem test_scatter_range :
    seen (exec (.scatter [1] (-1)) closed) =
      some (⟨.closed, false, false, 0, .unknown, .unknown⟩, [], [], [.err (.range .k (-1))]) := by decide +kernel

/-- L2.3 row 1. -/
theorem test_set_speed :
    seen (exec (.spiSetSpeed 400000) (state .opened true true 0 (arrivals [0x11, 0xA6, 0x01, 0x31, 0x7C]))) =
      some (⟨.opened, true, true, 0xA602, .unknown, .known 0x7C⟩, [0x10, 0xA6, 0x01, 0x30, 0x00, 0x7C], [],
        [.ok (.rational 400000)]) := by decide +kernel

/-- The speed table of L2.3: dividers and clocks, ties to even and clamps among them. -/
theorem test_dividers : ∀ p ∈ ([(25000000, 1, 25000000), (20000000, 1, 25000000), (mkRat 100000000 3, 1, 25000000),
      (100000000, 0, 50000000), (12500000, 3, 12500000), (mkRat 100000000 509, 253, mkRat 25000000 127),
      (mkRat 100000000 511, 255, mkRat 390625 2), (195312, 255, mkRat 390625 2), (1, 255, mkRat 390625 2)] :
      List (Rat × Byte × Rat)),
    fdivFor 50000000 255 p.1 = p.2.1 ∧ spiClock 50000000 p.2.1 = p.2.2 := by decide +kernel

/-- L2.3 row 6. -/
theorem test_select :
    seen (exec (.spiSelect .sd) (state .opened true true 0 (arrivals [0x05, 0x11, 0xA6, 0x02, 0x31, 0xFB]))) =
      some (⟨.opened, true, false, 0xA602, .known .sd, .unknown⟩, [0x04, 0x01, 0x10, 0xA6, 0x02, 0x30, 0x00, 0xFB], [],
        [.ok .unit]) := by decide +kernel

/-- L2.3 row 12: the acknowledgement of the write is lost. -/
theorem test_select_lost :
    seen (exec (.spiSelect .sd)
        (state .opened true true 0 (arrivals [0x05, 0x11, 0xA6, 0x02] ++ [.timeout]))) =
      some (⟨.opened, true, false, 0xA602, .unknown, .unknown⟩, [0x04, 0x01, 0x10, 0xA6, 0x02, 0x30, 0x00], [],
        [.err (.transport 1 [])]) := by decide +kernel

/-- L2.3 row 5. -/
theorem test_deselect :
    seen (exec .spiDeselect (enabled [0x05, 0x11, 0xA6, 0x02, 0x31, 0xFF])) =
      some (⟨.opened, true, false, 0xA602, .known .none, .unknown⟩, [0x04, 0x01, 0x10, 0xA6, 0x02, 0x30, 0x00, 0xFF], [],
        [.ok .unit]) := by decide +kernel

/-- L2.3 row 7. -/
theorem test_write_read :
    seen (exec (.spiWriteRead [0x9A, 0xBC]) (enabled [0x11, 0xA6, 0x03, 0x31, 0x9A, 0x21, 0x12, 0x11, 0xA6, 0x03, 0x31,
        0xBC, 0x21, 0x34])) =
      some (⟨.opened, true, false, 0xA603, .unknown, .unknown⟩, [0x10, 0xA6, 0x03, 0x30, 0x00, 0x9A, 0x20, 0x00, 0x10, 0xA6,
        0x03, 0x30, 0x00, 0xBC, 0x20, 0x00], [], [.ok (.bytes [0x12, 0x34])]) := by decide +kernel

/-- L2.3 row 9: with AI the read is of the next address. -/
theorem test_write_read_auto_increment :
    seen (exec (.spiWriteRead [0xFF]) (state .opened true true 0 (arrivals [0x11, 0xA6, 0x03, 0x31, 0xFF, 0x21, 0x77]))) =
      some (⟨.opened, true, true, 0xA605, .unknown, .unknown⟩, [0x10, 0xA6, 0x03, 0x30, 0x00, 0xFF, 0x20, 0x00], [],
        [.ok (.bytes [0x77])]) := by decide +kernel

/-- L2.3 row 10, one byte of it. -/
theorem test_spi_write :
    seen (exec (.spiWrite [0xFF]) (enabled [0x11, 0xA6, 0x03, 0x31, 0xFF, 0x21, 0x77])) =
      some (⟨.opened, true, false, 0xA603, .unknown, .unknown⟩, [0x10, 0xA6, 0x03, 0x30, 0x00, 0xFF, 0x20, 0x00], [],
        [.ok .unit]) := by decide +kernel

/-- L2.4: built frames. -/
theorem test_build_frames : ∀ p ∈ ([(0, 0, [0x40, 0, 0, 0, 0, 0x95]), (25, 0, [0x59, 0, 0, 0, 0, 0x03]),
      (16, 512, [0x50, 0, 0, 0x02, 0, 0x15]), (17, 0x12345678, [0x51, 0x12, 0x34, 0x56, 0x78, 0x5D]),
      (41, 0x40000000, [0x69, 0x40, 0, 0, 0, 0x77]), (63, 0xFFFFFFFF, [0x7F, 0xFF, 0xFF, 0xFF, 0xFF, 0x19])] :
      List (Int × Int × List Byte)),
    (seen (exec (.sdBuildFrame p.1 p.2.1) closed)).map (·.2.2.2) = some [.ok (.bytes p.2.2)] := by decide +kernel

/-- L2.4 and L2.7 row 5: the ranges of SD_BUILD_FRAME and of the commands, the first operand first. -/
theorem test_command_ranges : ∀ p ∈ ([(.sdBuildFrame 64 0, .range .cmd 64), (.sdBuildFrame 0 0x100000000, .range .arg
      0x100000000), (.sdSendCmd 70 0x200000000 false, .range .cmd 70), (.sdSendCmd 2 0 false, .value (.unknownCommand 2)),
      (.sdSendAcmd 7 0 false, .value (.unknownCommand 7)), (.sdSendCmd 0 0 false, .state .spiSelect .enabled)] :
      List (Instr × ErrorRecord)),
    seen (exec p.1 (disabled [])) =
      some (⟨.opened, false, false, 0, .unknown, .unknown⟩, [], [], [.err p.2]) := by decide +kernel

/-- The wire bytes of one SPI byte exchange (95_test_vectors.md, SPI byte exchange). -/
def exchangeTx (b : Byte) : List Byte := [0x10, 0xA6, 0x03, 0x30, 0x00, b, 0x20, 0x00]

/-- What the device sends in it. -/
def exchangeRx (b r : Byte) : List Byte := [0x11, 0xA6, 0x03, 0x31, b, 0x21, r]

/-- The wire bytes of a command (P2): select SD, the MOSI bytes, and select NONE unless kept. -/
def traceTx (mosi : List Byte) (keep : Bool) : List Byte :=
  [0x04, 0x01, 0x10, 0xA6, 0x02, 0x30, 0x00, 0xFB] ++ mosi.flatMap exchangeTx ++
    if keep then [] else [0x04, 0x01, 0x10, 0xA6, 0x02, 0x30, 0x00, 0xFF]

/-- What the device sends in a command (P2). -/
def traceRx (mosi miso : List Byte) (keep : Bool) : List Byte :=
  [0x05, 0x11, 0xA6, 0x02, 0x31, 0xFB] ++ (mosi.zip miso).flatMap (fun p => exchangeRx p.1 p.2) ++
    if keep then [] else [0x05, 0x11, 0xA6, 0x02, 0x31, 0xFF]

/-- A command's trace at SPI level: the MOSI bytes are the frame and dummies, the MISO bytes are `FF` during the frame and
the flush. -/
def mosiOf (frame : List Byte) (answer : List Byte) : List Byte :=
  frame ++ List.replicate answer.length 0xFF ++ [0xFF, 0xFF]

/-- The MISO bytes. -/
def misoOf (answer : List Byte) : List Byte := List.replicate 6 0xFF ++ answer ++ [0xFF, 0xFF]

/-- An instruction that sends one command ends, with what the card answers, with a result; the wire trace is that of P2. -/
def runsTo (i : Instr) (frame answer : List Byte) (keep : Bool) (r : Result) : Bool :=
  decide (seen (exec i (enabled (traceRx (mosiOf frame answer) (misoOf answer) keep))) =
    some (⟨.opened, true, false, if keep then 0xA603 else 0xA602, .known (if keep then .sd else .none), .unknown⟩,
      traceTx (mosiOf frame answer) keep, [], [r]))

/-- R1 with no flag, and the idle flag alone. -/
def ready : R1Rec := ⟨false, false, false, false, false, false, false, 0x00⟩

/-- R1 with the idle flag. -/
def idle : R1Rec := ⟨true, false, false, false, false, false, false, 0x01⟩

/-- P2, L2.4 rows 2 to 4: SD_SEND_CMD. -/
theorem test_send_cmd :
    runsTo (.sdSendCmd 0 0 false) [0x40, 0, 0, 0, 0, 0x95] [0xFF, 0x01] false (.ok (.reply ⟨.r1 idle, [0xFF, 0x01]⟩)) = true ∧
      runsTo (.sdSendCmd 17 0 true) [0x51, 0, 0, 0, 0, 0x55] [0xFF, 0x00] true (.ok (.reply ⟨.r1 ready, [0xFF, 0x00]⟩)) = true ∧
      runsTo (.sdSendCmd 17 0 true) [0x51, 0, 0, 0, 0, 0x55] [0xFF, 0x04] false
        (.err (.sd 17 0 [0xFF, 0x04] (some (.r1 ⟨false, false, true, false, false, false, false, 0x04⟩)))) = true ∧
      runsTo (.sdSendCmd 0 0 true) [0x40, 0, 0, 0, 0, 0x95] (List.replicate 8 0xFF) false
        (.err (.sd 0 0 (List.replicate 8 0xFF) none)) = true := by decide +kernel

/-- L2.4 rows 6, 8 to 10, P2 and P3: the CMD rows with an extension. -/
theorem test_commands_with_extension :
    runsTo (.cmd12StopTransmission 0 0x30 false) [0x4C, 0, 0, 0, 0, 0x61] [0xFF, 0x00, 0x00] false
        (.ok (.reply ⟨.r1b ⟨ready, true, 0x00⟩, [0xFF, 0x00, 0x00]⟩)) = true ∧
      runsTo (.cmd13SendStatus 0 0x06 false) [0x4D, 0, 0, 0, 0, 0x0D] [0xFF, 0x00, 0x01] false
        (.ok (.reply ⟨.r2 ⟨ready, true, false, false, false, false, false, false, false, 0x01⟩, [0xFF, 0x00, 0x01]⟩)) = true ∧
      runsTo (.cmd58ReadOcr 0 0x7E false) [0x7A, 0, 0, 0, 0, 0xFD] [0xFF, 0x00, 0xC0, 0xFF, 0x80, 0x00] false
        (.ok (.reply ⟨.r3 ⟨ready, 0xC0FF8000, false, true, false, false, false, false, some (27, 36)⟩,
          [0xFF, 0x00, 0xC0, 0xFF, 0x80, 0x00]⟩)) = true ∧
      runsTo (.cmd8SendIfCond 0x1AA 0x43 false) [0x48, 0, 0, 0x01, 0xAA, 0x87] [0xFF, 0x01, 0x00, 0x00, 0x01, 0xAA] false
        (.ok (.reply ⟨.r7 ⟨idle, 0, .v27_36, 1, 0xAA⟩, [0xFF, 0x01, 0x00, 0x00, 0x01, 0xAA]⟩)) = true := by decide +kernel

/-- Rows of L2.4 and frames of L2.4 and 45_crc7.md R322 for R1 commands, answered `FF 00`. -/
theorem test_commands : ∀ p ∈ ([(.cmd0GoIdleState 0 0x4A false, [0x40, 0, 0, 0, 0, 0x95]),
      (.cmd1SendOpCond 0 0x7C false, [0x41, 0, 0, 0, 0, 0xF9]), (.cmd9SendCsd 0 0x57 false, [0x49, 0, 0, 0, 0, 0xAF]),
      (.cmd10SendCid 0 0x0D false, [0x4A, 0, 0, 0, 0, 0x1B]), (.cmd16SetBlocklen 512 0x0A false, [0x50, 0, 0, 0x02, 0, 0x15]),
      (.cmd17ReadSingleBlock 0x12345678 0x2E false, [0x51, 0x12, 0x34, 0x56, 0x78, 0x5D]),
      (.cmd24WriteBlock 0 0x37 false, [0x58, 0, 0, 0, 0, 0x6F]), (.cmd25WriteMultipleBlock 0 0x01 false, [0x59, 0, 0, 0, 0, 0x03]),
      (.cmd55AppCmd 0 0x32 false, [0x77, 0, 0, 0, 0, 0x65]), (.cmd59CrcOnOff 1 0x41 false, [0x7B, 0, 0, 0, 0x01, 0x83])] :
      List (Instr × List Byte)),
    runsTo p.1 p.2 [0xFF, 0x00] false (.ok (.reply ⟨.r1 ready, [0xFF, 0x00]⟩)) = true := by decide +kernel

/-- Frames written out from 30_encoding.md R92 (their CRC byte computed outside the model) for the other CMD rows, the
shape from 43_sd_command.md R240: R1, or R1b with a byte that is not busy. -/
theorem test_other_commands : (∀ p ∈ ([
      (.cmd6SwitchFunc 0xFFFFF0 0x06 true, [0x46, 0x00, 0xFF, 0xFF, 0xF0, 0x0D]),
      (.cmd18ReadMultipleBlock 0x7 0x4F true, [0x52, 0x00, 0x00, 0x00, 0x07, 0x9F]),
      (.cmd27ProgramCsd 0x0 0x6D true, [0x5B, 0x00, 0x00, 0x00, 0x00, 0xDB]),
      (.cmd30SendWriteProt 0x200 0x1C true, [0x5E, 0x00, 0x00, 0x02, 0x00, 0x39]),
      (.cmd32EraseWrBlkStartAddr 0x11223344 0x27 true, [0x60, 0x11, 0x22, 0x33, 0x44, 0x4F]),
      (.cmd33EraseWrBlkEndAddr 0xFFFFFFFF 0x4C true, [0x61, 0xFF, 0xFF, 0xFF, 0xFF, 0x99]),
      (.cmd42LockUnlock 0x80000000 0x33 true, [0x6A, 0x80, 0x00, 0x00, 0x00, 0x67]),
      (.cmd56GenCmd 0x1 0x1B true, [0x78, 0x00, 0x00, 0x00, 0x01, 0x37])] : List (Instr × List Byte)),
    runsTo p.1 p.2 [0xFF, 0x00] true (.ok (.reply ⟨.r1 ready, [0xFF, 0x00]⟩)) = true) ∧
    ∀ p ∈ ([
      (.cmd28SetWriteProt 0x1000 0x5F true, [0x5C, 0x00, 0x00, 0x10, 0x00, 0xBF]),
      (.cmd29ClrWriteProt 0x1001 0x60 true, [0x5D, 0x00, 0x00, 0x10, 0x01, 0xC1]),
      (.cmd38Erase 0x0 0x52 true, [0x66, 0x00, 0x00, 0x00, 0x00, 0xA5])] : List (Instr × List Byte)),
    runsTo p.1 p.2 [0x00, 0x01] true (.ok (.reply ⟨.r1b ⟨ready, false, 0x01⟩, [0x00, 0x01]⟩)) = true := by decide +kernel

/-- P4 and L2.4 row 16: an application command goes through CMD55, which is deselected. -/
def runsAppTo (i : Instr) (frame answer : List Byte) (keep : Bool) (r : Result) : Bool :=
  decide (seen (exec i (enabled (traceRx (mosiOf [0x77, 0, 0, 0, 0, 0x65] [0xFF, 0x01]) (misoOf [0xFF, 0x01]) false ++
      traceRx (mosiOf frame answer) (misoOf answer) keep))) =
    some (⟨.opened, true, false, if keep then 0xA603 else 0xA602, .known (if keep then .sd else .none), .unknown⟩,
      traceTx (mosiOf [0x77, 0, 0, 0, 0, 0x65] [0xFF, 0x01]) false ++ traceTx (mosiOf frame answer) keep, [], [r]))

/-- P4, L2.4 row 16, and the other ACMD rows, their frames written out from 30_encoding.md R92. -/
theorem test_application_commands : (∀ p ∈ ([(.sdSendAcmd 41 0x40000000 true, [0x69, 0x40, 0, 0, 0, 0x77]),
      (.acmd41SdSendOpCond 0x40000000 0x3B true, [0x69, 0x40, 0, 0, 0, 0x77]),
      (.acmd22SendNumWrBlocks 0x0 0x21 true, [0x56, 0x00, 0x00, 0x00, 0x00, 0x43]),
      (.acmd23SetWrBlkEraseCount 0x8 0x5F true, [0x57, 0x00, 0x00, 0x00, 0x08, 0xBF]),
      (.acmd42SetClrCardDetect 0x1 0x21 true, [0x6A, 0x00, 0x00, 0x00, 0x01, 0x43]),
      (.acmd51SendScr 0xFF00FF00 0x6C true, [0x73, 0xFF, 0x00, 0xFF, 0x00, 0xD9])] : List (Instr × List Byte)),
    runsAppTo p.1 p.2 [0xFF, 0x00] true (.ok (.reply ⟨.r1 ready, [0xFF, 0x00]⟩)) = true) ∧
    runsAppTo (.acmd13SdStatus 0 0x06 false) [0x4D, 0, 0, 0, 0, 0x0D] [0x00, 0x04] false
      (.err (.sd 13 0 [0x00, 0x04] (some (.r2 ⟨ready, false, false, true, false, false, false, false, false, 0x04⟩)))) =
        true := by decide +kernel

/-- L2.4 row 14: CMD55 fails, and the ACMD frame is never sent. -/
theorem test_application_command_stops :
    runsTo (.sdSendAcmd 41 0 false) [0x77, 0, 0, 0, 0, 0x65] [0xFF, 0x05] false
      (.err (.sd 55 0 [0xFF, 0x05] (some (.r1 ⟨true, false, true, false, false, false, false, 0x05⟩)))) = true := by
  decide +kernel

/-- L2.4 row 17: the flush's first `31` is lost; the deselect is forced, though the card was to be kept. -/
theorem test_flush_error :
    seen (exec (.sdSendCmd 0 0 true) (state .opened true false 0
        (arrivals (traceRx ([0x40, 0, 0, 0, 0, 0x95, 0xFF, 0xFF]) (List.replicate 7 0xFF ++ [0x01]) true ++
            [0x11, 0xA6, 0x03]) ++ .timeout :: arrivals [0x05, 0x11, 0xA6, 0x02, 0x31, 0xFF]))) =
      some (⟨.opened, true, false, 0xA602, .known .none, .unknown⟩,
        traceTx [0x40, 0, 0, 0, 0, 0x95, 0xFF, 0xFF] true ++ [0x10, 0xA6, 0x03, 0x30, 0x00] ++
          [0x04, 0x01, 0x10, 0xA6, 0x02, 0x30, 0x00, 0xFF], [], [.err (.transport 1 [])]) := by decide +kernel

/-- The result of a pure operation. -/
def answers (i : Instr) (r : Result) : Bool :=
  decide (seen (exec i closed) = some (⟨.closed, false, false, 0, .unknown, .unknown⟩, [], [], [r]))

/-- L1.12 and L2.5 rows 2 and 4. -/
theorem test_decode_r1 :
    answers (.sdDecodeR1 0x41) (.ok (.r1 ⟨true, false, false, false, false, false, true, 0x41⟩)) = true ∧
      answers (.sdDecodeR1 0x7F) (.ok (.r1 ⟨true, true, true, true, true, true, true, 0x7F⟩)) = true ∧
      answers (.sdDecodeR1 0x80) (.err (.value (.invalidToken 0x80))) = true := by decide +kernel

/-- L2.5 rows 5, 7 and 8. -/
theorem test_decode_r1b_r2 :
    answers (.sdDecodeR1b 0x00 0x00) (.ok (.response (.r1b ⟨ready, true, 0x00⟩))) = true ∧
      answers (.sdDecodeR1b 0x00 0x01) (.ok (.response (.r1b ⟨ready, false, 0x01⟩))) = true ∧
      answers (.sdDecodeR2 0x00 0x80)
        (.ok (.response (.r2 ⟨ready, false, false, false, false, false, false, false, true, 0x80⟩))) = true ∧
      answers (.sdDecodeR2 0x00 0x12)
        (.ok (.response (.r2 ⟨ready, false, true, false, false, true, false, false, false, 0x12⟩))) = true := by
  decide +kernel

/-- L2.5 rows 11, 12, 17 and 19. -/
theorem test_decode_r3 :
    answers (.sdDecodeR3 0x01 0x00 0xFF 0x80 0x00)
        (.ok (.response (.r3 ⟨idle, 0x00FF8000, true, false, false, false, false, false, some (27, 36)⟩))) = true ∧
      answers (.sdDecodeR3 0x00 0xC1 0xFF 0x80 0x00)
        (.ok (.response (.r3 ⟨ready, 0xC1FF8000, false, true, false, false, true, false, some (27, 36)⟩))) = true ∧
      answers (.sdDecodeR3 0x00 0x80 0x01 0x80 0x00)
        (.ok (.response (.r3 ⟨ready, 0x80018000, false, false, false, false, false, false, some (27, 29)⟩))) = true ∧
      answers (.sdDecodeR3 0x00 0xE0 0xFF 0x80 0x80)
        (.ok (.response (.r3 ⟨ready, 0xE0FF8080, false, true, true, false, false, true, some (27, 36)⟩))) = true := by
  decide +kernel

/-- L2.5 rows 21, 23 and 25. -/
theorem test_decode_r7 :
    answers (.sdDecodeR7 0x01 0x10 0x00 0x02 0x55) (.ok (.response (.r7 ⟨idle, 1, .lowVoltageRange, 2, 0x55⟩))) = true ∧
      answers (.sdDecodeR7 0x01 0x00 0x00 0x03 0xAA) (.ok (.response (.r7 ⟨idle, 0, .notDefined, 3, 0xAA⟩))) = true ∧
      answers (.sdDecodeR7 0x01 0xFF 0xFF 0xF1 0xAA) (.ok (.response (.r7 ⟨idle, 15, .v27_36, 1, 0xAA⟩))) = true := by
  decide +kernel

/-- L1.11, L1.12, L2.5 rows 7 and 8. -/
theorem test_sd_error :
    answers (.sdError (.r1 idle)) (.ok (.bit false)) = true ∧
      answers (.sdError (.r1 ⟨false, false, false, false, false, false, true, 0x40⟩)) (.ok (.bit true)) = true ∧
      answers (.sdError (.r2 ⟨ready, false, false, false, false, false, false, false, true, 0x80⟩)) (.ok (.bit true)) = true ∧
      answers (.sdError (.r2 ⟨ready, true, false, false, false, false, false, false, false, 0x01⟩)) (.ok (.bit false)) =
        true := by decide +kernel

/-- L2.6. -/
theorem test_crc7 :
    answers (.crc7 []) (.ok (.crc 0)) = true ∧ answers (.crc7 [0x80]) (.ok (.crc 0x41)) = true ∧
      answers (.crc7 [0x59, 0, 0, 0, 0]) (.ok (.crc 0x01)) = true := by decide +kernel

/-- The packets the block sends, as rows (30_encoding.md R83 to R87, 40_framing_codec.md R140 to R144). -/
theorem test_packet_exchanges : ∀ p ∈ ([(.cfgRd, [0x03, 0x7E], [0x02], .ok (.byte 0x7E)),
      (.cfgWr false true, [0x05], [0x04, 0x02], .ok .unit), (.setAddr 0x1234, [0x11, 0x12, 0x34], [0x10, 0x12, 0x34], .ok .unit),
      (.rd 0xFF, [0x21], [0x20, 0xFF], .ok .unit), (.wr 0x02, [0x31], [0x30, 0x02], .ok .unit),
      (.setAddr 0x1234, [0x11, 0x12, 0x35], [0x10, 0x12, 0x34],
        .err (.protocol [.fix 0x11, .fix 0x12, .fix 0x34] 3 [0x11, 0x12, 0x35] .setAddr))] :
      List (Instr × List Byte × List Byte × Result)),
    seen (exec p.1 (disabled p.2.1)) =
      some (⟨.opened, false, false, 0, .unknown, .unknown⟩, p.2.2.1, [], [p.2.2.2]) := by decide +kernel

/-- The packets the device sends, as rows: they arrive after what already waits (30_encoding.md R83 to R87). -/
theorem test_device_packets : ∀ p ∈ ([(.cfgRdAck 0x7E, [0x03, 0x7E]), (.cfgWrAck, [0x05]),
      (.setAddrAck 0x1234, [0x11, 0x12, 0x34]), (.rdAck, [0x21]), (.wrAck, [0x31])] : List (Instr × List Byte)),
    seen (exec p.1 (disabled [0xEE])) =
      some (⟨.opened, false, false, 0, .unknown, .unknown⟩, [], arrivals (0xEE :: p.2), []) := by decide +kernel

/-- What is refused without any I/O: L2.1 row 10, and a session with such a request. -/
theorem test_refusals :
    exec (.sendAndExpect [0x02] [.fix 0x03, .cap] 3 []) (enabled []) = .refused .patternLength ∧
      exec (.withCoreEnabled (.cons (.sendAndExpect [] [.any] 0 []) .nil)) (disabled []) = .refused .badBody :=
  ⟨rfl, rfl⟩

/-- A closed block with one submission waiting. -/
def submitted (x : Submission) : State := { closed with requests := [x] }

/-- L1.13: a frame whose index has no row ends with the ValueError of the shape lookup, in a step and in any mode. -/
theorem test_step_unknown_index :
    seen (step (submitted ⟨.sd, [0x42, 0, 0, 0, 0, 0x01]⟩)) =
        some (⟨.closed, false, false, 0, .unknown, .unknown⟩, [], [], [.err (.value (.unknownCommand 2))]) ∧
      seen (step (submitted ⟨.sdApp, [0x47, 0, 0, 0, 0, 0x01]⟩)) =
        some (⟨.closed, false, false, 0, .unknown, .unknown⟩, [], [], [.err (.value (.unknownCommand 7))]) :=
  ⟨by decide +kernel, by decide +kernel⟩

/-- The first step after reset runs the word that was placed (41_debug_core.md R171). -/
theorem test_step_from_reset :
    (match step (State.reset.withFetchWord 8 0x02) with
      | .next t => decide (t.link = .closed ∧ t.requests = [] ∧ t.results = [.ok .unit])
      | .fault _ => false
      | .refused _ => false) = true := by decide +kernel

/-! ### Witnesses: for each statement with hypotheses, what meets them, clause by clause and at the ends of the ranges -/

/-- Open and enabled, with bytes arriving and then a timeout. -/
def enabledShort (rx : List Byte) : State := state .opened true false 0 (arrivals rx ++ [.timeout])

/-- The state with a result delivered. -/
def after (r : Result) (s : State) : State := { s with results := s.results ++ [r] }

theorem witness_DecodeOfEncodeIsTheInstruction :
    (Instr.sendAndExpect [0x02] [.fix 0x03, .cap] 2 []).wellFormed = true ∧
      (Instr.withCoreEnabled (.cons (.withCoreEnabled (.cons (.read 0) .nil)) (.cons .close .nil))).wellFormed = true ∧
      (Instr.sdError (.r3 ⟨ready, 0xC0FF8000, false, true, false, false, false, false, some (27, 36)⟩)).wellFormed = true ∧
      (Instr.setAddress (-70000)).wellFormed = true ∧ (Instr.cmd59CrcOnOff 1 0x41 true).wellFormed = true := by
  decide +kernel

theorem witness_WirePacketsHaveTheirBytes :
    (0x04#8).extractLsb' 2 6 ≠ 0 ∧ (0x80#8).extractLsb' 2 6 ≠ 0 ∧ (0xFF#8).extractLsb' 2 6 ≠ 0 := by decide

theorem witness_UnknownTagsAndOpcodesAreRefused :
    (∀ tag ∈ ([0x00, 0x0D, 0x0F, 0x46, 0xFF] : List Byte),
      tag ∉ ([0x01, 0x02, 0x03, 0x04, 0x05, 0x06, 0x07, 0x08, 0x09, 0x0A, 0x0B, 0x0C, 0x10, 0x11, 0x20, 0x21, 0x22, 0x23,
        0x24, 0x30, 0x31, 0x32, 0x40, 0x41, 0x42, 0x43, 0x44, 0x45, 0x50] : List Byte)) ∧
      (∀ op ∈ ([0x00, 0x01, 0x06, 0x32, 0x43, 0xFF] : List Byte),
        op ∉ ([0x02, 0x03, 0x04, 0x05, 0x10, 0x11, 0x20, 0x21, 0x30, 0x31] : List Byte)) ∧
      configOk config = true ∧ decodeSubmission ⟨.host, [0xFF]⟩ = .error (.unknownTag 0xFF) := by decide +kernel

/-- For SdFrameIsLaidOut, BuiltFramesDecodeToTheirCommands and ChunkSizesAreThoseOfScatter. -/
theorem witness_indices : (0 ≤ 63) ∧ (63 ≤ 63) ∧ cmdRowOf 63 = none ∧ (cmdRowOf 0).isSome = true ∧ 1 ≤ 1 :=
  ⟨by decide, by decide, rfl, rfl, by decide⟩

theorem witness_ScatterCompletesWithItsChunks : (0 : Int) < 1 ∧ (-1 : Int) < 1 ∧ (1 : Int) ≤ 1 := by decide

theorem witness_RoundingIsHalfToEven :
    (0 < 2) ∧ (2 * 5 = 2 * (roundHalfEven 5 2 * 2) + 2 ∨ 2 * (roundHalfEven 5 2 * 2) = 2 * 5 + 2) ∧
      (2 * 3 = 2 * (roundHalfEven 3 2 * 2) + 2 ∨ 2 * (roundHalfEven 3 2 * 2) = 2 * 3 + 2) := by decide

theorem witness_DividerNeverRisesWithTheTarget : (0 : Rat) < mkRat 1 3 ∧ mkRat 1 3 ≤ 100000000 := by decide +kernel

theorem witness_DefaultMasksAssertAtMostOneLine : (csMaskOf defaultCsMasks .sd).getLsbD 2 = false := by decide

theorem witness_DecodeR1CompletesWithSevenFlags :
    (0x00#8).getLsbD 7 = false ∧ (0x7F#8).getLsbD 7 = false ∧ (0x80#8).getLsbD 7 = true ∧ (0xFF#8).getLsbD 7 = true := by
  decide

theorem witness_R1ErrorIsAnyOfSixFlags :
    decodeR1 0x01 = .ok idle ∧ decodeR1 0x40 = .ok ⟨false, false, false, false, false, false, true, 0x40⟩ := by decide

theorem witness_DecodeR1bAndR2Complete : decodeR1 0x00 = .ok ready ∧ (0x80#8).getLsbD 7 = true := by decide

theorem witness_DecodeR3AndR7Complete :
    decodeR1 0x00 = .ok ready ∧
      vddRange ((0xC0#8 ++ 0xFF#8 ++ 0x80#8 ++ 0x00#8 : Word32).extractLsb' 15 9) = .ok (some (27, 36)) ∧
      vddRange ((0x80#8 ++ 0x00#8 ++ 0x00#8 ++ 0x00#8 : Word32).extractLsb' 15 9) = .ok none ∧ (0x80#8).getLsbD 7 = true := by
  decide

theorem witness_VddRangeIsLowestToHighest : (0#9 = 0) ∧ (0x101#9 ≠ 0) := by decide

theorem witness_BuildFrameCompletes :
    (0 : Int) ≤ 63 ∧ (63 : Int) ≤ 63 ∧ (2 ^ 32 - 1 : Int) ≤ 2 ^ 32 - 1 ∧ (63 : Int) < 64 ∧ (-1 : Int) < 0 ∧
      (2 ^ 32 - 1 : Int) < 2 ^ 32 := by decide

theorem witness_SendAndExpectCompletes :
    (disabled [0x03, 0x7E, 0xAA]).link = .opened ∧ ([.fix 0x03, .cap] : Pattern).length = 2 ∧
      (disabled [0x03, 0x7E, 0xAA]).rx = arrivals [0x03, 0x7E] ++ arrivals [0xAA] ∧
      matchPattern [.fix 0x03, .cap] [0x03, 0x7E] = true := by decide

theorem witness_SendAndExpectFailsByItsReply :
    ((disabled [0x06]).link = .opened ∧ (disabled [0x06]).rx = arrivals [0x06] ++ [] ∧
      matchPattern [.fix 0x05] [0x06] = false) ∧
      ((enabledShort []).link = .opened ∧ (enabledShort []).rx = arrivals [] ++ .timeout :: [] ∧
        ([] : List Byte).length < ([.fix 0x05] : Pattern).length) ∧ ([.any] : Pattern).length ≠ 2 := by decide

theorem witness_PacketExchangesComplete :
    (disabled [0x03, 0xFF]).link = .opened ∧ (disabled [0x03, 0xFF]).rx = arrivals [0x03, 0xFF] ++ [] ∧
      (disabled [0x05]).rx = arrivals [0x05] ++ [] ∧
      (disabled [0x11, 0xFF, 0xFF]).rx = arrivals [0x11, addrHi 0xFFFF, addrLo 0xFFFF] ++ [] ∧
      (disabled [0x21]).rx = arrivals [0x21] ++ [] ∧ (disabled [0x31]).rx = arrivals [0x31] ++ [] := by decide

theorem witness_InitCompletesDisabled :
    let s := state .closed false false 0 (arrivals [0xA0, 0x05, 0x11, 0x00, 0x00, 0x05])
    s.link = .closed ∧ s.opens = .opened :: [] ∧ matchPattern s.cfg.flushAck [0xA0] = true ∧
      s.rx = arrivals ([0xA0] ++ [0x05] ++ [0x11, 0x00, 0x00] ++ [0x05]) ++ [] := by decide

/-- The three states of the port: open; closed with an outcome standing, either way; closed with none, as at reset. -/
theorem witness_InitEndsOpenOrClosed :
    (disabled []).link = .opened ∧ closed.link = .closed ∧
      (∃ opens, closed.opens = OpenOutcome.opened :: opens ∧ { closed with opens := [] } = { closed with opens := opens }) ∧
      (∃ opens, ({ closed with opens := [.failed] } : State).opens = OpenOutcome.failed :: opens) ∧
      State.reset.link = .closed ∧ State.reset.opens = [] ∧ Config.openDraw 0 = Config.openDraw State.reset.draws :=
  ⟨rfl, rfl, ⟨[], rfl, rfl⟩, ⟨[], rfl⟩, rfl, rfl, rfl⟩

theorem witness_ConfigurationOperationsComplete :
    ((disabled [0x03, 0x00]).link = .opened ∧ (disabled [0x03, 0x00]).rx = arrivals [0x03, 0x00] ++ []) ∧
      ((disabled [0x05]).link = .opened ∧ (disabled [0x05]).rx = arrivals [0x05] ++ [] ∧ (disabled [0x05]).en = false) ∧
      (enabled [0x05]).link = .opened ∧ (enabled [0x05]).rx = arrivals [0x05] ++ [] ∧ (enabled [0x05]).en = true := by decide

theorem witness_SetAddressCompletes :
    (enabled [0x11, 0xFF, 0xFF]).link = .opened ∧ (enabled [0x11, 0xFF, 0xFF]).en = true ∧
      (enabled [0x11, 0xFF, 0xFF]).rx = arrivals [0x11, addrHi 0xFFFF, addrLo 0xFFFF] ++ [] ∧
      (enabled [0x11, 0x00, 0x00]).rx = arrivals [0x11, addrHi 0, addrLo 0] ++ [] := by decide

theorem witness_WriteCompletes :
    configOk config = true ∧ (enabled [0x31, 0xAA, 0xBB]).link = .opened ∧ (enabled [0x31, 0xAA, 0xBB]).en = true ∧
      (enabled [0x31, 0xAA, 0xBB]).rx = arrivals (writeRx config [0xAA, 0xBB]) ++ [] ∧
      (enabled []).rx = arrivals (writeRx config []) ++ [] := by decide +kernel

theorem witness_ReadCompletes :
    configOk config = true ∧ (enabled [0x21, 0xAA]).link = .opened ∧ (enabled [0x21, 0xAA]).en = true ∧
      (enabled [0x21, 0xAA]).rx = arrivals (readRx config [0xAA]) ++ [] ∧ 1 ≤ ([0xAA] : List Byte).length ∧
      (List.replicate 65535 (0xAA#8)).length ≤ 0xFFFF ∧ ∀ data : List Byte,
        (enabled (readRx config data)).rx = arrivals (readRx config data) ++ [] :=
  ⟨rfl, rfl, rfl, by decide +kernel, by decide, by rw [List.length_replicate], fun data =>
    (List.append_nil (arrivals (readRx config data))).symm⟩

/-- The header exchange of a WRITE of some bytes, and of a READ. -/
def wrHeader (n : Nat) : Exchange := fixedExchange (wrPacket (lengthByte n)) wrAckPacket .wrHdr 0

/-- The header exchange of a READ of some bytes. -/
def rdHeader (n : Nat) : Exchange := fixedExchange (rdPacket (lengthByte n)) rdAckPacket .rdHdr 0

/-- An echoed sub-packet of equal bytes. -/
def echoed (n : Nat) : Exchange := fixedExchange (List.replicate n 0x11) (List.replicate n 0x11) .wrData n

/-- A WRITE of 64 bytes: answered; its second sub-packet short; its header mismatched. -/
theorem witness_TransfersAdvanceAddrByAnsweredBytes_write :
    Upcoming (enabled (repliesOf (writeExchanges config (List.replicate 64 0x11))))
        (arrivals (repliesOf (writeExchanges config (List.replicate 64 0x11)))) ∧
      (∃ tx rx, Broken (writeExchanges config (List.replicate 64 0x11)) [wrHeader 64, echoed 32] tx rx
          (.transport 32 [0x11]) ∧ Upcoming (enabledShort (0x31 :: List.replicate 33 0x11)) rx) ∧
      ∃ tx rx, Broken (writeExchanges config (List.replicate 64 0x11)) [] tx rx
          (.protocol [.fix 0x31] 1 [0x30] .wrHdr) ∧ Upcoming (enabled [0x30]) rx :=
  ⟨upcoming_of_rx (List.append_nil _).symm,
    ⟨_, _, .short (echoed 32) [] [0x11] (by decide +kernel) (by decide), upcoming_of_rx (rest := []) (by decide +kernel)⟩,
    ⟨_, _, .mismatch (wrHeader 64) [echoed 32, echoed 32] [0x30] (by decide +kernel) rfl (by decide),
      upcoming_of_rx (rest := []) (by decide +kernel)⟩⟩

/-- A READ of 33 bytes: answered; its second sub-chunk short; its header mismatched. The ends of the range of lengths. -/
theorem witness_TransfersAdvanceAddrByAnsweredBytes_read :
    Upcoming (enabled (repliesOf (readExchanges config (List.replicate 33 0x11))))
        (arrivals (repliesOf (readExchanges config (List.replicate 33 0x11)))) ∧
      (∃ tx rx, Broken (readExchanges config (List.replicate 33 0x11))
          [rdHeader 33, dataExchange (List.replicate 32 0x11)] tx rx (.transport 1 []) ∧
          Upcoming (enabledShort (0x21 :: List.replicate 32 0x11)) rx) ∧
      (∃ tx rx, Broken (readExchanges config (List.replicate 33 0x11)) [] tx rx
          (.protocol [.fix 0x21] 1 [0x20] .rdHdr) ∧ Upcoming (enabled [0x20]) rx) ∧
      1 ≤ (List.replicate 1 (0x11#8)).length ∧ (List.replicate 65535 (0x11#8)).length ≤ 0xFFFF :=
  ⟨upcoming_of_rx (List.append_nil _).symm,
    ⟨_, _, .short (dataExchange [0x11]) [] [] (by decide +kernel) (by decide),
      upcoming_of_rx (rest := []) (by decide +kernel)⟩,
    ⟨_, _, .mismatch (rdHeader 33) [dataExchange (List.replicate 32 0x11), dataExchange [0x11]] [0x20] (by decide +kernel)
      rfl (by decide), upcoming_of_rx (rest := []) (by decide +kernel)⟩,
    by decide, by rw [List.length_replicate]⟩

/-- Each of the nine operations ending with an error, from a closed link. -/
theorem witness_FailedOperationsLeaveTheirRegister :
    exec .enableCore closed = .next (after (.err (.state .enableCore .linkOpen)) closed) ∧
      exec .disableCore closed = .next (after (.err (.state .disableCore .linkOpen)) closed) ∧
      exec (.setAutoIncrement true) closed = .next (after (.err (.state .setAutoIncrement .linkOpen)) closed) ∧
      exec .enableAutoIncrement closed = .next (after (.err (.state .setAutoIncrement .linkOpen)) closed) ∧
      exec .disableAutoIncrement closed = .next (after (.err (.state .setAutoIncrement .linkOpen)) closed) ∧
      exec (.setAddress 5) closed = .next (after (.err (.state .setAddress .linkOpen)) closed) ∧
      exec (.spiSetSpeed 1) closed = .next (after (.err (.state .spiSetSpeed .linkOpen)) closed) ∧
      exec (.spiSelect .sd) closed = .next (after (.err (.state .spiSelect .linkOpen)) closed) ∧
      exec .spiDeselect closed = .next (after (.err (.state .spiSelect .linkOpen)) closed) :=
  ⟨rfl, rfl, rfl, rfl, rfl, rfl, rfl, rfl, rfl⟩

/-- The state in which the body of a session starts. -/
def inSession (s : State) (rest : List RxEvent) : State :=
  { s with en := true, tx := s.tx ++ [0x04, cfgByte true s.ai], rx := rest }

theorem witness_SessionCompletes :
    (requestsAdmissible .nil = true ∧ (disabled [0x05, 0x05]).link = .opened ∧ (disabled [0x05, 0x05]).en = false ∧
      (disabled [0x05, 0x05]).rx = arrivals [0x05] ++ arrivals [0x05]) ∧
      performAll .nil (inSession (disabled [0x05, 0x05]) (arrivals [0x05])) =
        (.ok .nil, inSession (disabled [0x05, 0x05]) (arrivals [0x05])) ∧
      performAll (.cons .disableCore .nil) (inSession (disabled [0x05, 0x05]) (arrivals [0x05])) =
        (.ok (.cons .unit .nil), { disabled [0x05, 0x05] with tx := [0x04, 0x01, 0x04, 0x00], rx := [] }) ∧
      (disabled [0x05, 0x11, 0xFF, 0xFF, 0x05]).rx =
        arrivals ([0x05] ++ [0x11, addrHi 0xFFFF, addrLo 0xFFFF] ++ [0x05]) ++ [] := by decide +kernel

theorem witness_BodiesArePerformedRequestByRequest :
    perform (.crc7 []) closed = (.ok (.crc 0), closed) ∧ performAll .nil closed = (.ok .nil, closed) ∧
      perform (.scatter [] 0) closed = (.error (.range .k 0), closed) ∧
      performAll (.cons (.scatter [] 0) .nil) closed = (.error (.range .k 0), closed) ∧
      requestAdmissible (.sendAndExpect [] [.any] 1 []) = true := by decide +kernel

theorem witness_SessionReportsTheFirstErrorAndDisables :
    (requestsAdmissible (.cons (.read 0) .nil) = true ∧ (disabled [0x05, 0x05]).rx = arrivals [0x05] ++ arrivals [0x05]) ∧
      performAll (.cons (.read 0) .nil) (inSession (disabled [0x05, 0x05]) (arrivals [0x05])) =
        (.error (.range .length 0), inSession (disabled [0x05, 0x05]) (arrivals [0x05])) ∧
      (inSession (disabled [0x05, 0x05]) (arrivals [0x05])).rx = arrivals [0x05] ++ [] ∧
      seen (exec (.withCoreEnabled .nil) (disabled [0x05, 0x05])) =
        some (⟨.opened, false, false, 0, .unknown, .unknown⟩, [0x04, 0x01, 0x04, 0x00], [], [.ok (.results .nil)]) := by
  decide +kernel

theorem witness_SelectCompletes :
    configOk config = true ∧ ∀ t : Target,
      (enabled (selectRx config t)).link = .opened ∧ (enabled (selectRx config t)).en = true ∧
        (enabled (selectRx config t)).rx = arrivals (selectRx config t) ++ [] :=
  ⟨rfl, fun t => by cases t <;> decide +kernel⟩

theorem witness_SetSpeedCompletes :
    configOk config = true ∧ (enabled [0x11, 0xA6, 0x01, 0x31, 0xFF]).link = .opened ∧ (0 : Rat) < 1 ∧
      (enabled [0x11, 0xA6, 0x01, 0x31, 0xFF]).rx =
        arrivals (registerRx config.spiFdivAddr (fdivFor config.fClk config.fdivMax 1)) ++ [] ∧
      (enabled [0x11, 0xA6, 0x01, 0x31, 0x00]).rx =
        arrivals (registerRx config.spiFdivAddr (fdivFor config.fClk config.fdivMax 100000000)) ++ [] := by decide +kernel

theorem witness_WriteReadCompletes :
    configOk config = true ∧ (enabled (exchangeRx 0x9A 0x12)).link = .opened ∧ (enabled []).rx = arrivals (exchangesRx config []) ++ [] ∧
      (enabled (exchangeRx 0x9A 0x12)).rx = arrivals (exchangesRx config [(0x9A, 0x12)]) ++ [] := by decide +kernel

/-- Every CMD row and every ACMD row is one of the instructions of the SD statements, and so are SD_SEND_CMD and
SD_SEND_ACMD at the ends of their ranges. -/
theorem witness_commands :
    (∀ i ∈ ([.cmd0GoIdleState 1 0 true, .cmd1SendOpCond 1 0 true, .cmd6SwitchFunc 1 0 true, .cmd8SendIfCond 1 0 true,
      .cmd9SendCsd 1 0 true, .cmd10SendCid 1 0 true, .cmd12StopTransmission 1 0 true, .cmd13SendStatus 1 0 true,
      .cmd16SetBlocklen 1 0 true, .cmd17ReadSingleBlock 1 0 true, .cmd18ReadMultipleBlock 1 0 true,
      .cmd24WriteBlock 1 0 true, .cmd25WriteMultipleBlock 1 0 true, .cmd27ProgramCsd 1 0 true,
      .cmd28SetWriteProt 1 0 true, .cmd29ClrWriteProt 1 0 true, .cmd30SendWriteProt 1 0 true,
      .cmd32EraseWrBlkStartAddr 1 0 true, .cmd33EraseWrBlkEndAddr 1 0 true, .cmd38Erase 1 0 true,
      .cmd42LockUnlock 1 0 true, .cmd55AppCmd 1 0 true, .cmd56GenCmd 1 0 true, .cmd58ReadOcr 1 0 true,
      .cmd59CrcOnOff 1 0 true, .sdSendCmd 0 0 true, .sdSendCmd 63 0xFFFFFFFF true] : List Instr), (cmdOf i).isSome = true) ∧
      ∀ i ∈ ([.acmd13SdStatus 1 0 true, .acmd22SendNumWrBlocks 1 0 true, .acmd23SetWrBlkEraseCount 1 0 true,
      .acmd41SdSendOpCond 1 0 true, .acmd42SetClrCardDetect 1 0 true, .acmd51SendScr 1 0 true, .sdSendAcmd 0 0 true, .sdSendAcmd 63 0xFFFFFFFF true] : List Instr), (acmdOf i).isSome = true := by
  decide +kernel

/-- What the card answers: a token, an extension, a flush. -/
def reply (poll ext : List Byte) : CardReply := ⟨List.replicate 6 0xFF, poll, ext, [0xFF, 0xFF]⟩

/-- The token at the last poll (L2.4 row 5), and an extension (L2.4 row 9). -/
theorem witness_SdCommandsComplete :
    cmdOf (.cmd58ReadOcr 0 0x7E true) = some (58, 0, true) ∧ configOk config = true ∧
      lookupShape config.cmdShape 58 = some .r3 ∧ (List.replicate 7 (0xFF#8) ++ [0x00]).length ≤ config.ncrMax ∧
      (∀ b ∈ List.replicate 7 (0xFF#8), b.getLsbD 7 = true) ∧ (0x00#8).getLsbD 7 = false ∧
      (reply [] [0xC0, 0xFF, 0x80, 0x00]).ext.length = extraBytes .r3 ∧ (reply [] []).frame.length = 6 ∧
      (reply [] []).flush.length = config.flushN ∧
      decodeResponse .r3 0x00 [0xC0, 0xFF, 0x80, 0x00] =
        .ok (.r3 ⟨ready, 0xC0FF8000, false, true, false, false, false, false, some (27, 36)⟩) ∧
      sdErrorOf 0x7E 0xFE (.r3 ⟨ready, 0xC0FF8000, false, true, false, false, false, false, some (27, 36)⟩) = false := by
  decide +kernel

/-- For every reply there is an enabled state whose RX is what the statement asks. -/
theorem witness_commandRx (cmd : Nat) (arg : Word32) (keep : Bool) (r : CardReply) :
    (enabled (commandRx config cmd arg keep r)).link = .opened ∧ (enabled (commandRx config cmd arg keep r)).en = true ∧
      (enabled (commandRx config cmd arg keep r)).rx = arrivals (commandRx config cmd arg keep r) ++ [] :=
  ⟨rfl, rfl, (List.append_nil (arrivals (commandRx config cmd arg keep r))).symm⟩

theorem witness_SdApplicationCommandsComplete :
    acmdOf (.acmd13SdStatus 0 0x06 true) = some (13, 0, true) ∧ lookupShape config.cmdShape 55 = some .r1 ∧
      lookupShape config.acmdShape 13 = some .r2 ∧ decodeResponse .r1 0x01 [] = .ok (.r1 idle) ∧
      sdErrorOf 0x7E 0xFE (.r1 idle) = false ∧ (reply [0x01] []).ext.length = extraBytes .r1 ∧
      decodeResponse .r2 0x00 [0x01] = .ok (.r2 ⟨ready, true, false, false, false, false, false, false, false, 0x01⟩) ∧
      sdErrorOf 0x7E 0xFE (.r2 ⟨ready, true, false, false, false, false, false, false, false, 0x01⟩) = false ∧
      (enabled (commandRx config 55 0 false (reply [0x01] []) ++ commandRx config 13 0 true (reply [0x00] [0x01]))).rx =
        arrivals (commandRx config 55 0 false (reply [0x01] []) ++ commandRx config 13 0 true (reply [0x00] [0x01])) ++ [] := by
  decide +kernel

/-- A poll of two bytes: `FF`, then a token. -/
theorem polled (tok : Byte) (ext : List Byte) (h : tok.getLsbD 7 = false) : Polled config (reply [0xFF, tok] ext) tok :=
  ⟨[0xFF], rfl, by decide, h, (by decide : 2 ≤ 8)⟩

/-- Steps 3 to 7 can fail with an error. -/
def CanFail (cmd : Nat) (shape : Shape) (e : ErrorRecord) : Prop := ∃ tx rx, TryFails config cmd 0 shape tx rx e

/-- A command can fail with an error, leaving an address and a target. -/
def CommandCanFail (cmd : Nat) (shape : Shape) (keep : Bool) (e : ErrorRecord) (addr : Addr) (cs : Target) : Prop :=
  ∃ tx rx, CommandFails config cmd 0 shape keep tx rx e addr cs

/-- The four ways in which steps 3 to 7 fail: no token at all; an R1 error; an error in the extension; an exchange, the
acknowledgement of the SPI_SELECT, that times out or does not match. -/
theorem witness_TryFails :
    CanFail 13 .r2 (.sd 13 0 (List.replicate 8 0xFF) none) ∧
      CanFail 13 .r2 (.sd 13 0 [0xFF, 0x04] (some (.r1 ⟨false, false, true, false, false, false, false, 0x04⟩))) ∧
      CanFail 13 .r2
        (.sd 13 0 [0xFF, 0x00, 0x04] (some (.r2 ⟨ready, false, false, true, false, false, false, false, false, 0x04⟩))) ∧
      TryFails config 13 0 .r2 [0x04, 0x01] [.timeout] (.transport 1 []) ∧
      TryFails config 13 0 .r2 [0x04, 0x01] [.byte 0x06] (.protocol [.fix 0x05] 1 [0x06] .cfgWr) :=
  ⟨⟨_, _, .noToken (reply (List.replicate 8 0xFF) []) rfl (by decide) rfl rfl⟩,
    ⟨_, _, .r1Error (reply [0xFF, 0x04] []) 0x04 _ rfl (polled 0x04 [] rfl) rfl rfl rfl⟩,
    ⟨_, _, .responseError (reply [0xFF, 0x00] [0x04]) 0x00 ready _ rfl (polled 0x00 [0x04] rfl) rfl rfl rfl rfl rfl⟩,
    .exchange (reply [0xFF, 0x00] [0x00]) 0x00 ready [] _ _ _ rfl (polled 0x00 [0x00] rfl) rfl rfl rfl
      (.short (fixedExchange [0x04, 0x01] [0x05] .cfgWr 0) _ [] rfl (by decide)),
    .exchange (reply [0xFF, 0x00] [0x00]) 0x00 ready [] _ _ _ rfl (polled 0x00 [0x00] rfl) rfl rfl rfl
      (.mismatch (fixedExchange [0x04, 0x01] [0x05] .cfgWr 0) _ [0x06] rfl rfl (by decide))⟩

/-- Steps 3 to 7 that succeed. -/
theorem witness_TrySucceeds (cmd : Nat) : ∃ tx rx, TrySucceeds config cmd 0 .r1 tx rx ⟨.r1 idle, [0xFF, 0x01]⟩ :=
  ⟨_, _, .answered (reply [0xFF, 0x01] []) 0x01 (.r1 idle) rfl (polled 0x01 [] rfl) rfl rfl rfl⟩

/-- A flush that breaks off at its second exchange (L2.4 row 17). -/
theorem witness_flush : Broken (dummyExchanges config [0xFF, 0xFF])
    [fixedExchange [0x10, 0xA6, 0x03] [0x11, 0xA6, 0x03] .setAddr 0] [0x10, 0xA6, 0x03, 0x30, 0x00]
    (arrivals [0x11, 0xA6, 0x03] ++ [.timeout]) (.transport 1 []) :=
  .short (fixedExchange [0x30, 0x00] [0x31] .wrHdr 0) _ [] rfl (by decide)

/-- A deselect that breaks off before and after its SET_ADDRESS. -/
theorem witness_deselect :
    Broken (selectExchanges config .none) [] [0x04, 0x01] [.timeout] (.transport 1 []) ∧
      ∃ done tx rx, Broken (selectExchanges config .none) done tx rx (.transport 1 []) ∧ done.length = 2 :=
  ⟨.short (fixedExchange [0x04, 0x01] [0x05] .cfgWr 0) _ [] rfl (by decide),
    ⟨[fixedExchange [0x04, 0x01] [0x05] .cfgWr 0, fixedExchange [0x10, 0xA6, 0x02] [0x11, 0xA6, 0x02] .setAddr 0], _, _,
      .short (fixedExchange [0x30, 0x00] [0x31] .wrHdr 0) _ [] rfl (by decide), rfl⟩⟩

/-- For FailedSdCommandsDeselect: a command that fails in each of its parts, kept or not; any received events `rx` are those
of some enabled state. -/
theorem witness_FailedSdCommandsDeselect :
    lookupShape config.cmdShape 13 = some .r2 ∧ lookupShape config.cmdShape 0 = some .r1 ∧
      CommandCanFail 13 .r2 true (.transport 1 []) 0xA602 .none ∧
      CommandCanFail 0 .r1 true (.transport 1 []) 0xA602 .none ∧
      CommandCanFail 0 .r1 false (.transport 1 []) 0xA603 .sd ∧
      ∀ rx : List RxEvent, (state .opened true false 0 rx).link = .opened ∧ (state .opened true false 0 rx).en = true ∧
        (state .opened true false 0 rx).rx = rx ++ [] :=
  have ⟨_, _, h⟩ := witness_TrySucceeds 0
  ⟨rfl, rfl, ⟨_, _, .inTry _ _ _ [0xFF, 0xFF] witness_TryFails.2.2.2.1 rfl⟩,
    ⟨_, _, .inFlush _ _ _ [0xFF, 0xFF] _ _ _ _ h rfl witness_flush⟩,
    ⟨_, _, .inDeselect _ _ _ [0xFF, 0xFF] _ _ _ _ rfl h rfl witness_deselect.1⟩,
    fun rx => ⟨rfl, rfl, (List.append_nil rx).symm⟩⟩

/-- For FailedApplicationCommandsDeselect: a CMD55 with no token, one that succeeds, and an application command that fails
after it. -/
theorem witness_FailedApplicationCommandsDeselect :
    acmdOf (.sdSendAcmd 41 0 true) = some (41, 0, true) ∧ lookupShape config.cmdShape 55 = some .r1 ∧
      lookupShape config.acmdShape 41 = some .r1 ∧ CanFail 55 .r1 (.sd 55 0 (List.replicate 8 0xFF) none) ∧
      CommandCanFail 55 .r1 false (.sd 55 0 (List.replicate 8 0xFF) none) 0xA602 .none ∧
      (∃ tx rx, TrySucceeds config 55 0 .r1 tx rx ⟨.r1 idle, [0xFF, 0x01]⟩) ∧
      CommandCanFail 41 .r1 true (.sd 41 0 (List.replicate 8 0xFF) none) 0xA602 .none :=
  have h (cmd : Nat) : CanFail cmd .r1 (.sd cmd 0 (List.replicate 8 0xFF) none) :=
    ⟨_, _, .noToken (reply (List.replicate 8 0xFF) []) rfl (by decide) rfl rfl⟩
  have f (cmd : Nat) (keep : Bool) : CommandCanFail cmd .r1 keep (.sd cmd 0 (List.replicate 8 0xFF) none) 0xA602 .none :=
    have ⟨_, _, h⟩ := h cmd
    ⟨_, _, .inTry _ _ _ [0xFF, 0xFF] h rfl⟩
  ⟨rfl, rfl, rfl, h 55, f 55 false, witness_TrySucceeds 55, f 41 true⟩

theorem witness_UndefinedIndicesAreValueErrors :
    cmdOf (.sdSendCmd 2 0 false) = some (2, 0, false) ∧ lookupShape config.cmdShape 2 = none ∧
      cmdOf (.cmd59CrcOnOff 0 0 false) = some (59, 0, false) ∧ lookupShape ({ config with cmdShape := [] } : Config).cmdShape 59 = none ∧
      acmdOf (.sdSendAcmd 63 0 false) = some (63, 0, false) ∧ lookupShape config.acmdShape 63 = none := by decide +kernel

theorem witness_RangeErrorsComeFirst :
    (-1 : Int) < 0 ∧ (0xFFFF : Int) < 0x10000 ∧ (0 : Int) < 1 ∧ (0xFFFF : Int) < 65536 ∧ (0 : Rat) ≤ 0 ∧ (63 : Int) < 64 ∧
      (0xFFFFFFFF : Int) < 0x100000000 := by decide +kernel

theorem witness_ClosedLinkTurnsWireOperationsAway :
    closed.link = .closed ∧ linkCheckOf config (.read 65535) = some .read ∧ linkCheckOf config .cfgRd = some .cfgRd ∧
      linkCheckOf config (.setAddress 0) = some .setAddress ∧ linkCheckOf config (.cmd0GoIdleState 0 0 true) = some .spiSelect ∧
      linkCheckOf config (.sdSendAcmd 41 0 true) = some .spiSelect ∧ isPure (.crc7 []) = true ∧
      isPure (.sdDecodeR1 0x80) = true := by decide +kernel

theorem witness_WrongEnablementIsAStateError :
    ((enabled []).link = .opened ∧ (enabled []).en = true ∧ requestsAdmissible (.cons .close .nil) = true) ∧
      (disabled []).link = .opened ∧ (disabled []).en = false ∧ needsEnabled (.spiWrite []) = true ∧
      linkCheckOf config (.spiWrite []) = some .spiWriteRead ∧ needsEnabled .disableCore = true ∧
      linkCheckOf config .disableCore = some .disableCore := by decide +kernel

/-- A waiting request, for the statements about a step. -/
def waiting (bytes : List Byte) : State := { disabled [0x05] with requests := [⟨.host, bytes⟩] }

theorem witness_StepRunsTheDecodedInstruction :
    configOk (waiting [0x03]).cfg = true ∧ (waiting [0x03]).requests = ⟨.host, [0x03]⟩ :: [] ∧
      decodeSubmission ⟨.host, [0x03]⟩ = .ok .enableCore := by decide +kernel

theorem witness_IdleStepsChangeNothing :
    configOk closed.cfg = true ∧ closed.requests = [] ∧
      ¬ (1 ≤ ({ config with subpkt := 0 } : Config).subpkt) ∧ ¬ (({ config with maxBurst := 257 } : Config).maxBurst ≤ 256) := by
  decide

/-- For ErrorsFollowTheRaiseMatrix: a session has the errors of its body, and no others but those of its enable and disable;
one that ends with a RangeError of its body. -/
theorem witness_ErrorsFollowTheRaiseMatrix :
    mayRaise (.withCoreEnabled (.cons (.read 0) .nil)) 5 = true ∧ mayRaise (.withCoreEnabled (.cons .readConfig .nil)) 5 = false ∧
      mayRaise (.withCoreEnabled (.cons (.withCoreEnabled (.cons (.sdDecodeR1 0x80) .nil)) .nil)) 7 = true ∧
      mayRaise (.withCoreEnabled (.cons (.sdSendCmd 0 0 true) .nil)) 1 = false ∧
      seen (exec (.withCoreEnabled (.cons (.read 0) .nil)) (disabled [0x05, 0x05])) =
        some (⟨.opened, false, false, 0, .unknown, .unknown⟩, [0x04, 0x01, 0x04, 0x00], [], [.err (.range .length 0)]) := by
  decide +kernel

/-- A step that goes on, from a coherent state, for StepsKeepClosedDisabled,
StepsKeepTheConfiguration and TransmitStreamIsAppendOnly. -/
theorem witness_steps :
    Coherent (waiting [0x03]) ∧ seen (step (waiting [0x03])) =
      some (⟨.opened, true, false, 0, .unknown, .unknown⟩, [0x04, 0x01], [], [.ok .unit]) :=
  ⟨fun h => (nomatch h), by decide +kernel⟩

/-- An instruction that goes on with one result, an error among them, and a packet of the device: for
ReceiveStreamIsConsumedFromItsHead, OneResultPerRequest, RegistersChangeOnlyByTheirOperations and
ErrorsFollowTheRaiseMatrix. -/
theorem witness_instructions :
    exec (.setAddress (-1)) closed = .next (after (.err (.range .addr (-1))) closed) ∧
      exec (.crc7 []) closed = .next (after (.ok (.crc 0)) closed) ∧ arrivalOf (.crc7 []) = none ∧ arrivalOf .rdAck = some [0x21] :=
  ⟨rfl, rfl, rfl, rfl⟩

theorem witness_WellFormedRequestsAreNeverRefused :
    configOk (waiting [0x03]).cfg = true ∧
      ∀ x ∈ (waiting [0x03]).requests, ∃ i : Instr, decodeSubmission x = .ok i ∧ i.wellFormed = true :=
  ⟨rfl, fun x hx => ⟨.enableCore, by obtain rfl := List.mem_singleton.mp hx; decide +kernel, rfl⟩⟩

end Sys2Proof.Tests
end

/-! The equation of `step` when the first waiting request decodes, and the statement of the family 00_scope.md. -/

namespace Sys2Proof.Proofs
open Sys2Proof Sys2Proof.Machine

/-- The one branch of `step` that performs an instruction: the request leaves the queue before it is performed
(10_state.md R21). -/
theorem step_of_decodeSubmission_ok {s : State} {x : Submission} {xs : List Submission} {i : Instr}
    (hcfg : configOk s.cfg = true) (hreq : s.requests = x :: xs) (hdec : decodeSubmission x = .ok i) :
    step s = exec i { s with requests := xs } := by
  simp only [step, hcfg, hreq, hdec, if_true]

/-- Settles O49: the configuration is accepted, the queue is not empty and its head decodes, which leaves of the branches
of `step` the one that performs the instruction. -/
theorem stepRunsTheDecodedInstruction : Obligations.StepRunsTheDecodedInstruction :=
  fun _ _ _ _ hcfg hreq hdec => step_of_decodeSubmission_ok hcfg hreq hdec

end Sys2Proof.Proofs

/-! What performing an instruction can do, said once over the rows of the opcode table: the frame (10_state.md R22 to
R32), the invariant of the registers (R43), the errors (60_exceptions.md R338). The statements of the family 10_state.md
are read off it. -/

namespace Sys2Proof.Proofs
open Sys2Proof Sys2Proof.Machine

section
variable {α β : Type}

/-! ### Operations that leave the state alone (30_encoding.md R110) -/

/-- The operation computes a result and leaves the state as it is. -/
def KeepsState (m : Op α) : Prop := ∀ s, (m s).2 = s

theorem keepsState_done (a : α) : KeepsState (done a) := fun _ => rfl

theorem keepsState_computed (r : Except ErrorRecord α) : KeepsState (computed r) := fun _ => rfl

theorem keepsState_withState {f : State → Op α} (h : ∀ s, KeepsState (f s)) : KeepsState (withState f) :=
  fun s => h s s

theorem keepsState_andThen {m : Op α} {k : α → Op β} (hm : KeepsState m) (hk : ∀ a, KeepsState (k a)) :
    KeepsState (andThen m k) := by
  intro s
  have hs := hm s
  rcases andThen_cases m k s with ⟨a, t, h, hmk⟩ | ⟨e, t, h, hmk⟩ <;> rw [h] at hs <;> rw [hmk]
  · exact (hk a t).trans hs
  · exact hs

theorem keepsState_mapValue {f : α → β} {m : Op α} (h : KeepsState m) : KeepsState (mapValue f m) :=
  keepsState_andThen h fun _ => keepsState_done _

theorem keepsState_requireRange (p : Param) (v lo hi : Int) : KeepsState (requireRange p v lo hi) := by
  intro s
  by_cases h : lo ≤ v ∧ v ≤ hi
  · rw [requireRange_ok h]
  · rw [requireRange_error h]

theorem keepsState_opSdBuildFrame (cmd arg : Int) : KeepsState (opSdBuildFrame cmd arg) :=
  keepsState_andThen (keepsState_andThen (keepsState_requireRange _ _ _ _) fun _ => keepsState_requireRange _ _ _ _)
    fun _ => keepsState_done _

/-! ### Operations that keep the invariant of the registers (10_state.md R43) -/

/-- The operation keeps `LINK = Closed` implies `EN = false`, whatever its outcome. -/
def KeepsCoherent (m : Op α) : Prop := ∀ s, Coherent s → Coherent (m s).2

theorem coherent_of_opened {s : State} (h : s.link = .opened) : Coherent s := fun hc => nomatch h.symm.trans hc

theorem coherent_of_disabled {s : State} (h : s.en = false) : Coherent s := fun _ => h

theorem keepsCoherent_done (a : α) : KeepsCoherent (done a) := fun _ h => h

theorem keepsCoherent_withState {f : State → Op α} (h : ∀ s, KeepsCoherent (f s)) : KeepsCoherent (withState f) :=
  fun s => h s s

theorem keepsCoherent_ite {p : Prop} [Decidable p] {m k : Op α} (hm : KeepsCoherent m) (hk : KeepsCoherent k) :
    KeepsCoherent (if p then m else k) := by split <;> assumption

theorem keepsCoherent_andThen {m : Op α} {k : α → Op β} (hm : KeepsCoherent m) (hk : ∀ a, KeepsCoherent (k a)) :
    KeepsCoherent (andThen m k) := by
  intro s hs
  have ht := hm s hs
  rcases andThen_cases m k s with ⟨a, t, h, hmk⟩ | ⟨e, t, h, hmk⟩ <;> rw [h] at ht <;> rw [hmk]
  · exact hk a t ht
  · exact ht

theorem keepsCoherent_mapValue {f : α → β} {m : Op α} (h : KeepsCoherent m) : KeepsCoherent (mapValue f m) :=
  keepsCoherent_andThen h fun _ => keepsCoherent_done _

theorem keepsCoherent_withCleanup {m : Op α} {c : Op Unit} (hm : KeepsCoherent m) (hc : KeepsCoherent c) :
    KeepsCoherent (withCleanup m c) := fun s hs => hc _ (hm s hs)

/-- An operation that writes neither LINK nor EN. -/
theorem keepsCoherent_of_within {ws : List Reg} {cs : List Nat} {m : Op α} (h : Within ws cs m)
    (hl : Reg.link ∉ ws) (he : Reg.en ∉ ws) : KeepsCoherent m := by
  intro s hs
  obtain ⟨hlink, hen, -⟩ := (h.of s).1.kept
  exact fun hc => (hen he).trans (hs ((hlink hl).symm.trans hc))

/-- An operation that does not write LINK and, with the link closed, ends before it writes anything: with the link open
it may write EN. -/
theorem keepsCoherent_of_linkCheck {ws : List Reg} {cs : List Nat} {m : Op α} (h : Within ws cs m)
    (hl : Reg.link ∉ ws) (hclosed : ∀ s, s.link = .closed → (m s).2 = s) : KeepsCoherent m := by
  intro s hs
  cases hlink : s.link with
  | closed => rwa [hclosed s hlink]
  | opened => exact coherent_of_opened (((h.of s).1.kept.1 hl).trans hlink)

theorem keepsCoherent_opEnableCore : KeepsCoherent opEnableCore :=
  keepsCoherent_of_linkCheck within_opEnableCore (by decide) fun _ hs => by
    rw [opEnableCore, andThen_error (requireLink_closed hs)]

theorem keepsCoherent_opDisableCore : KeepsCoherent opDisableCore :=
  keepsCoherent_of_linkCheck within_opDisableCore (by decide) fun _ hs => by
    rw [opDisableCore, andThen_error (requireOpenEnabled_closed hs)]

theorem keepsCoherent_opClose : KeepsCoherent opClose := fun _ _ => coherent_of_disabled rfl

/-- Everything INIT can do (41_debug_core.md R170): it is turned away with the link open, the port does not open, or its
exchanges run and end with every register reset. -/
theorem opInit_cases (path : Text) (s : State) :
    (s.link = .opened ∧ opInit path s = (.error (.state .init .linkClosed), s)) ∨
      (s.link = .closed ∧ ∃ t, drawOpen s = (.failed, t) ∧ opInit path s = (.error (.connection path), t)) ∨
      (s.link = .closed ∧ ∃ t u, drawOpen s = (.opened, t) ∧
        ((initExchanges { t with link := .opened } = (.ok (), u) ∧ opInit path s = (.ok (), resetShadows .opened u)) ∨
          ∃ e, initExchanges { t with link := .opened } = (.error e, u) ∧
            opInit path s = (.error e, resetShadows .closed u))) := by
  cases hl : s.link with
  | opened => exact .inl ⟨rfl, by simp only [opInit, hl]⟩
  | closed =>
    refine .inr ?_
    rcases hd : drawOpen s with ⟨_ | _, t⟩
    case opened =>
      rcases hi : initExchanges { t with link := .opened } with ⟨e | _, u⟩
      · exact .inr ⟨rfl, t, u, rfl, .inr ⟨e, hi, by simp only [opInit, hl, hd, hi]⟩⟩
      · exact .inr ⟨rfl, t, u, rfl, .inl ⟨hi, by simp only [opInit, hl, hd, hi]⟩⟩
    case failed => exact .inl ⟨rfl, t, rfl, by simp only [opInit, hl, hd]⟩

theorem keepsCoherent_opInit (path : Text) : KeepsCoherent (opInit path) := by
  intro s hs
  rcases opInit_cases path s with ⟨-, h⟩ | ⟨-, t, hd, h⟩ | ⟨-, t, u, -, ⟨-, h⟩ | ⟨e, -, h⟩⟩ <;> rw [h]
  · exact hs
  · have ht := drawOpen_snd s
    rw [hd] at ht
    rw [ht]
    exact hs
  · exact coherent_of_opened rfl
  · exact coherent_of_disabled rfl

theorem keepsCoherent_session {body : Op α} (h : KeepsCoherent body) : KeepsCoherent (session body) :=
  keepsCoherent_andThen keepsCoherent_opEnableCore fun _ => keepsCoherent_withCleanup h
    (keepsCoherent_withState fun _ => keepsCoherent_ite keepsCoherent_opDisableCore (keepsCoherent_done _))

/-! ### Operations that keep to the row of an instruction -/

/-- The codes of the errors an instruction may end with, of a session those of its body among them. -/
def codesOf : Instr → List Nat
  | .withCoreEnabled body => requestCodes (.withCoreEnabled body)
  | i => rowCodes i

theorem mayRaise_eq (i : Instr) (c : Nat) : mayRaise i c = decide (c ∈ codesOf i) := by cases i <;> rfl

/-- The operation keeps to what the tables of the statements list for an instruction, writes only its registers
(10_state.md R26 to R31) and ends only with its errors (60_exceptions.md R338); it keeps the invariant of the registers
(10_state.md R43), and leaves the state alone when the instruction is pure (30_encoding.md R110). -/
structure KeepsToRow (i : Instr) (m : Op α) : Prop where
  within : Within (writesOf i) (codesOf i) m
  coherent : KeepsCoherent m
  pure : isPure i = true → KeepsState m

theorem KeepsToRow.mapValue {i : Instr} {f : α → β} {m : Op α} (h : KeepsToRow i m) : KeepsToRow i (mapValue f m) :=
  ⟨within_mapValue h.within, keepsCoherent_mapValue h.coherent, fun hp => keepsState_mapValue (h.pure hp)⟩

/-- An operation that writes neither LINK nor EN keeps to the row that lists what it writes and ends with. -/
theorem keepsToRow_of_within {i : Instr} {ws : List Reg} {cs : List Nat} {m : Op α} (h : Within ws cs m)
    (hws : writesOf i = ws := by rfl) (hcs : codesOf i = cs := by rfl) (hp : isPure i = false := by rfl)
    (hl : Reg.link ∉ ws := by decide) (he : Reg.en ∉ ws := by decide) : KeepsToRow i m := by
  subst hws hcs
  exact ⟨h, keepsCoherent_of_within h hl he, fun hp' => nomatch hp.symm.trans hp'⟩

/-- An operation that leaves the state alone keeps to any row that lists its errors. -/
theorem keepsToRow_of_keepsState {i : Instr} {ws : List Reg} {cs : List Nat} {m : Op α} (hk : KeepsState m)
    (h : Within ws cs m) (hcs : codesOf i = cs := by rfl) : KeepsToRow i m := by
  subst hcs
  refine ⟨⟨fun s => ⟨?_, (h.of s).2⟩⟩, fun s hs => ?_, fun _ => hk⟩ <;> rw [hk s]
  · exact .refl _ s
  · exact hs

theorem keepsToRow_computed {i : Instr} {ws : List Reg} {cs : List Nat} {r : Except ErrorRecord α}
    (h : Within ws cs (computed r)) (hcs : codesOf i = cs := by rfl) : KeepsToRow i (computed r) :=
  keepsToRow_of_keepsState (keepsState_computed r) h hcs

mutual
/-- Every host request keeps to the row of its instruction, inside a session and on its own. -/
theorem keepsToRow_perform : ∀ r : Request, KeepsToRow (Instr.ofRequest r) (perform r)
  | .init _ => .mapValue ⟨within_opInit _, keepsCoherent_opInit _, fun hp => nomatch hp⟩
  | .close => .mapValue ⟨within_opClose, keepsCoherent_opClose, fun hp => nomatch hp⟩
  | .enableCore => .mapValue ⟨within_opEnableCore, keepsCoherent_opEnableCore, fun hp => nomatch hp⟩
  | .disableCore => .mapValue ⟨within_opDisableCore, keepsCoherent_opDisableCore, fun hp => nomatch hp⟩
  | .setAddress _ => .mapValue (keepsToRow_of_within (within_opSetAddress _))
  | .setAutoIncrement _ => .mapValue (keepsToRow_of_within (within_opSetAutoIncrement _))
  | .enableAutoIncrement => .mapValue (keepsToRow_of_within (within_opSetAutoIncrement _))
  | .disableAutoIncrement => .mapValue (keepsToRow_of_within (within_opSetAutoIncrement _))
  | .readConfig => .mapValue (keepsToRow_of_within within_opReadConfig)
  | .write _ => .mapValue (keepsToRow_of_within (within_opWrite _))
  | .read _ => .mapValue (keepsToRow_of_within (within_opRead _))
  | .withCoreEnabled body =>
      .mapValue ⟨within_session (within_performAll body), keepsCoherent_session (keepsCoherent_performAll body),
        fun hp => nomatch hp⟩
  | .sendAndExpect _ _ _ _ => .mapValue (keepsToRow_of_within (within_opSendAndExpect _ _ _ _))
  | .scatter _ _ => .mapValue (keepsToRow_computed (within_scatterOf _ _))
  | .spiSetSpeed _ => .mapValue (keepsToRow_of_within (within_opSpiSetSpeed _))
  | .spiSelect _ => .mapValue (keepsToRow_of_within (within_opSpiSelect _))
  | .spiDeselect => .mapValue (keepsToRow_of_within (within_opSpiSelect _))
  | .spiWriteRead _ => .mapValue (keepsToRow_of_within (within_opSpiWriteRead _))
  | .spiWrite _ => .mapValue (keepsToRow_of_within (within_opSpiWrite _))
  | .sdBuildFrame _ _ =>
      .mapValue (keepsToRow_of_keepsState (keepsState_opSdBuildFrame _ _) (within_opSdBuildFrame _ _))
  | .sdSendCmd _ _ _ => .mapValue (keepsToRow_of_within (within_withState fun _ => within_opSdSendCmd ..))
  | .sdSendAcmd _ _ _ => .mapValue (keepsToRow_of_within (within_opSdSendAcmd _ _ _))
  | .sdDecodeR1 _ => .mapValue (keepsToRow_computed (within_decodeR1 _))
  | .sdDecodeR1b _ _ => .mapValue (keepsToRow_computed (within_decodeResponse _ _ _))
  | .sdDecodeR2 _ _ => .mapValue (keepsToRow_computed (within_decodeResponse _ _ _))
  | .sdDecodeR3 _ _ _ _ _ => .mapValue (keepsToRow_computed (within_decodeResponse _ _ _))
  | .sdDecodeR7 _ _ _ _ _ => .mapValue (keepsToRow_computed (within_decodeResponse _ _ _))
  | .sdError _ => .mapValue (keepsToRow_of_keepsState (keepsState_withState fun _ => keepsState_done _)
      (within_withState (ws := []) (cs := []) fun _ => within_done _))
  | .crc7 _ => .mapValue (keepsToRow_of_keepsState (keepsState_done _) (within_done (ws := []) (cs := []) _))
/-- The body of a session keeps the invariant of the registers, request by request. -/
theorem keepsCoherent_performAll : ∀ rs : Requests, KeepsCoherent (performAll rs)
  | .nil => keepsCoherent_done _
  | .cons r rs => keepsCoherent_andThen (keepsToRow_perform r).coherent fun _ =>
      keepsCoherent_mapValue (keepsCoherent_performAll rs)
end

/-- A packet the block sends is turned away or exchanged; no shadow is written (40_framing_codec.md R140 to R144). -/
theorem keepsToRow_packetExchange {i : Instr} {op : OpName} {x : Op α} (h : Within [] [2, 3, 4] x)
    (hws : writesOf i = [] := by rfl) (hcs : codesOf i = [2, 3, 4] := by rfl) (hp : isPure i = false := by rfl) :
    KeepsToRow i (packetExchange op x) :=
  keepsToRow_of_within (within_andThen (within_requireLink _) fun _ => h) hws hcs hp

theorem within_requireShape {ws : List Reg} {cs : List Nat} (table : ShapeTable) (n : Nat) (h : 7 ∈ cs) :
    Within ws cs (requireShape table n) := by
  refine ⟨fun s => ?_⟩
  unfold requireShape
  split
  · exact ⟨.refl _ s, fun _ he => nomatch he⟩
  · exact ⟨.refl _ s, fun e he => by cases he; exact h⟩

/-- SD_SEND_ACMD of operands in range has no RangeError (60_exceptions.md R338). -/
theorem within_opSdSendAcmd_inRange {acmd arg : Int} (keep : Bool) (hc : 0 ≤ acmd) (hc' : acmd ≤ 63) (ha : 0 ≤ arg)
    (ha' : arg ≤ 0xFFFFFFFF) : Within [.ai, .addr, .cs] [2, 3, 4, 6, 7] (opSdSendAcmd acmd arg keep) := by
  have hcheck : Within [.ai, .addr, .cs] [2, 3, 4, 6, 7] (requireCmdArg acmd arg) :=
    ⟨fun t => by rw [requireCmdArg_ok hc hc' ha ha']; exact ⟨.refl _ t, fun _ he => nomatch he⟩⟩
  have h55 : ∀ table, Within [.ai, .addr, .cs] [2, 3, 4, 6, 7] (opSdSendCmd table 55 0 false) := fun table =>
    within_opSdSendCmd_inRange table false (by decide) (by decide) (by decide) (by decide)
  exact within_withState fun _ => within_andThen hcheck fun _ => within_andThen (within_requireShape _ _ (by decide))
    fun _ => within_andThen (h55 _) fun _ => within_opSdSendCmd_inRange _ _ hc hc' ha ha'

theorem keepsToRow_opSdSendCmdHost {i : Instr} (cmd : Nat) (arg : Word32) (keep : Bool) (hc : cmd ≤ 63 := by decide)
    (hws : writesOf i = [.ai, .addr, .cs] := by rfl) (hcs : codesOf i = [2, 3, 4, 6, 7] := by rfl)
    (hp : isPure i = false := by rfl) : KeepsToRow i (opSdSendCmdHost cmd arg.toNat keep) :=
  keepsToRow_of_within (within_withState fun _ =>
    within_opSdSendCmd_inRange _ _ (by omega) (by omega) (by omega) (by omega)) hws hcs hp

theorem keepsToRow_opSdSendAcmd {i : Instr} (acmd : Nat) (arg : Word32) (keep : Bool) (hc : acmd ≤ 63 := by decide)
    (hws : writesOf i = [.ai, .addr, .cs] := by rfl) (hcs : codesOf i = [2, 3, 4, 6, 7] := by rfl)
    (hp : isPure i = false := by rfl) : KeepsToRow i (opSdSendAcmd acmd arg.toNat keep) :=
  keepsToRow_of_within (within_opSdSendAcmd_inRange _ (by omega) (by omega) (by omega) (by omega)) hws hcs hp

/-! ### What an instruction does -/

theorem answer_mapValue (f : α → Value) (m : Op α) (s : State) : answer id (mapValue f m) s = answer f m s := by
  rcases h : m s with ⟨e | a, t⟩
  · rw [answer_error h, answer_error (mapValue_error h)]
  · rw [answer_ok h, answer_ok (mapValue_ok h), id]

/-- A host request as an instruction is its performance with the result delivered, unless it is one that is refused
(30_encoding.md R111, 40_framing_codec.md R133). -/
theorem exec_ofRequest_admissible {r : Request} (h : requestAdmissible r = true) (s : State) :
    exec (Instr.ofRequest r) s = answer id (perform r) s := by
  cases r with
  | withCoreEnabled body => exact (if_pos h).trans (answer_mapValue _ _ s).symm
  | sendAndExpect packet pattern n ctx => exact (if_pos (beq_iff_eq.mp h)).trans (answer_mapValue _ _ s).symm
  | close => exact (answer_mapValue unitValue opClose s).symm
  | sdError resp => exact (answer_mapValue .bit (opSdError resp) s).symm
  | crc7 bytes => exact (answer_mapValue .crc (done (crc7Of bytes)) s).symm
  | _ => exact (answer_mapValue _ _ s).symm

theorem exec_ofRequest_inadmissible {r : Request} (h : requestAdmissible r = false) (s : State) :
    ∃ q, exec (Instr.ofRequest r) s = .refused q := by
  cases r with
  | withCoreEnabled body => exact ⟨_, if_neg (Bool.eq_false_iff.mp h)⟩
  | sendAndExpect packet pattern n ctx => exact ⟨_, if_neg (beq_eq_false_iff_ne.mp h)⟩
  | _ => nomatch h

/-- Everything an instruction can do: a packet of the device arrives; an operation that keeps to its row runs and its
result is delivered; or it is refused. -/
inductive Meaning (i : Instr) (s : State) : Host.Outcome State Fault Refusal → Prop
  | arrives (bs : List Byte) (hbs : arrivalOf i = some bs) (hpure : isPure i = false) :
      Meaning i s (.next (arrive bs s))
  | answers {α : Type} (f : α → Value) (m : Op α) (hrow : KeepsToRow i m) (hbs : arrivalOf i = none) :
      Meaning i s (answer f m s)
  | refuses (q : Refusal) : Meaning i s (.refused q)

/-- A host request runs its performance, or is refused before any I/O (30_encoding.md R110, R111). -/
theorem meaning_ofRequest (r : Request) (s : State) : Meaning (Instr.ofRequest r) s (exec (Instr.ofRequest r) s) := by
  cases h : requestAdmissible r with
  | true =>
    rw [exec_ofRequest_admissible h]
    exact .answers _ _ (keepsToRow_perform r) (by cases r <;> rfl)
  | false =>
    obtain ⟨q, hq⟩ := exec_ofRequest_inadmissible h s
    rw [hq]
    exact .refuses q

/-- The rows of the opcode table, each by its kind: a host request, a packet the block sends, one the device sends, an
application command, a command. -/
theorem exec_meaning (i : Instr) (s : State) : Meaning i s (exec i s) := by
  cases i with
  | init path => exact meaning_ofRequest (.init path) s
  | close => exact meaning_ofRequest .close s
  | enableCore => exact meaning_ofRequest .enableCore s
  | disableCore => exact meaning_ofRequest .disableCore s
  | setAddress addr => exact meaning_ofRequest (.setAddress addr) s
  | setAutoIncrement flag => exact meaning_ofRequest (.setAutoIncrement flag) s
  | enableAutoIncrement => exact meaning_ofRequest .enableAutoIncrement s
  | disableAutoIncrement => exact meaning_ofRequest .disableAutoIncrement s
  | readConfig => exact meaning_ofRequest .readConfig s
  | write data => exact meaning_ofRequest (.write data) s
  | read length => exact meaning_ofRequest (.read length) s
  | withCoreEnabled body => exact meaning_ofRequest (.withCoreEnabled body) s
  | sendAndExpect packet pattern n ctx => exact meaning_ofRequest (.sendAndExpect packet pattern n ctx) s
  | scatter xs k => exact meaning_ofRequest (.scatter xs k) s
  | spiSetSpeed targetHz => exact meaning_ofRequest (.spiSetSpeed targetHz) s
  | spiSelect target => exact meaning_ofRequest (.spiSelect target) s
  | spiDeselect => exact meaning_ofRequest .spiDeselect s
  | spiWriteRead data => exact meaning_ofRequest (.spiWriteRead data) s
  | spiWrite data => exact meaning_ofRequest (.spiWrite data) s
  | sdBuildFrame cmd arg => exact meaning_ofRequest (.sdBuildFrame cmd arg) s
  | sdSendCmd cmd arg keep => exact meaning_ofRequest (.sdSendCmd cmd arg keep) s
  | sdSendAcmd acmd arg keep => exact meaning_ofRequest (.sdSendAcmd acmd arg keep) s
  | sdDecodeR1 t => exact meaning_ofRequest (.sdDecodeR1 t) s
  | sdDecodeR1b t b => exact meaning_ofRequest (.sdDecodeR1b t b) s
  | sdDecodeR2 t b => exact meaning_ofRequest (.sdDecodeR2 t b) s
  | sdDecodeR3 t b1 b2 b3 b4 => exact meaning_ofRequest (.sdDecodeR3 t b1 b2 b3 b4) s
  | sdDecodeR7 t b1 b2 b3 b4 => exact meaning_ofRequest (.sdDecodeR7 t b1 b2 b3 b4) s
  | sdError resp => exact meaning_ofRequest (.sdError resp) s
  | crc7 bytes => exact meaning_ofRequest (.crc7 bytes) s
  | cfgRd => exact .answers _ _ (keepsToRow_packetExchange within_xCfgRd) rfl
  | cfgWr en ai => exact .answers _ _ (keepsToRow_packetExchange (within_xCfgWr _)) rfl
  | setAddr addr => exact .answers _ _ (keepsToRow_packetExchange (within_xSetAddr _)) rfl
  | rd lenByte => exact .answers _ _ (keepsToRow_packetExchange (within_xRdHdr _)) rfl
  | wr lenByte => exact .answers _ _ (keepsToRow_packetExchange (within_xWrHdr _)) rfl
  | cfgRdAck | cfgWrAck | setAddrAck | rdAck | wrAck => exact .arrives _ rfl rfl
  | acmd13SdStatus arg crc keep | acmd22SendNumWrBlocks arg crc keep | acmd23SetWrBlkEraseCount arg crc keep
  | acmd41SdSendOpCond arg crc keep | acmd42SetClrCardDetect arg crc keep | acmd51SendScr arg crc keep =>
    exact .answers _ _ (keepsToRow_opSdSendAcmd _ arg keep) rfl
  | _ arg crc keep => exact .answers _ _ (keepsToRow_opSdSendCmdHost _ arg keep) rfl

theorem answer_next {f : α → Value} {m : Op α} {s t : State} (h : answer f m s = .next t) :
    ∃ r : Result, t = deliver r (m s).2 ∧ ∀ e, r = .err e → (m s).1 = .error e := by
  rcases answer_cases f m s with ⟨a, u, hm, ha⟩ | ⟨e, u, hm, ha⟩ <;> cases ha.symm.trans h <;> rw [hm]
  · exact ⟨_, rfl, fun _ he => nomatch he⟩
  · exact ⟨_, rfl, fun _ he => by cases he; rfl⟩

/-- Everything an instruction that goes on can have done: a packet of the device has arrived, or an operation that keeps
to the row has run, and the result it ended with is delivered. -/
theorem exec_next_cases {i : Instr} {s t : State} (h : exec i s = .next t) :
    (∃ bs, arrivalOf i = some bs ∧ isPure i = false ∧ t = arrive bs s) ∨
      (arrivalOf i = none ∧ ∃ (α : Type) (m : Op α) (r : Result), KeepsToRow i m ∧ t = deliver r (m s).2 ∧
        ∀ e, r = .err e → (m s).1 = .error e) := by
  have hi := exec_meaning i s
  rw [h] at hi
  generalize ho : Host.Outcome.next t = o at hi
  cases hi with
  | arrives bs hbs hpure => exact .inl ⟨bs, hbs, hpure, by cases ho; rfl⟩
  | answers f m hrow hbs =>
    obtain ⟨r, ht, he⟩ := answer_next ho.symm
    exact .inr ⟨hbs, _, m, r, hrow, ht, he⟩
  | refuses q => nomatch ho

theorem exec_coherent {i : Instr} {s t : State} (hs : Coherent s) (h : exec i s = .next t) : Coherent t := by
  rcases exec_next_cases h with ⟨bs, -, -, rfl⟩ | ⟨-, _, m, r, hrow, rfl, -⟩
  · exact hs
  · exact hrow.coherent s hs

/-- The frame of every instruction (10_state.md R23, R26 to R32). -/
theorem exec_frame {i : Instr} {s t : State} (h : exec i s = .next t) :
    KeptOutside (writesOf i) s t ∧ t.cfg = s.cfg ∧ t.requests = s.requests ∧ s.tx <+: t.tx := by
  rcases exec_next_cases h with ⟨bs, -, -, rfl⟩ | ⟨-, _, m, r, hrow, rfl, -⟩
  · exact ⟨(Stays.refl _ s).kept, rfl, rfl, List.prefix_refl _⟩
  · obtain ⟨hcfg, hreq, -, htx, -, hkept⟩ := (hrow.within.of s).1
    exact ⟨hkept, hcfg, hreq, htx⟩

/-- A pure instruction delivers a result and changes nothing else (30_encoding.md R110). -/
theorem exec_pure {i : Instr} {s t : State} (hp : isPure i = true) (h : exec i s = .next t) :
    ∃ r, t = deliver r s := by
  rcases exec_next_cases h with ⟨bs, -, hpure, -⟩ | ⟨-, _, m, r, hrow, rfl, -⟩
  · exact nomatch hpure.symm.trans hp
  · exact ⟨r, by rw [hrow.pure hp s]⟩

/-- Everything a step that goes on can have done: nothing waited, or the first waiting request was taken and performed
(00_scope.md R18, 60_exceptions.md R347). -/
theorem step_next_cases {s t : State} (h : step s = .next t) :
    (s.requests = [] ∧ t = s) ∨
      ∃ x xs i, s.requests = x :: xs ∧ decodeSubmission x = .ok i ∧ exec i { s with requests := xs } = .next t := by
  unfold step at h
  split at h
  · split at h
    next hreq => exact .inl ⟨hreq, by cases h; rfl⟩
    next x xs hreq =>
      split at h
      next => nomatch h
      next i hdec => exact .inr ⟨x, xs, i, hreq, hdec, h⟩
  · nomatch h

end

/-! ### The statements -/

/-- Settles O53: every instruction keeps the invariant, and taking a request from the queue touches neither register. -/
theorem stepsKeepClosedDisabled : Obligations.StepsKeepClosedDisabled := by
  intro s t hs h
  rcases step_next_cases h with ⟨-, rfl⟩ | ⟨x, xs, i, -, -, h⟩
  · exact hs
  · exact exec_coherent (s := { s with requests := xs }) hs h

/-- Settles O54: the frame of the instruction that runs, from the state whose queue has lost its head. -/
theorem stepsKeepTheConfiguration : Obligations.StepsKeepTheConfiguration := by
  intro s t h
  rcases step_next_cases h with ⟨hreq, rfl⟩ | ⟨x, xs, i, hreq, -, h⟩
  · exact ⟨rfl, by rw [hreq, List.tail_nil]⟩
  · obtain ⟨-, hcfg, hq, -⟩ := exec_frame h
    exact ⟨hcfg, by rw [hq, hreq, List.tail_cons]⟩

/-- Settles O55: no operation takes anything back from TX. -/
theorem transmitStreamIsAppendOnly : Obligations.TransmitStreamIsAppendOnly := by
  intro s t h
  rcases step_next_cases h with ⟨-, rfl⟩ | ⟨x, xs, i, -, -, h⟩
  · exact List.prefix_refl _
  · obtain ⟨-, -, -, htx⟩ := exec_frame h
    exact htx

/-- Settles O58: the frame, and of a pure operation that it delivers its result to the state it started from. -/
theorem registersChangeOnlyByTheirOperations : Obligations.RegistersChangeOnlyByTheirOperations := by
  intro i s t h
  obtain ⟨hkept, hcfg, hreq, -⟩ := exec_frame h
  refine ⟨hkept, hcfg, hreq, fun hp => ?_⟩
  obtain ⟨r, rfl⟩ := exec_pure hp h
  rfl

/-- Settles O56: an arrival is appended to RX, and any other instruction runs an operation that leaves an end of it. -/
theorem receiveStreamIsConsumedFromItsHead : Obligations.ReceiveStreamIsConsumedFromItsHead := by
  intro i s t h
  rcases exec_next_cases h with ⟨bs, hbs, -, rfl⟩ | ⟨hbs, _, m, r, hrow, rfl, -⟩ <;> rw [hbs]
  · rfl
  · exact (hrow.within.of s).1.rx

/-- Settles O57: an operation delivers nothing while it runs, and its one result when it ends. -/
theorem oneResultPerRequest : Obligations.OneResultPerRequest := by
  intro i s t hbs h
  rcases exec_next_cases h with ⟨bs, hbs', -, -⟩ | ⟨-, _, m, r, hrow, rfl, -⟩
  · exact nomatch hbs.symm.trans hbs'
  · exact ⟨r, by rw [deliver_results, (hrow.within.of s).1.results]⟩

/-- Settles O25: the five rows are `arrive` of their packets, whose bytes are those listed. -/
theorem devicePacketsArriveOnRx : Obligations.DevicePacketsArriveOnRx :=
  fun _ => ⟨fun _ => rfl, rfl, fun _ => rfl, rfl, rfl⟩

/-- A shape table of 6-bit indices gives no shape beyond them (30_encoding.md R94). -/
theorem lookupShape_eq_none {table : ShapeTable} {n : Nat} (h : ∀ p ∈ table, p.1 ≤ 63) (hn : 63 < n) :
    lookupShape table n = none :=
  List.lookup_eq_none_iff.mpr fun p hp => bne_iff_ne.mpr (Nat.lt_of_le_of_lt (h p hp) hn).ne'

/-- `CMD_SHAPE` index by index (43_sd_command.md R240): the indices of 6 bits one by one, and none beyond. -/
theorem lookupShape_defaultCmdShape (n : Nat) : lookupShape defaultCmdShape n =
    if n ∈ [0, 1, 6, 9, 10, 16, 17, 18, 24, 25, 27, 30, 32, 33, 42, 55, 56, 59] then some .r1
    else if n ∈ [12, 28, 29, 38] then some .r1b
    else if n = 13 then some .r2 else if n = 58 then some .r3 else if n = 8 then some .r7 else none := by
  rcases Nat.lt_or_ge 63 n with h | h
  · have hne : ∀ m ≤ 63, n ≠ m := fun m hm => (Nat.lt_of_le_of_lt hm h).ne'
    rw [lookupShape_eq_none (by decide) h]
    simp [hne]
  · revert n
    decide

theorem lookupShape_defaultAcmdShape (n : Nat) : lookupShape defaultAcmdShape n =
    if n ∈ [22, 23, 41, 42, 51] then some .r1 else if n = 13 then some .r2 else none := by
  rcases Nat.lt_or_ge 63 n with h | h
  · have hne : ∀ m ≤ 63, n ≠ m := fun m hm => (Nat.lt_of_le_of_lt hm h).ne'
    rw [lookupShape_eq_none (by decide) h]
    simp [hne]
  · revert n
    decide

/-- `F_CLK` is the one OPEN parameter that well-formedness bounds (00_scope.md R8), and it is a successor. -/
theorem configOk_resetConfig : configOk resetConfig = true := by
  have hclk : 1 ≤ resetConfig.fClk := Nat.le_add_left 1 Config.openFClkPred
  simp only [configOk, Bool.and_eq_true, decide_eq_true_eq]
  exact ⟨by decide, hclk⟩

/-- Settles O52: the core is disabled at reset, and the tables are looked up index by index. -/
theorem resetIsCoherentWithItsDefaults : Obligations.ResetIsCoherentWithItsDefaults :=
  ⟨coherent_of_disabled rfl, configOk_resetConfig, ⟨rfl, rfl, rfl, rfl, rfl, rfl, rfl⟩, ⟨rfl, rfl, rfl, rfl⟩,
    ⟨rfl, rfl, rfl, rfl⟩, ⟨rfl, rfl, rfl⟩, lookupShape_defaultCmdShape, lookupShape_defaultAcmdShape⟩

end Sys2Proof.Proofs

/-! The decoder and the encoder (30_encoding.md R81 to R111): what each encoding space reads back and what it rejects by
name, and the runs of well-formed requests. -/

namespace Sys2Proof.Proofs
open Sys2Proof Sys2Proof.Machine

section
variable {α β : Type}

/-! ### Sequencing of readers -/

theorem readThen_ok {m : Reader α} {k : α → Reader β} {bs rest : List Byte} {a : α} (h : m bs = .ok (a, rest)) :
    readThen m k bs = k a rest := by
  rw [readThen, h]

theorem readMap_ok {m : Reader α} {f : α → β} {bs rest : List Byte} {a : α} (h : m bs = .ok (a, rest)) :
    readMap f m bs = .ok (f a, rest) :=
  readThen_ok h

theorem readThen_byte (k : Byte → Reader β) (b : Byte) (bs : List Byte) : readThen readByte k (b :: bs) = k b bs := rfl

theorem readMap_error {m : Reader α} {f : α → β} {bs : List Byte} {e : DecodeError} (h : m bs = .error e) :
    readMap f m bs = .error e := by
  rw [readMap, readThen, h]

/-- What a reader gives back in front of the operands that follow. -/
theorem readThen_encode {m : Reader α} {enc : α → List Byte} (h : ReadsBack m enc) (k : α → Reader β) (a : α)
    (rest : List Byte) : readThen m k (enc a ++ rest) = k a rest :=
  readThen_ok (h a rest)

/-- What a reader gives back as the last operand. -/
theorem readMap_encode {m : Reader α} {enc : α → List Byte} (h : ReadsBack m enc) (f : α → β) (a : α)
    (rest : List Byte) : readMap f m (enc a ++ rest) = .ok (f a, rest) :=
  readMap_ok (h a rest)

/-- What a reader of two operands gives back. -/
theorem readPair_encode {γ : Type} {m : Reader α} {m' : Reader β} {enc : α → List Byte} {enc' : β → List Byte}
    (h : ReadsBack m enc) (h' : ReadsBack m' enc') (g : α → β → γ) (a : α) (b : β) (rest : List Byte) :
    readThen m (fun a => readMap (g a) m') ((enc a ++ enc' b) ++ rest) = .ok (g a b, rest) := by
  rw [List.append_assoc, readThen_encode h]
  exact readMap_encode h' (g a) b rest

/-! ### Submissions -/

theorem decodeSubmission_ok {p : Port} {b : Byte} {bs : List Byte} {i : Instr} (h : decode p (b :: bs) = .ok (i, [])) :
    decodeSubmission ⟨p, b :: bs⟩ = .ok i := by
  simp only [decodeSubmission, h]
  rfl

theorem decodeSubmission_error {p : Port} {b : Byte} {bs : List Byte} {e : DecodeError}
    (h : decode p (b :: bs) = .error e) : decodeSubmission ⟨p, b :: bs⟩ = .error e := by
  simp only [decodeSubmission, h]
  rfl

end

/-! ### Host requests (30_encoding.md R110) -/

/-- Every tag but WITH_CORE_ENABLED's is read by `readOperands`. -/
theorem readRequest_of_tag_ne {tag : Byte} (h : tag ≠ 0x0C) (f : Nat) (bs : List Byte) :
    readRequest (f + 1) (tag :: bs) = readOperands tag bs := by
  rw [readRequest]
  exact congrFun (if_neg h) bs

/-- The operands of a SEND_AND_EXPECT with a pattern of its expected length (40_framing_codec.md R133). -/
theorem readOperands_sendAndExpect (packet : List Byte) {pattern : Pattern} {n : Nat} (ctx : Text)
    (h : pattern.length = n) (rest : List Byte) :
    readOperands 0x10
        ((encodeBytes packet ++ encodeList encodePatElem pattern ++ encodeNat n ++ encodeBytes ctx) ++ rest) =
      .ok (.sendAndExpect packet pattern n ctx, rest) := by
  simp only [List.append_assoc]
  refine (readThen_encode readBytes_encode _ packet _).trans ?_
  refine (readThen_encode (readList_encode readPatElem_encode) _ pattern _).trans ?_
  refine (readThen_encode readNat_encode _ n _).trans ?_
  refine (readThen_encode readBytes_encode _ ctx rest).trans ?_
  exact congrFun (if_pos h) rest

/-- The operands of SD_SEND_CMD, and of SD_SEND_ACMD: two integers and a bit. -/
theorem readIntIntBool_encode {β : Type} (g : Int → Int → Bool → β) (cmd arg : Int) (keep : Bool) (rest : List Byte) :
    readThen readInt (fun c => readThen readInt fun a => readMap (g c a) readBool)
        ((encodeInt cmd ++ encodeInt arg ++ encodeBool keep) ++ rest) = .ok (g cmd arg keep, rest) := by
  rw [List.append_assoc (encodeInt cmd), List.append_assoc (encodeInt cmd), readThen_encode readInt_encode]
  exact readPair_encode readInt_encode readBool_encode (g cmd) arg keep rest

mutual
/-- A well-formed request is read back, with any bound on the nesting that its length does not exceed: every level of a
session takes at least a byte. The tag opens the reader of its operands; each operand is read back in turn. -/
theorem readRequest_encode : ∀ (r : Request) (f : Nat) (rest : List Byte), requestWellFormed r = true →
    (encodeRequest r).length ≤ f → readRequest f (encodeRequest r ++ rest) = .ok (r, rest)
  | r, 0, _, _, hf => by cases r <;> nomatch hf
  | .withCoreEnabled body, f + 1, rest, h, hf =>
    readMap_ok (readBody_encode body f rest h (Nat.le_of_succ_le_succ hf))
  | .init path, f + 1, rest, _, _ => readMap_encode readBytes_encode _ path rest
  | .close, _ + 1, _, _, _ | .enableCore, _ + 1, _, _, _ | .disableCore, _ + 1, _, _, _
  | .enableAutoIncrement, _ + 1, _, _, _ | .disableAutoIncrement, _ + 1, _, _, _ | .readConfig, _ + 1, _, _, _
  | .spiDeselect, _ + 1, _, _, _ => rfl
  | .setAddress addr, f + 1, rest, _, _ => readMap_encode readInt_encode _ addr rest
  | .setAutoIncrement flag, f + 1, rest, _, _ => readMap_encode readBool_encode _ flag rest
  | .write data, f + 1, rest, _, _ => readMap_encode readBytes_encode _ data rest
  | .read length, f + 1, rest, _, _ => readMap_encode readInt_encode _ length rest
  | .sendAndExpect packet pattern n ctx, f + 1, rest, h, _ =>
    readOperands_sendAndExpect packet ctx (beq_iff_eq.mp h) rest
  | .scatter xs k, f + 1, rest, _, _ => readPair_encode (readList_encode readNat_encode) readInt_encode _ xs k rest
  | .spiSetSpeed targetHz, f + 1, rest, _, _ => readMap_encode readRat_encode _ targetHz rest
  | .spiSelect target, f + 1, rest, _, _ => readMap_encode readTarget_encode _ target rest
  | .spiWriteRead data, f + 1, rest, _, _ => readMap_encode readBytes_encode _ data rest
  | .spiWrite data, f + 1, rest, _, _ => readMap_encode readBytes_encode _ data rest
  | .sdBuildFrame cmd arg, f + 1, rest, _, _ => readPair_encode readInt_encode readInt_encode _ cmd arg rest
  | .sdSendCmd cmd arg keep, f + 1, rest, _, _ => readIntIntBool_encode _ cmd arg keep rest
  | .sdSendAcmd acmd arg keep, f + 1, rest, _, _ => readIntIntBool_encode _ acmd arg keep rest
  | .sdDecodeR1 _, _ + 1, _, _, _ | .sdDecodeR1b _ _, _ + 1, _, _, _ | .sdDecodeR2 _ _, _ + 1, _, _, _
  | .sdDecodeR3 _ _ _ _ _, _ + 1, _, _, _ | .sdDecodeR7 _ _ _ _ _, _ + 1, _, _, _ => rfl
  | .sdError _, f + 1, rest, h, _ => readMap_ok (readResponse_encode h rest)
  | .crc7 bytes, f + 1, rest, _, _ => readMap_encode readBytes_encode _ bytes rest
/-- The body of a session, its requests read back one by one (41_debug_core.md R183). -/
theorem readBody_encode : ∀ (body : Requests) (f : Nat) (rest : List Byte), requestsWellFormed body = true →
    (encodeBody body).length ≤ f → readBody f (encodeBody body ++ rest) = .ok (body, rest)
  | body, 0, _, _, hf => by cases body <;> nomatch hf
  | .nil, _ + 1, _, _, _ => rfl
  | .cons r rs, f + 1, rest, h, hf => by
    obtain ⟨hr, hrs⟩ := Bool.and_eq_true_iff.mp h
    simp only [encodeBody, List.length_cons, List.length_append] at hf
    have hhead := readRequest_encode r f (encodeBody rs ++ rest) hr (by omega)
    have htail := readBody_encode rs f rest hrs (by omega)
    rw [encodeBody, List.cons_append, List.append_assoc]
    exact (readThen_ok hhead).trans (readMap_ok htail)
end

/-- A well-formed request decodes to the row it is (30_encoding.md R110). -/
theorem decodeSubmission_encodeRequest (r : Request) (h : requestWellFormed r = true) :
    decodeSubmission ⟨.host, encodeRequest r⟩ = .ok (Instr.ofRequest r) := by
  have hread := readRequest_encode r ((encodeRequest r).length + 1) [] h (Nat.le_succ _)
  rw [List.append_nil] at hread
  have hdecode : decode .host (encodeRequest r) = .ok (Instr.ofRequest r, []) := readMap_ok hread
  cases hbytes : encodeRequest r with
  | nil => cases r <;> nomatch hbytes
  | cons b bs => exact decodeSubmission_ok (hbytes ▸ hdecode)

/-! ### Wire packets (30_encoding.md R81, R82, R85) -/

theorem decodeSubmission_cfgWr (en ai : Bool) :
    decodeSubmission ⟨.wire, cfgWrPacket (cfgByte en ai)⟩ = .ok (.cfgWr en ai) := by
  cases en <;> cases ai <;> rfl

theorem decodeSubmission_setAddr (a : Addr) : decodeSubmission ⟨.wire, setAddrPacket a⟩ = .ok (.setAddr a) :=
  decodeSubmission_ok (readMap_encode readAddr_encode Instr.setAddr a [])

theorem decodeSubmission_setAddrAck (a : Addr) : decodeSubmission ⟨.wire, setAddrAckPacket a⟩ = .ok (.setAddrAck a) :=
  decodeSubmission_ok (readMap_encode readAddr_encode Instr.setAddrAck a [])

/-! ### SD command frames (30_encoding.md R92, R94, R95) -/

/-- A frame of any CRC field, with what follows it read as `keep`, is the instruction of its index. -/
theorem decodeFrame_encode (instrOf : Nat → Word32 → BitVec 7 → Bool → Instr) {n : Nat} (hn : n ≤ 63) (arg : Word32)
    (crc : BitVec 7) {tail : List Byte} {keep : Bool} (htail : readKeep tail = .ok (keep, [])) :
    decodeFrame instrOf (frameHeader n arg ++ crcByte crc :: tail) = .ok (instrOf n arg crc keep, []) := by
  obtain ⟨hstart, hindex⟩ := frame_first_byte n hn
  have hcrc : readCrcByte (crcByte crc :: tail) = .ok (crc, tail) := readCrcByte_encode crc tail
  rw [frameHeader, List.cons_append, decodeFrame, readThen_byte, if_pos hstart,
    readThen_encode readWord_encode, readThen_ok hcrc, readMap_ok htail, frameIndex, hindex]

theorem decodeSubmission_cmdFrame {n : Nat} (hn : n ≤ 63) (arg : Word32) (crc : BitVec 7) {tail : List Byte}
    {keep : Bool} (htail : readKeep tail = .ok (keep, [])) :
    decodeSubmission ⟨.sd, frameHeader n arg ++ crcByte crc :: tail⟩ = .ok (cmdFrame n arg crc keep) :=
  decodeSubmission_ok (decodeFrame_encode cmdFrame hn arg crc htail)

theorem decodeSubmission_acmdFrame {n : Nat} (hn : n ≤ 63) (arg : Word32) (crc : BitVec 7) {tail : List Byte}
    {keep : Bool} (htail : readKeep tail = .ok (keep, [])) :
    decodeSubmission ⟨.sdApp, frameHeader n arg ++ crcByte crc :: tail⟩ = .ok (acmdFrame n arg crc keep) :=
  decodeSubmission_ok (decodeFrame_encode acmdFrame hn arg crc htail)

/-- The byte after a frame is its `keep` operand (log entry 9). -/
theorem readKeep_encodeBool (keep : Bool) : readKeep (encodeBool keep) = .ok (keep, []) := by cases keep <;> rfl

/-- A frame with bytes behind it, its CRC byte in front of them. -/
theorem sdFrame_append (n : Nat) (arg : Word32) (tail : List Byte) :
    sdFrame n arg ++ tail = frameHeader n arg ++ crcByte (crc7Of (frameHeader n arg)) :: tail :=
  List.append_assoc _ _ _

theorem crcByte_eq_shift (c : BitVec 7) : crcByte c = BitVec.setWidth 8 c <<< 1 ||| 1#8 := by revert c; decide

theorem crcByte_end_bit (c : BitVec 7) : (crcByte c).getLsbD 0 = true := by revert c; decide

/-! ### What the decoder rejects by name (30_encoding.md R89, R91, R111) -/

/-- The tags of 30_encoding.md R110. -/
def requestTags : List Byte :=
  [0x01, 0x02, 0x03, 0x04, 0x05, 0x06, 0x07, 0x08, 0x09, 0x0A, 0x0B, 0x0C, 0x10, 0x11, 0x20, 0x21, 0x22, 0x23, 0x24, 0x30,
    0x31, 0x32, 0x40, 0x41, 0x42, 0x43, 0x44, 0x45, 0x50]

/-- The opcodes of 30_encoding.md R81. -/
def packetOpcodes : List Byte := [0x02, 0x03, 0x04, 0x05, 0x10, 0x11, 0x20, 0x21, 0x30, 0x31]

theorem mem_of_toNat_eq {b : Byte} {n : Nat} {bs : List Byte} (hn : b.toNat = n) (h : BitVec.ofNat 8 n ∈ bs) :
    b ∈ bs := by
  rwa [← hn, BitVec.ofNat_toNat, BitVec.setWidth_eq] at h

theorem readOperands_unknownTag {tag : Byte} (h : tag ∉ requestTags) :
    readOperands tag = fun _ => .error (.unknownTag tag) := by
  unfold readOperands
  split
  case h_29 => rfl
  all_goals next htag => exact absurd (mem_of_toNat_eq htag (by decide)) h

theorem decodeWire_unknownOpcode {op : Byte} (h : op ∉ packetOpcodes) (bs : List Byte) :
    decodeWire (op :: bs) = .error (.unknownOpcode op) := by
  rw [decodeWire, readThen_byte]
  refine congrFun (g := fun _ => Except.error (DecodeError.unknownOpcode op)) ?_ bs
  split
  case h_11 => rfl
  all_goals next hop => exact absurd (mem_of_toNat_eq hop (by decide)) h

theorem decodeSubmission_unknownTag {tag : Byte} (h : tag ∉ requestTags) (rest : List Byte) :
    decodeSubmission ⟨.host, tag :: rest⟩ = .error (.unknownTag tag) := by
  have htag : tag ≠ 0x0C := fun he => h (he ▸ by decide)
  have hread := (readRequest_of_tag_ne htag (tag :: rest).length rest).trans (congrFun (readOperands_unknownTag h) rest)
  exact decodeSubmission_error (readMap_error hread)

theorem decodeSubmission_unknownOpcode {op : Byte} (h : op ∉ packetOpcodes) (rest : List Byte) :
    decodeSubmission ⟨.wire, op :: rest⟩ = .error (.unknownOpcode op) :=
  decodeSubmission_error (decodeWire_unknownOpcode h rest)

/-- Bits 7:2 of a CFG_WR byte are 0, or it is no packet (30_encoding.md R82). -/
theorem decodeSubmission_cfgWr_fixedBits {c : Byte} (h : c.extractLsb' 2 6 ≠ 0) :
    decodeSubmission ⟨.wire, [0x04, c]⟩ = .error (.fixedBits c) :=
  decodeSubmission_error (congrFun (if_neg h) [])

/-- A step refuses what the decoder rejects (30_encoding.md R111). -/
theorem step_of_decodeSubmission_error {s : State} {x : Submission} {xs : List Submission} {e : DecodeError}
    (hcfg : configOk s.cfg = true) (hreq : s.requests = x :: xs) (hdec : decodeSubmission x = .error e) :
    step s = .refused (.badRequest e) := by
  simp only [step, hcfg, hreq, hdec, if_true]

/-! ### Well-formed instructions are performed -/

mutual
/-- The operands of a well-formed request are of their listed types, so it is not one that is refused. -/
theorem requestAdmissible_of_wellFormed : ∀ r : Request, requestWellFormed r = true → requestAdmissible r = true
  | .sendAndExpect _ _ _ _, h => h
  | .withCoreEnabled body, h => requestsAdmissible_of_wellFormed body h
  | .init _, _ | .close, _ | .enableCore, _ | .disableCore, _ | .setAddress _, _ | .setAutoIncrement _, _
  | .enableAutoIncrement, _ | .disableAutoIncrement, _ | .readConfig, _ | .write _, _ | .read _, _ | .scatter _ _, _
  | .spiSetSpeed _, _ | .spiSelect _, _ | .spiDeselect, _ | .spiWriteRead _, _ | .spiWrite _, _ | .sdBuildFrame _ _, _
  | .sdSendCmd _ _ _, _ | .sdSendAcmd _ _ _, _ | .sdDecodeR1 _, _ | .sdDecodeR1b _ _, _ | .sdDecodeR2 _ _, _
  | .sdDecodeR3 _ _ _ _ _, _ | .sdDecodeR7 _ _ _ _ _, _ | .sdError _, _ | .crc7 _, _ => rfl
/-- The same of the requests of a body. -/
theorem requestsAdmissible_of_wellFormed :
    ∀ body : Requests, requestsWellFormed body = true → requestsAdmissible body = true
  | .nil, _ => rfl
  | .cons r rs, h => by
    obtain ⟨hr, hrs⟩ := Bool.and_eq_true_iff.mp h
    exact Bool.and_eq_true_iff.mpr ⟨requestAdmissible_of_wellFormed r hr, requestsAdmissible_of_wellFormed rs hrs⟩
end

/-- Two rows can refuse their operands, and do not refuse well-formed ones; every other row answers or arrives. -/
theorem exec_next_of_wellFormed {i : Instr} (h : i.wellFormed = true) (s : State) : ∃ t, exec i s = .next t := by
  cases i with
  | sendAndExpect packet pattern n ctx => exact ⟨_, if_pos (beq_iff_eq.mp h)⟩
  | withCoreEnabled body => exact ⟨_, if_pos (requestsAdmissible_of_wellFormed body h)⟩
  | _ => exact ⟨_, rfl⟩

/-- What makes a step go on: well-formed parameters, and requests that decode to well-formed instructions. -/
def Runnable (s : State) : Prop :=
  configOk s.cfg = true ∧ ∀ x ∈ s.requests, ∃ i : Instr, decodeSubmission x = .ok i ∧ i.wellFormed = true

theorem step_next_of_runnable {s : State} (h : Runnable s) : ∃ t, step s = .next t := by
  obtain ⟨hcfg, hreqs⟩ := h
  cases hreq : s.requests with
  | nil => exact ⟨s, by simp only [step, hcfg, hreq, if_true]⟩
  | cons x xs =>
    obtain ⟨i, hdec, hi⟩ := hreqs x (hreq ▸ List.mem_cons_self)
    rw [step_of_decodeSubmission_ok hcfg hreq hdec]
    exact exec_next_of_wellFormed hi _

/-- A step takes requests from the queue and leaves the parameters, so it keeps what makes steps go on. -/
theorem step_runnable {s t : State} (h : Runnable s) (hst : step s = .next t) : Runnable t := by
  obtain ⟨hcfg, hreqs⟩ := h
  obtain ⟨hc, hq⟩ := stepsKeepTheConfiguration s t hst
  exact ⟨hc ▸ hcfg, fun x hx => hreqs x (List.mem_of_mem_tail (hq ▸ hx))⟩

theorem run_of_step_next {M : Host.Core} {s t : M.State} (h : M.step s = .next t) (n : Nat) :
    M.run (n + 1) s = M.run n t := by
  rw [Host.Core.run, h]

theorem safeRun_succ {n : Nat} {s t : State} (hst : step s = .next t) (h : SafeRun n t) : SafeRun (n + 1) s := by
  obtain ⟨u, hu⟩ := h
  exact ⟨u, (run_of_step_next (M := core) hst n).trans hu⟩

theorem safeRun_of_runnable (n : Nat) {s : State} (h : Runnable s) : SafeRun n s := by
  induction n generalizing s with
  | zero => exact ⟨s, rfl⟩
  | succ n ih =>
    obtain ⟨t, hst⟩ := step_next_of_runnable h
    exact safeRun_succ hst (ih (step_runnable h hst))

/-! ### The statements of the family 30_encoding.md -/

/-- Settles O1, by the encoding space of the row: a host request is read back from its operands, a wire packet from its
fields, an SD frame from its index, argument, CRC field and `keep`. -/
theorem decodeOfEncodeIsTheInstruction : Obligations.DecodeOfEncodeIsTheInstruction := by
  intro i h
  cases i with
  | init path => exact decodeSubmission_encodeRequest (.init path) h
  | close => exact decodeSubmission_encodeRequest .close h
  | enableCore => exact decodeSubmission_encodeRequest .enableCore h
  | disableCore => exact decodeSubmission_encodeRequest .disableCore h
  | setAddress addr => exact decodeSubmission_encodeRequest (.setAddress addr) h
  | setAutoIncrement flag => exact decodeSubmission_encodeRequest (.setAutoIncrement flag) h
  | enableAutoIncrement => exact decodeSubmission_encodeRequest .enableAutoIncrement h
  | disableAutoIncrement => exact decodeSubmission_encodeRequest .disableAutoIncrement h
  | readConfig => exact decodeSubmission_encodeRequest .readConfig h
  | write data => exact decodeSubmission_encodeRequest (.write data) h
  | read length => exact decodeSubmission_encodeRequest (.read length) h
  | withCoreEnabled body => exact decodeSubmission_encodeRequest (.withCoreEnabled body) h
  | sendAndExpect packet pattern n ctx => exact decodeSubmission_encodeRequest (.sendAndExpect packet pattern n ctx) h
  | scatter xs k => exact decodeSubmission_encodeRequest (.scatter xs k) h
  | spiSetSpeed targetHz => exact decodeSubmission_encodeRequest (.spiSetSpeed targetHz) h
  | spiSelect target => exact decodeSubmission_encodeRequest (.spiSelect target) h
  | spiDeselect => exact decodeSubmission_encodeRequest .spiDeselect h
  | spiWriteRead data => exact decodeSubmission_encodeRequest (.spiWriteRead data) h
  | spiWrite data => exact decodeSubmission_encodeRequest (.spiWrite data) h
  | sdBuildFrame cmd arg => exact decodeSubmission_encodeRequest (.sdBuildFrame cmd arg) h
  | sdSendCmd cmd arg keep => exact decodeSubmission_encodeRequest (.sdSendCmd cmd arg keep) h
  | sdSendAcmd acmd arg keep => exact decodeSubmission_encodeRequest (.sdSendAcmd acmd arg keep) h
  | sdDecodeR1 t => exact decodeSubmission_encodeRequest (.sdDecodeR1 t) h
  | sdDecodeR1b t b => exact decodeSubmission_encodeRequest (.sdDecodeR1b t b) h
  | sdDecodeR2 t b => exact decodeSubmission_encodeRequest (.sdDecodeR2 t b) h
  | sdDecodeR3 t b1 b2 b3 b4 => exact decodeSubmission_encodeRequest (.sdDecodeR3 t b1 b2 b3 b4) h
  | sdDecodeR7 t b1 b2 b3 b4 => exact decodeSubmission_encodeRequest (.sdDecodeR7 t b1 b2 b3 b4) h
  | sdError resp => exact decodeSubmission_encodeRequest (.sdError resp) h
  | crc7 bytes => exact decodeSubmission_encodeRequest (.crc7 bytes) h
  | cfgWr en ai => exact decodeSubmission_cfgWr en ai
  | setAddr addr => exact decodeSubmission_setAddr addr
  | setAddrAck addr => exact decodeSubmission_setAddrAck addr
  | cfgRd | cfgRdAck | cfgWrAck | rd | rdAck | wr | wrAck => rfl
  | acmd13SdStatus arg crc keep | acmd22SendNumWrBlocks arg crc keep | acmd23SetWrBlkEraseCount arg crc keep
  | acmd41SdSendOpCond arg crc keep | acmd42SetClrCardDetect arg crc keep | acmd51SendScr arg crc keep =>
    exact decodeSubmission_acmdFrame (by decide) arg crc (readKeep_encodeBool keep)
  | _ arg crc keep => exact decodeSubmission_cmdFrame (by decide) arg crc (readKeep_encodeBool keep)

/-- Settles O60: runnable states are kept by every step, and from one of them a step goes on. -/
theorem wellFormedRequestsAreNeverRefused : Obligations.WellFormedRequestsAreNeverRefused :=
  fun n _ hcfg hreqs => safeRun_of_runnable n ⟨hcfg, hreqs⟩

/-- Settles O3: the rejections of the two decoders, and the branch of `step` that refuses. -/
theorem unknownTagsAndOpcodesAreRefused : Obligations.UnknownTagsAndOpcodesAreRefused :=
  ⟨fun _ rest h => decodeSubmission_unknownTag h rest, fun _ rest h => decodeSubmission_unknownOpcode h rest,
    fun _ _ _ _ => step_of_decodeSubmission_error⟩

/-- Settles O4: bits 7:6 of byte 0 are `01` and bits 5:0 the index; byte 5 is the CRC in front of the end bit. -/
theorem sdFrameIsLaidOut : Obligations.SdFrameIsLaidOut := by
  intro cmd arg h
  obtain ⟨hstart, hindex⟩ := frame_first_byte cmd h
  have hbit7 := congrArg (BitVec.getLsbD · 1) hstart
  have hbit6 := congrArg (BitVec.getLsbD · 0) hstart
  simp only [BitVec.getLsbD_extractLsb'] at hbit7 hbit6
  refine ⟨?_, hbit7, hbit6, hindex, crcByte_end_bit _⟩
  rw [← crcByte_eq_shift]
  rfl

/-- Settles O5: a built frame is one with the computed CRC field, and a frame that stands alone is read with `keep`
clear. -/
theorem builtFramesDecodeToTheirCommands : Obligations.BuiltFramesDecodeToTheirCommands := by
  intro n arg keep hn
  have hcmd {tail : List Byte} {k : Bool} (htail : readKeep tail = .ok (k, [])) :
      decodeSubmission ⟨.sd, sdFrame n arg ++ tail⟩ = .ok (cmdFrame n arg (crc7Of (frameHeader n arg)) k) :=
    sdFrame_append n arg tail ▸ decodeSubmission_cmdFrame hn arg _ htail
  have hacmd {tail : List Byte} {k : Bool} (htail : readKeep tail = .ok (k, [])) :
      decodeSubmission ⟨.sdApp, sdFrame n arg ++ tail⟩ = .ok (acmdFrame n arg (crc7Of (frameHeader n arg)) k) :=
    sdFrame_append n arg tail ▸ decodeSubmission_acmdFrame hn arg _ htail
  have halone : readKeep [] = .ok (false, []) := rfl
  refine ⟨hcmd (readKeep_encodeBool keep), hacmd (readKeep_encodeBool keep), ?_, ?_⟩
  · exact (hcmd halone).trans (hcmd (readKeep_encodeBool false)).symm
  · exact (hacmd halone).trans (hacmd (readKeep_encodeBool false)).symm

/-- Settles O2: the packets are those of the table, and each word written out is the encoding of
its instruction, which is read back. -/
theorem wirePacketsHaveTheirBytes : Obligations.WirePacketsHaveTheirBytes := by
  have roundTrip := decodeOfEncodeIsTheInstruction
  refine ⟨rfl, fun _ => rfl, fun _ _ => rfl, rfl, fun _ => rfl, fun _ => rfl, fun _ => rfl, rfl, fun _ => rfl, rfl, rfl,
    rfl, rfl, rfl, fun _ => decodeSubmission_cfgWr_fixedBits, ?_, ?_, ?_, ?_, ?_⟩
  · exact roundTrip (.setAddr 0x1234) rfl
  · exact roundTrip (.cfgWr true true) rfl
  · exact roundTrip (.read 3) rfl
  · exact decodeSubmission_cmdFrame (n := 8) (by decide) 0x1AA 0x43 (readKeep_encodeBool false)
  · exact decodeSubmission_acmdFrame (n := 41) (by decide) 0x40000000 0x3B (readKeep_encodeBool true)

/-- Settles O13: each default mask written out, and its bits compared two by two. -/
theorem defaultMasksAssertAtMostOneLine : Obligations.DefaultMasksAssertAtMostOneLine := by
  refine ⟨rfl, rfl, rfl, rfl, fun t => ?_⟩
  cases t <;> decide

end Sys2Proof.Proofs

/-! The framing codec (40_framing_codec.md R131 to R148): what `Match`, `Captures` and `scatter` are by index, the exchange
of a row with the link open, and the bytes a transfer counts; and the statements of the family 40_framing_codec.md. -/

namespace Sys2Proof.Proofs
open Sys2Proof Sys2Proof.Machine

section
variable {α : Type}

/-! ### Patterns (40_framing_codec.md R132) -/

theorem elemAccepts_iff (e : PatElem) (r : Byte) : elemAccepts e r = true ↔ ∀ b, e = .fix b → r = b := by
  cases e with
  | fix b => simp [elemAccepts]
  | any => simp [elemAccepts]
  | cap => simp [elemAccepts]

theorem matchPattern_iff_forall₂ (pat : Pattern) (bs : List Byte) :
    matchPattern pat bs = true ↔ List.Forall₂ (fun e r => elemAccepts e r = true) pat bs := by
  induction pat generalizing bs with
  | nil => cases bs <;> simp [matchPattern]
  | cons e es ih => cases bs <;> simp [matchPattern, ih]

theorem matchPattern_iff_getElem? (pat : Pattern) (bs : List Byte) :
    matchPattern pat bs = true ↔
      bs.length = pat.length ∧ ∀ (i : Nat) (b r : Byte), pat[i]? = some (.fix b) → bs[i]? = some r → r = b := by
  rw [matchPattern_iff_forall₂, List.forall₂_iff_get, eq_comm]
  refine and_congr_right fun _ => ⟨fun h i b r he hr => ?_, fun h i hi hi' => ?_⟩
  · obtain ⟨hi, he⟩ := List.getElem?_eq_some_iff.mp he
    obtain ⟨hi', hr⟩ := List.getElem?_eq_some_iff.mp hr
    exact (elemAccepts_iff ..).mp (hr ▸ h i hi hi') b he
  · exact (elemAccepts_iff ..).mpr fun b he =>
      h i b _ (List.getElem?_eq_some_iff.mpr ⟨hi, he⟩) (List.getElem?_eq_getElem hi')

theorem captures_eq_filter_zip (pat : Pattern) (bs : List Byte) :
    captures pat bs = ((pat.zip bs).filter fun p => decide (p.1 = .cap)).map Prod.snd := by
  induction pat generalizing bs with
  | nil => rfl
  | cons e es ih =>
    cases bs with
    | nil => cases e <;> rfl
    | cons b bs => cases e <;> simp [captures, ih]

/-! ### Chunks (40_framing_codec.md R136, R139) -/

/-- There is a chunk `i` exactly when element `i * k` is there to open it. -/
theorem lt_ceilDiv_iff {i n k : Nat} (hk : 1 ≤ k) : i < ceilDiv n k ↔ i * k < n := by
  rw [ceilDiv, ← Nat.succ_le_iff, Nat.le_div_iff_mul_le hk, Nat.succ_mul]
  omega

theorem length_chunksOf (xs : List α) (k : Nat) : (chunksOf xs k).length = ceilDiv xs.length k := by simp [chunksOf]

theorem chunksOf_getElem?_eq_some {xs c : List α} {k i : Nat} (hk : 1 ≤ k) :
    (chunksOf xs k)[i]? = some c ↔ i * k < xs.length ∧ (xs.drop (i * k)).take k = c := by
  simp [chunksOf, List.getElem?_eq_some_iff, lt_ceilDiv_iff hk]

/-- The `k` elements from `i * k` on are those before index `min ((i + 1) * k) xs.length`. -/
theorem take_drop_eq_slice (xs : List α) (k i : Nat) :
    (xs.drop (i * k)).take k = (xs.take (min ((i + 1) * k) xs.length)).drop (i * k) := by
  rw [List.drop_take, List.take_eq_take_iff, List.length_drop, Nat.succ_mul]
  omega

theorem sum_length_chunksOf {k : Nat} (hk : 1 ≤ k) (xs : List α) : ((chunksOf xs k).map List.length).sum = xs.length := by
  rw [← List.length_flatten, chunksOf_flatten hk]

/-! ### One exchange as a row (40_framing_codec.md R134, R140 to R144) -/

theorem opSendAndExpect_opened {s : State} (h : s.link = .opened) (packet : List Byte) (pat : Pattern) (n : Nat)
    (ctx : Text) : opSendAndExpect packet pat n ctx s = expect packet pat n (.text ctx) s :=
  andThen_ok (requireLink_opened h)

theorem packetExchange_opened {s : State} (h : s.link = .opened) (op : OpName) (x : Op α) : packetExchange op x s = x s :=
  andThen_ok (requireLink_opened h)

theorem exec_sendAndExpect {pat : Pattern} {n : Nat} (hn : pat.length = n) (packet : List Byte) (ctx : Text) (s : State) :
    exec (.sendAndExpect packet pat n ctx) s = answer .bytes (opSendAndExpect packet pat n ctx) s := if_pos hn

/-! ### The bytes a transfer counts (40_framing_codec.md R147, R148) -/

theorem countedBy_cons (x : Exchange) (xs : List Exchange) : countedBy (x :: xs) = x.counts + countedBy xs := rfl

theorem countedBy_append (xs ys : List Exchange) : countedBy (xs ++ ys) = countedBy xs + countedBy ys := by
  simp [countedBy]

theorem countedBy_flatMap (f : α → List Exchange) (as : List α) :
    countedBy (as.flatMap f) = (as.map fun a => countedBy (f a)).sum := by
  induction as with
  | nil => rfl
  | cons a as ih => rw [List.flatMap_cons, countedBy_append, ih, List.map_cons, List.sum_cons]

/-- Data cut into bursts of at most `m` bytes and each burst into parts of at most `k`, the headers counting nothing and
the parts their bytes: every byte is counted once. -/
theorem countedBy_bursts {header part : List Byte → Exchange} (hheader : ∀ b, (header b).counts = 0)
    (hpart : ∀ p, (part p).counts = p.length) {m k : Nat} (hm : 1 ≤ m) (hk : 1 ≤ k) (data : List Byte) :
    countedBy ((chunksOf data m).flatMap fun b => header b :: (chunksOf b k).map part) = data.length := by
  have hburst (b : List Byte) : countedBy (header b :: (chunksOf b k).map part) = b.length := by
    rw [countedBy_cons, hheader, Nat.zero_add, countedBy, List.map_map]
    exact (congrArg List.sum (List.map_congr_left fun p _ => hpart p)).trans (sum_length_chunksOf hk b)
  simp only [countedBy_flatMap, hburst, sum_length_chunksOf hm]

theorem countedBy_writeExchanges {c : Config} (hc : configOk c = true) (data : List Byte) :
    countedBy (writeExchanges c data) = data.length := by
  obtain ⟨hsubpkt, -⟩ := configOk_bounds hc
  exact countedBy_bursts (fun _ => rfl) (fun _ => rfl) (configOk_maxBurst hc) hsubpkt data

theorem countedBy_readExchanges {c : Config} (hc : configOk c = true) (data : List Byte) :
    countedBy (readExchanges c data) = data.length := by
  obtain ⟨-, -, hchunk, -⟩ := configOk_bounds hc
  exact countedBy_bursts (fun _ => rfl) (fun _ => rfl) (configOk_maxBurst hc) hchunk data

/-- WRITE, every exchange answered (41_debug_core.md R180, 40_framing_codec.md R147). -/
theorem opWrite_received {s : State} (h : Ready s) {data : List Byte}
    (hu : Upcoming s (arrivals (repliesOf (writeExchanges s.cfg data)))) :
    opWrite data s = (.ok (), transferred s (writeExchanges s.cfg data) (packetsOf (writeExchanges s.cfg data))
      (repliesOf (writeExchanges s.cfg data)).length) :=
  (opWrite_eq h data).trans (runExchanges_ok (matching_writeExchanges _ _) hu)

end

/-! ### The statements of the family 40_framing_codec.md -/

/-- Settles O9: the branch of `scatterOf` by the step, and each chunk by the index of its first element. -/
theorem scatterCompletesWithItsChunks : Obligations.ScatterCompletesWithItsChunks := by
  intro xs k s
  refine ⟨fun hlow => ?_, fun hk => ⟨chunksOf xs k.toNat, ?_, ?_, length_chunksOf .., fun i c hc => ?_⟩⟩
  · exact answer_error (congrArg (·, s) (if_pos hlow))
  · exact answer_ok (congrArg (·, s) (if_neg (Int.not_lt.mpr hk)))
  · exact chunksOf_flatten (by omega) xs
  · have hk' : 1 ≤ k.toNat := by omega
    obtain ⟨hone, hle⟩ := chunksOf_bound hk' xs c (List.mem_of_getElem? hc)
    obtain ⟨-, rfl⟩ := (chunksOf_getElem?_eq_some hk').mp hc
    refine ⟨take_drop_eq_slice .., hone, hle, fun hnext => ?_⟩
    rw [length_chunksOf, lt_ceilDiv_iff hk', Nat.succ_mul] at hnext
    rw [List.length_take, List.length_drop]
    omega

/-- Settles O10: the sizes are the lengths of the chunks, whose sum and bounds are known. -/
theorem chunkSizesAreThoseOfScatter : Obligations.ChunkSizesAreThoseOfScatter := by
  intro α xs k hk
  rw [chunkSizes_length hk]
  refine ⟨rfl, sum_length_chunksOf hk xs, fun n hn => ?_⟩
  obtain ⟨c, hc, rfl⟩ := List.mem_map.mp hn
  exact chunksOf_bound hk xs c hc

/-- Settles O21: the exchange whose reply arrives and matches. -/
theorem sendAndExpectCompletes : Obligations.SendAndExpectCompletes := by
  intro packet pat n ctx s bs rest hlink hn hrx hmatch
  rw [exec_sendAndExpect hn]
  exact answer_ok ((opSendAndExpect_opened hlink ..).trans (expect_ok hrx ((matchPattern_length hmatch).trans hn) hmatch))

/-- Settles O22: `Match` relates the pattern and the bytes element by element, `Captures` keeps the bytes at `Cap`. -/
theorem matchIsBytewise : Obligations.MatchIsBytewise :=
  fun pat bs => ⟨matchPattern_iff_getElem? pat bs, captures_eq_filter_zip pat bs⟩

/-- Settles O23: the exchange whose reply does not match, the one whose reply is short, and the refusal. -/
theorem sendAndExpectFailsByItsReply : Obligations.SendAndExpectFailsByItsReply := by
  intro packet pat n ctx s bs rest
  refine ⟨fun hlink hn hrx hlen hmatch => ?_, fun hlink hn hrx hshort => ?_, fun hn => if_neg hn⟩
  · rw [exec_sendAndExpect hn]
    exact answer_error ((opSendAndExpect_opened hlink ..).trans (expect_mismatch hrx hlen hmatch))
  · rw [exec_sendAndExpect hn]
    exact answer_error ((opSendAndExpect_opened hlink ..).trans (expect_short hrx hshort))

/-- Settles O24: each row is its exchange, answered. -/
theorem packetExchangesComplete : Obligations.PacketExchangesComplete := by
  intro s rest hlink
  exact ⟨fun _ h => answer_ok ((packetExchange_opened hlink ..).trans (xCfgRd_ok h)),
    fun _ _ h => answer_ok ((packetExchange_opened hlink ..).trans (xCfgWr_ok h)),
    fun _ h => answer_ok ((packetExchange_opened hlink ..).trans (xSetAddr_ok h)),
    fun _ h => answer_ok ((packetExchange_opened hlink ..).trans (xRdHdr_ok h)),
    fun _ h => answer_ok ((packetExchange_opened hlink ..).trans (xWrHdr_ok h))⟩

/-- Settles O33: a transfer is its list of exchanges, all answered or broken off at one, and the list counts all the
bytes. -/
theorem transfersAdvanceAddrByAnsweredBytes : Obligations.TransfersAdvanceAddrByAnsweredBytes := by
  intro s data hcfg hlink hen
  have hready : Ready s := ⟨hcfg, hlink, hen⟩
  refine ⟨fun hu => ⟨?_, countedBy_writeExchanges hcfg data⟩, fun _ _ _ _ hb hu => ?_,
    fun hone hmax => ⟨fun hu => ⟨?_, countedBy_readExchanges hcfg data⟩, fun _ _ _ _ hb hu => ?_⟩⟩
  · exact answer_ok (opWrite_received hready hu)
  · exact answer_error (opWrite_broken hready hb hu)
  · exact answer_ok (opRead_received hready hone hmax hu)
  · exact answer_error (opRead_broken hready hone hmax hb hu)

end Sys2Proof.Proofs

/-! The debug-core sequencer (41_debug_core.md R170 to R183): the drawn outcome of the port and the exchanges of INIT,
the operations whose shadow is written after the acknowledgement, the session around its body; and the statements of
the family 41_debug_core.md. -/

namespace Sys2Proof.Proofs
open Sys2Proof Sys2Proof.Machine

section
variable {α β : Type}

/-! ### INIT (41_debug_core.md R170) -/

theorem drawOpen_cons {s : State} {o : OpenOutcome} {opens : List OpenOutcome} (h : s.opens = o :: opens) :
    drawOpen s = (o, { s with opens := opens }) := by simp only [drawOpen, h]

theorem drawOpen_nil {s : State} (h : s.opens = []) :
    drawOpen s = (Config.openDraw s.draws, { s with draws := s.draws + 1 }) := by simp only [drawOpen, h]

/-- The flush handshake, enable, address 0 and disable, each answered. -/
theorem initExchanges_ok {s : State} {fl : List Byte} {rest : List RxEvent}
    (hfl : matchPattern s.cfg.flushAck fl = true)
    (hrx : s.rx = arrivals (fl ++ cfgWrAckPacket ++ setAddrAckPacket 0 ++ cfgWrAckPacket) ++ rest) :
    initExchanges s =
      (.ok (), { s with tx := s.tx ++ s.cfg.flushReq ++ cfgWrPacket (cfgByte true false) ++ setAddrPacket 0 ++
                          cfgWrPacket (cfgByte false false),
                        rx := rest }) := by
  simp only [arrivals_append, List.append_assoc] at hrx
  rw [initExchanges, withState_apply, andThen_ok (expect_ok hrx (matchPattern_length hfl) hfl),
    andThen_ok (xCfgWr_ok rfl), andThen_ok (xSetAddr_ok rfl), xCfgWr_ok rfl]

/-- An exchange itself has no StateError (40_framing_codec.md R131, R134). -/
theorem within_expect_wireErrors {ws : List Reg} (packet : List Byte) (pat : Pattern) (n : Nat) (ctx : Context) :
    Within ws [2, 3] (expect packet pat n ctx) := by
  refine ⟨fun s => ⟨((within_expect packet pat n ctx).of s).1, fun e he => ?_⟩⟩
  obtain ⟨bs, t, -, -, ⟨-, -, h⟩ | ⟨-, -, h⟩ | ⟨-, h⟩⟩ := expect_cases packet pat n ctx s <;> rw [h] at he <;> cases he
  · simp [errorCode]
  · simp [errorCode]

/-- The exchanges of INIT write no register and fail only on the wire. -/
theorem within_initExchanges_wireErrors : Within [] [2, 3] initExchanges :=
  within_withState fun _ => within_andThen (within_expect_wireErrors ..) fun _ =>
    within_andThen (within_discard (within_expect_wireErrors ..)) fun _ =>
    within_andThen (within_discard (within_expect_wireErrors ..)) fun _ => within_discard (within_expect_wireErrors ..)

theorem opInit_opened {path : Text} {s : State} (h : s.link = .opened) :
    opInit path s = (.error (.state .init .linkClosed), s) := by simp only [opInit, h]

theorem opInit_failed {path : Text} {s t : State} (h : s.link = .closed) (hd : drawOpen s = (.failed, t)) :
    opInit path s = (.error (.connection path), t) := by simp only [opInit, h, hd]

theorem opInit_ok {path : Text} {s t u : State} (h : s.link = .closed) (hd : drawOpen s = (.opened, t))
    (hx : initExchanges { t with link := .opened } = (.ok (), u)) :
    opInit path s = (.ok (), resetShadows .opened u) := by simp only [opInit, h, hd, hx]

theorem opInit_error {path : Text} {s t u : State} {e : ErrorRecord} (h : s.link = .closed)
    (hd : drawOpen s = (.opened, t)) (hx : initExchanges { t with link := .opened } = (.error e, u)) :
    opInit path s = (.error e, resetShadows .closed u) := by simp only [opInit, h, hd, hx]

/-! ### The operations of the debug core, acknowledged (41_debug_core.md R175 to R177)

`opSetAutoIncrement_ok` and `opSetAddress_ok` ask for well-formed parameters too, which no exchange of theirs reads. -/

theorem opReadConfig_ok {c : Byte} {s : State} {rest : List RxEvent} (hl : s.link = .opened)
    (hrx : s.rx = arrivals [0x03, c] ++ rest) :
    opReadConfig s = (.ok c, { s with tx := s.tx ++ cfgRdPacket, rx := rest }) := by
  rw [opReadConfig, andThen_ok (requireLink_opened hl), xCfgRd_ok hrx]

theorem opSetAutoIncrement_acknowledged {flag : Bool} {s : State} {rest : List RxEvent} (hl : s.link = .opened)
    (he : s.en = true) (hrx : s.rx = arrivals cfgWrAckPacket ++ rest) :
    opSetAutoIncrement flag s =
      (.ok (), { s with ai := flag, tx := s.tx ++ cfgWrPacket (cfgByte true flag), rx := rest }) := by
  rw [opSetAutoIncrement, andThen_ok (requireOpenEnabled_ok hl he), andThen_ok (xCfgWr_ok hrx), update_apply]

theorem opSetAddress_acknowledged {a : Addr} {s : State} {rest : List RxEvent} (hl : s.link = .opened)
    (he : s.en = true) (hrx : s.rx = arrivals (setAddrAckPacket a) ++ rest) :
    opSetAddress a.toNat s = (.ok (), { s with addr := a, tx := s.tx ++ setAddrPacket a, rx := rest }) := by
  rw [opSetAddress_toNat, andThen_ok (requireOpenEnabled_ok hl he), andThen_ok (xSetAddr_ok hrx), update_apply]

/-! ### What an operation has written when it fails (41_debug_core.md R172, 10_state.md R27 to R31) -/

/-- Up to an error, the operation has written the registers `ws` only. -/
def FailsWithin (ws : List Reg) (m : Op α) : Prop := ∀ s t e, m s = (.error e, t) → Stays ws s t

theorem failsWithin_update (ws : List Reg) (f : State → State) : FailsWithin ws (update f) :=
  fun _ _ _ h => nomatch congrArg Prod.fst h

theorem failsWithin_withState {ws : List Reg} {f : State → Op α} (h : ∀ s, FailsWithin ws (f s)) :
    FailsWithin ws (withState f) :=
  fun s => h s s

theorem failsWithin_raise (ws : List Reg) (e : ErrorRecord) : FailsWithin ws (raise e : Op α) :=
  fun s _ _ h => by cases h; exact .refl ws s

theorem failsWithin_ite {ws : List Reg} {p : Prop} [Decidable p] {m k : Op α} (hm : FailsWithin ws m)
    (hk : FailsWithin ws k) : FailsWithin ws (if p then m else k) := by split <;> assumption

/-- The first part fails, or it succeeds and the second one fails: what it writes counts in both cases. -/
theorem failsWithin_andThen {ws vs : List Reg} {cs : List Nat} {m : Op α} {k : α → Op β} (hm : Within vs cs m)
    (hk : ∀ a, FailsWithin ws (k a)) (hvs : vs ⊆ ws := by simp) : FailsWithin ws (andThen m k) := by
  intro s t e h
  have hs := (hm.of s).1.mono hvs
  rcases andThen_cases m k s with ⟨a, u, hms, hmk⟩ | ⟨e', u, hms, hmk⟩ <;> rw [hms] at hs <;> rw [hmk] at h
  · exact hs.trans (hk a u t e h)
  · cases h
    exact hs

theorem failsWithin_mapValue {ws : List Reg} {f : α → β} {m : Op α} (h : FailsWithin ws m) :
    FailsWithin ws (mapValue f m) := by
  intro s t e hs
  rcases andThen_cases m (fun a => done (f a)) s with ⟨a, u, -, hmk⟩ | ⟨e', u, hms, hmk⟩ <;> cases hmk.symm.trans hs
  exact h s t e hms

theorem failsWithin_opEnableCore : FailsWithin [] opEnableCore :=
  failsWithin_andThen (within_requireLink (ws := []) _) fun _ => failsWithin_withState fun _ =>
    failsWithin_ite (failsWithin_raise _ _)
      (failsWithin_andThen (within_xCfgWr (ws := []) _) fun _ => failsWithin_update _ _)

theorem failsWithin_opDisableCore : FailsWithin [] opDisableCore :=
  failsWithin_andThen (within_requireOpenEnabled (ws := []) _) fun _ => failsWithin_withState fun _ =>
    failsWithin_andThen (within_xCfgWr (ws := []) _) fun _ => failsWithin_update _ _

theorem failsWithin_opSetAutoIncrement (flag : Bool) : FailsWithin [] (opSetAutoIncrement flag) :=
  failsWithin_andThen (within_requireOpenEnabled (ws := []) _) fun _ =>
    failsWithin_andThen (within_xCfgWr (ws := []) _) fun _ => failsWithin_update _ _

theorem failsWithin_opSetAddress (a : Int) : FailsWithin [] (opSetAddress a) :=
  failsWithin_andThen (within_requireRange (ws := []) (cs := [5]) _ _ _ _ (by decide)) fun _ =>
    failsWithin_andThen (within_requireOpenEnabled (ws := []) _) fun _ =>
    failsWithin_andThen (within_xSetAddr (ws := []) _) fun _ => failsWithin_update _ _

theorem within_requirePositiveHz (q : Rat) : Within [] [5] (requirePositiveHz q) := by
  refine ⟨fun s => ?_⟩
  unfold requirePositiveHz
  split
  · exact ⟨.refl _ s, fun e he => by cases he; simp [errorCode]⟩
  · exact ⟨.refl _ s, fun _ he => nomatch he⟩

theorem failsWithin_opSpiSetSpeed (q : Rat) : FailsWithin [.addr] (opSpiSetSpeed q) :=
  failsWithin_andThen (within_requirePositiveHz q) fun _ =>
    failsWithin_andThen (within_requireOpenEnabled (ws := []) _) fun _ => failsWithin_withState fun _ =>
    failsWithin_andThen (within_opSetAddress_toNat _) fun _ => failsWithin_andThen (within_opWrite _) fun _ =>
    failsWithin_mapValue (f := fun _ => _) (failsWithin_update _ _)

theorem failsWithin_opSpiSelect (target : Target) : FailsWithin [.ai, .addr] (opSpiSelect target) :=
  failsWithin_andThen (within_requireOpenEnabled (ws := []) _) fun _ => failsWithin_withState fun _ =>
    failsWithin_andThen (within_opSetAutoIncrement _) fun _ =>
    failsWithin_andThen (within_opSetAddress_toNat _) fun _ => failsWithin_andThen (within_opWrite _) fun _ =>
    failsWithin_update _ _

/-- An instruction that delivers an error has written no more than its operation writes up to one. -/
theorem keptOutside_of_answer_err {ws : List Reg} {f : α → Value} {m : Op α} {s t : State} {e : ErrorRecord}
    (hf : FailsWithin ws m) (hres : t.results = s.results ++ [.err e]) (h : answer f m s = .next t) :
    KeptOutside ws s t := by
  rcases answer_cases f m s with ⟨a, u, -, ha⟩ | ⟨e', u, hm, ha⟩ <;> cases ha.symm.trans h
  · simp at hres
  · exact (hf s u e' hm).kept

/-! ### The session (41_debug_core.md R183) -/

theorem disableIfEnabled_enabled {s : State} {rest : List RxEvent} (hl : s.link = .opened) (he : s.en = true)
    (hrx : s.rx = arrivals cfgWrAckPacket ++ rest) :
    disableIfEnabled s =
      (.ok (), { s with en := false, tx := s.tx ++ cfgWrPacket (cfgByte false s.ai), rx := rest }) := by
  rw [disableIfEnabled, withState_apply, if_pos he, opDisableCore_ok hl he hrx]

theorem disableIfEnabled_disabled {s : State} (he : s.en = false) : disableIfEnabled s = (.ok (), s) := by
  rw [disableIfEnabled, withState_apply, if_neg (Bool.eq_false_iff.mp he), done_apply]

/-- A session, its enable acknowledged, its body and then its cleanup successful. -/
theorem session_ok {body : Op α} {s u v : State} {a : α} {rest : List RxEvent} (hl : s.link = .opened)
    (he : s.en = false) (hrx : s.rx = arrivals cfgWrAckPacket ++ rest)
    (hbody : body { s with en := true, tx := s.tx ++ cfgWrPacket (cfgByte true s.ai), rx := rest } = (.ok a, u))
    (hcleanup : disableIfEnabled u = (.ok (), v)) : session body s = (.ok a, v) := by
  rw [session, andThen_ok (opEnableCore_ok hl he hrx), withCleanup_apply hbody hcleanup, firstError_ok]

theorem exec_withCoreEnabled {body : Requests} (h : requestsAdmissible body = true) (s : State) :
    exec (.withCoreEnabled body) s = answer .results (session (performAll body)) s := if_pos h

theorem performAll_nil (s : State) : performAll .nil s = (.ok .nil, s) := by
  rw [performAll, done_apply]

theorem performAll_cons_ok {r : Request} {rs : Requests} {s t u : State} {v : Value} {vs : Values}
    (hr : perform r s = (.ok v, t)) (hrs : performAll rs t = (.ok vs, u)) :
    performAll (.cons r rs) s = (.ok (.cons v vs), u) := by
  rw [performAll, andThen_ok hr, mapValue_ok hrs]

theorem performAll_cons_first_error {r : Request} {rs : Requests} {s t : State} {e : ErrorRecord}
    (hr : perform r s = (.error e, t)) : performAll (.cons r rs) s = (.error e, t) := by
  rw [performAll, andThen_error hr]

theorem performAll_cons_rest_error {r : Request} {rs : Requests} {s t u : State} {v : Value} {e : ErrorRecord}
    (hr : perform r s = (.ok v, t)) (hrs : performAll rs t = (.error e, u)) :
    performAll (.cons r rs) s = (.error e, u) := by
  rw [performAll, andThen_ok hr, mapValue_error hrs]

theorem performAll_singleton_ok {r : Request} {s t : State} {v : Value} (hr : perform r s = (.ok v, t)) :
    performAll (.cons r .nil) s = (.ok (.cons v .nil), t) :=
  performAll_cons_ok hr (performAll_nil t)

theorem perform_setAddress_acknowledged {a : Addr} {s : State} {rest : List RxEvent} (hl : s.link = .opened)
    (he : s.en = true) (hrx : s.rx = arrivals (setAddrAckPacket a) ++ rest) :
    perform (.setAddress a.toNat) s = (.ok .unit, { s with addr := a, tx := s.tx ++ setAddrPacket a, rx := rest }) := by
  rw [perform, mapValue_ok (opSetAddress_acknowledged hl he hrx), unitValue]

end

/-! ### The statements of the family 41_debug_core.md -/

/-- Settles O28: CLOSE is the one update of the registers, in every state. -/
theorem closeResetsEveryRegister : Obligations.CloseResetsEveryRegister :=
  fun s => answer_ok (update_apply (resetShadows .closed) s)

/-- Settles O26: the port opens by the head of `opens`, and the four exchanges are answered. -/
theorem initCompletesDisabled : Obligations.InitCompletesDisabled := by
  intro path s opens fl rest hlink hopens hfl hrx
  exact answer_ok (opInit_ok hlink (drawOpen_cons hopens)
    (initExchanges_ok (s := { s with link := .opened, opens := opens }) hfl hrx))

/-- Settles O27: the branches of INIT; its exchanges keep the results and fail only on the wire, and what follows them
resets the shadows. -/
theorem initEndsOpenOrClosed : Obligations.InitEndsOpenOrClosed := by
  refine fun path s => ⟨fun hlink => answer_error (opInit_opened hlink), fun o u hlink ho => ?_⟩
  obtain ⟨hd, hresults⟩ : drawOpen s = (o, u) ∧ u.results = s.results := by
    rcases ho with ⟨opens, hopens, rfl⟩ | ⟨hopens, rfl, rfl⟩
    · exact ⟨drawOpen_cons hopens, rfl⟩
    · exact ⟨drawOpen_nil hopens, rfl⟩
  cases o with
  | failed => exact hresults ▸ answer_error (opInit_failed hlink hd)
  | opened =>
    obtain ⟨hstays, hcodes⟩ := within_initExchanges_wireErrors.of { u with link := .opened }
    have hkept := hstays.results.trans hresults
    rcases hx : initExchanges { u with link := .opened } with ⟨e | _, t⟩ <;> rw [hx] at hkept hcodes
    · refine ⟨_, answer_error (opInit_error hlink hd hx), rfl, rfl, rfl, rfl, rfl, .inr ⟨rfl, e, ?_, ?_⟩⟩
      · rw [deliver_results, resetShadows_results, hkept]
      · simpa using hcodes e rfl
    · refine ⟨_, answer_ok (opInit_ok hlink hd hx), rfl, rfl, rfl, rfl, rfl, .inl ⟨rfl, ?_⟩⟩
      rw [deliver_results, resetShadows_results, hkept, unitValue]

/-- Settles O29: each operation, acknowledged. -/
theorem configurationOperationsComplete : Obligations.ConfigurationOperationsComplete := by
  refine ⟨fun s c rest hlink hrx => answer_ok (opReadConfig_ok hlink hrx), fun s rest hlink hrx => ?_⟩
  exact ⟨fun hen => answer_ok (opEnableCore_ok hlink hen hrx),
    fun hen => answer_ok (opDisableCore_ok hlink hen hrx),
    fun _ hen => answer_ok (opSetAutoIncrement_acknowledged hlink hen hrx),
    fun hen => answer_ok (opSetAutoIncrement_acknowledged hlink hen hrx),
    fun hen => answer_ok (opSetAutoIncrement_acknowledged hlink hen hrx)⟩

/-- Settles O30: an address of 16 bits is in range, and the address packet is echoed. -/
theorem setAddressCompletes : Obligations.SetAddressCompletes :=
  fun _ _ _ hlink hen hrx => answer_ok (opSetAddress_acknowledged hlink hen hrx)

/-- Settles O31: the bursts of WRITE, each answered. -/
theorem writeCompletes : Obligations.WriteCompletes :=
  fun _ _ _ hcfg hlink hen hrx => answer_ok (opWrite_ok ⟨hcfg, hlink, hen⟩ hrx)

/-- Settles O32: the bursts of READ, each answered. -/
theorem readCompletes : Obligations.ReadCompletes :=
  fun _ _ _ hcfg hlink hen hone hmax hrx => answer_ok (opRead_ok ⟨hcfg, hlink, hen⟩ hone hmax hrx)

/-- Settles O34: in each operation the register is written last and nothing fails after that; what comes before writes
at most AI and ADDR, and those only in the two SPI operations. -/
theorem failedOperationsLeaveTheirRegister : Obligations.FailedOperationsLeaveTheirRegister := by
  intro s t e hres
  have hai (flag : Bool) (h : answer unitValue (opSetAutoIncrement flag) s = .next t) : t.ai = s.ai := by
    obtain ⟨-, -, hkept, -⟩ := keptOutside_of_answer_err (failsWithin_opSetAutoIncrement flag) hres h
    exact hkept (by decide)
  have hcs (target : Target) (h : answer unitValue (opSpiSelect target) s = .next t) : t.cs = s.cs := by
    obtain ⟨-, -, -, -, hkept, -⟩ := keptOutside_of_answer_err (failsWithin_opSpiSelect target) hres h
    exact hkept (by decide)
  refine ⟨fun h => ?_, fun h => ?_, hai, hai true, hai false, fun addr h => ?_, fun q h => ?_, hcs, hcs .none⟩
  · obtain ⟨-, hkept, -⟩ := keptOutside_of_answer_err failsWithin_opEnableCore hres h
    exact hkept (by decide)
  · obtain ⟨-, hkept, -⟩ := keptOutside_of_answer_err failsWithin_opDisableCore hres h
    exact hkept (by decide)
  · obtain ⟨-, -, -, hkept, -⟩ := keptOutside_of_answer_err (failsWithin_opSetAddress addr) hres h
    exact hkept (by decide)
  · obtain ⟨-, -, -, -, -, hkept⟩ := keptOutside_of_answer_err (failsWithin_opSpiSetSpeed q) hres h
    exact hkept (by decide)

/-- Settles O36: the equations of a body by the outcomes of its parts, and of a request as an instruction. -/
theorem bodiesArePerformedRequestByRequest : Obligations.BodiesArePerformedRequestByRequest := by
  refine ⟨performAll_nil, fun _ _ _ _ _ _ _ => performAll_cons_ok, fun _ _ _ _ _ => performAll_cons_first_error,
    fun _ _ _ _ _ _ _ => performAll_cons_rest_error, fun r s hr => ?_⟩
  rw [exec_ofRequest_admissible hr]
  rcases h : perform r s with ⟨e | v, t⟩
  · exact answer_error h
  · exact answer_ok h

/-- Settles O35: the session by what its body leaves in EN; the two bodies leave the core enabled, and its cleanup gives
EN the value it had. -/
theorem sessionCompletes : Obligations.SessionCompletes := by
  refine ⟨fun body s u vs rest rest' hbody hlink hen hrx hperform => ⟨fun hue hul hurx => ?_, fun hue => ?_⟩,
    fun s rest hlink hen => ⟨fun hrx => ?_, fun a hrx => ?_⟩⟩
  · rw [exec_withCoreEnabled hbody]
    exact answer_ok (session_ok hlink hen hrx hperform (disableIfEnabled_enabled hul hue hurx))
  · rw [exec_withCoreEnabled hbody]
    exact answer_ok (session_ok hlink hen hrx hperform (disableIfEnabled_disabled hue))
  · rw [exec_withCoreEnabled rfl,
      answer_ok (session_ok hlink hen hrx (performAll_nil _) (disableIfEnabled_enabled hlink rfl rfl)), ← hen]
    rfl
  · have hset := perform_setAddress_acknowledged (a := a) (rest := arrivals cfgWrAckPacket ++ rest)
      (s := { s with en := true, tx := s.tx ++ cfgWrPacket (cfgByte true s.ai), rx := _ }) hlink rfl rfl
    rw [exec_withCoreEnabled rfl, answer_ok (session_ok hlink hen hrx (performAll_singleton_ok hset)
      (disableIfEnabled_enabled hlink rfl rfl)), ← hen]
    rfl

end Sys2Proof.Proofs

/-! The SPI bridge (42_spi_bridge.md R211 to R216): rounding half to even and the divider it gives, a byte written at a
register; and the statements of the family 42_spi_bridge.md. -/

namespace Sys2Proof.Proofs
open Sys2Proof Sys2Proof.Machine

/-! ### Rounding and the divider (42_spi_bridge.md R211, R212) -/

/-- The rounded quotient by the remainder: below a half, above it, and on it, where the odd quotient is the one that
rises. -/
theorem roundHalfEven_cases (a b : Nat) :
    2 * (a % b) < b ∧ roundHalfEven a b = a / b ∨
      b < 2 * (a % b) ∧ roundHalfEven a b = a / b + 1 ∨
      2 * (a % b) = b ∧ roundHalfEven a b = a / b + a / b % 2 := by
  rcases Nat.lt_trichotomy (2 * (a % b)) b with hlt | heq | hgt
  · exact .inl ⟨hlt, if_pos hlt⟩
  · refine .inr (.inr ⟨heq, ?_⟩)
    rw [roundHalfEven, if_neg (by omega), if_neg (by omega)]
    split <;> omega
  · exact .inr (.inl ⟨hgt, by rw [roundHalfEven, if_neg (by omega), if_pos hgt]⟩)

/-- Settles O11: the quotient and remainder, by the three branches of the rounding. -/
theorem roundingIsHalfToEven : Obligations.RoundingIsHalfToEven := by
  intro a b hb
  have hdiv : a / b * b + a % b = a := Nat.div_add_mod' a b
  have hrem : a % b < b := Nat.mod_lt a hb
  rcases roundHalfEven_cases a b with ⟨hr, hq⟩ | ⟨hr, hq⟩ | ⟨hr, hq⟩ <;> simp only [hq]
  · omega
  · rw [Nat.add_mul]
    omega
  · rw [Nat.add_mul]
    rcases Nat.mod_two_eq_zero_or_one (a / b) with hparity | hparity <;> rw [hparity] <;> omega

/-- A larger quotient is not rounded lower: otherwise the two results are neighbours and both quotients lie on the half
between them, where both results are even. -/
theorem roundHalfEven_mono {a b c d : Nat} (hb : 0 < b) (hd : 0 < d) (h : a * d ≤ c * b) :
    roundHalfEven a b ≤ roundHalfEven c d := by
  obtain ⟨-, hab, hevenAb⟩ := roundingIsHalfToEven a b hb
  obtain ⟨hcd, -, hevenCd⟩ := roundingIsHalfToEven c d hd
  generalize roundHalfEven a b = x at *
  generalize roundHalfEven c d = y at *
  by_contra hlt
  have hlow : (2 * y + 1) * b ≤ 2 * a := by linarith [Nat.mul_le_mul_right b (not_le.mp hlt)]
  have hhigh : 2 * c ≤ (2 * y + 1) * d := by linarith
  have htieAb : 2 * a = (2 * y + 1) * b := by
    refine Nat.eq_of_mul_eq_mul_right hd (le_antisymm ?_ (Nat.mul_le_mul_right d hlow))
    linarith [Nat.mul_le_mul_right b hhigh]
  have htieCd : 2 * c = (2 * y + 1) * d := by
    refine Nat.eq_of_mul_eq_mul_right hb (le_antisymm (Nat.mul_le_mul_right b hhigh) ?_)
    linarith [Nat.mul_le_mul_right d hlow]
  have hnext : x = y + 1 := by
    refine le_antisymm (Nat.le_of_mul_le_mul_right ?_ hb) (not_le.mp hlt)
    linarith
  have hxeven : x % 2 = 0 := hevenAb (.inr (by rw [hnext]; linarith))
  have hyeven : y % 2 = 0 := hevenCd (.inl (by linarith))
  omega

/-- The divider as a number: the upper clamp keeps it in a byte. -/
theorem toNat_fdivFor (fClk : Nat) (m : Byte) (q : Rat) :
    (fdivFor fClk m q).toNat = min (roundHalfEven (fClk * q.den) q.num.toNat - 1) m.toNat := by
  rw [fdivFor, BitVec.toNat_ofNat, Nat.mod_eq_of_lt (by omega)]

theorem spiClock_eq_div (fClk : Nat) (fdiv : Byte) : spiClock fClk fdiv = (fClk : Rat) / (fdiv.toNat + 1) := by
  rw [spiClock, Rat.mkRat_eq_div]
  push_cast
  rfl

/-! ### SPI_SET_SPEED (42_spi_bridge.md R211) -/

theorem requirePositiveHz_ok {q : Rat} (h : 0 < q) (s : State) : requirePositiveHz q s = (.ok (), s) :=
  if_neg (not_le.mpr (Rat.num_pos.mpr h))

/-- A byte written at a register (42_spi_bridge.md R210), answered. -/
theorem registerExchanges_ok {α : Type} {a : Addr} {b : Byte} {s : State} {rest : List RxEvent} {k : Op α} (h : Ready s)
    (hrx : s.rx = arrivals (registerRx a b) ++ rest) :
    andThen (opSetAddress a.toNat) (fun _ => andThen (opWrite [b]) fun _ => k) s =
      k { s with addr := if s.ai then a + 1 else a, tx := s.tx ++ registerTx a b, rx := rest } := by
  rw [registerRx, List.append_assoc, arrivals_append, List.append_assoc] at hrx
  have haddressed : Ready { s with addr := a, tx := s.tx ++ setAddrPacket a,
                                   rx := arrivals (wrAckPacket ++ [b]) ++ rest } := ⟨h.ok, h.link, h.en⟩
  rw [andThen_ok (opSetAddress_ok h hrx), andThen_ok (opWrite_byte haddressed rfl)]
  simp only [after, registerTx, List.append_assoc]
  rfl

theorem opSpiSetSpeed_ok {q : Rat} {s : State} {rest : List RxEvent} (h : Ready s) (hq : 0 < q)
    (hrx : s.rx = arrivals (registerRx s.cfg.spiFdivAddr (fdivFor s.cfg.fClk s.cfg.fdivMax q)) ++ rest) :
    opSpiSetSpeed q s =
      (.ok (spiClock s.cfg.fClk (fdivFor s.cfg.fClk s.cfg.fdivMax q)),
        { s with addr := if s.ai then s.cfg.spiFdivAddr + 1 else s.cfg.spiFdivAddr,
                 fdiv := .known (fdivFor s.cfg.fClk s.cfg.fdivMax q),
                 tx := s.tx ++ registerTx s.cfg.spiFdivAddr (fdivFor s.cfg.fClk s.cfg.fdivMax q), rx := rest }) := by
  rw [opSpiSetSpeed, andThen_ok (requirePositiveHz_ok hq s), andThen_ok (requireOpenEnabled_ok h.link h.en),
    withState_apply, registerExchanges_ok h hrx, andThen_ok (update_apply _ _), done_apply]

/-! ### The statements of the family 42_spi_bridge.md -/

/-- Settles O12: the quotient falls as the target rises, and rounding, the subtraction and the clamp keep its order. -/
theorem dividerNeverRisesWithTheTarget : Obligations.DividerNeverRisesWithTheTarget := by
  intro fClk m p q hp hpq
  have hpnum : 0 < p.num := Rat.num_pos.mpr hp
  have hqnum : 0 < q.num := Rat.num_pos.mpr (hp.trans_le hpq)
  have hcross : p.num.toNat * q.den ≤ q.num.toNat * p.den := by
    zify
    rw [Int.toNat_of_nonneg hpnum.le, Int.toNat_of_nonneg hqnum.le]
    exact (Rat.le_iff p q).mp hpq
  have hquotient : fClk * q.den * p.num.toNat ≤ fClk * p.den * q.num.toNat := by
    rw [Nat.mul_assoc, Nat.mul_assoc, Nat.mul_comm q.den, Nat.mul_comm p.den]
    exact Nat.mul_le_mul_left fClk hcross
  have hround := roundHalfEven_mono (by omega) (by omega) hquotient
  rw [toNat_fdivFor, toNat_fdivFor]
  omega

/-- Settles O38: the answered select, and SPI_DESELECT is the select of no target. -/
theorem selectCompletes : Obligations.SelectCompletes := by
  intro target s rest hcfg hlink hen hrx
  have hselect := opSpiSelect_ok ⟨hcfg, hlink, hen⟩ hrx
  refine ⟨answer_ok hselect, ?_⟩
  rintro rfl
  exact answer_ok hselect

/-- Settles O39: the divider is written at its register, and the clock and the divider are their numbers. -/
theorem setSpeedCompletes : Obligations.SetSpeedCompletes := by
  intro q s rest hcfg hlink hen hq hrx
  rw [← spiClock_eq_div]
  exact ⟨answer_ok (opSpiSetSpeed_ok ⟨hcfg, hlink, hen⟩ hq hrx), toNat_fdivFor _ _ _⟩

/-- Settles O40: both operations are the answered byte exchanges. -/
theorem writeReadCompletes : Obligations.WriteReadCompletes := by
  intro pairs s rest hcfg hlink hen hrx
  have hready : Ready s := ⟨hcfg, hlink, hen⟩
  have haddr : exchangedAddr s pairs.length =
      if pairs = [] then s.addr else if s.ai then s.cfg.spiDataAddr + 2 else s.cfg.spiDataAddr := by
    simp only [exchangedAddr, List.length_eq_zero_iff]
  rw [← haddr]
  exact ⟨answer_ok (opSpiWriteRead_ok pairs s rest hready hrx), answer_ok (opSpiWrite_ok pairs s rest hready hrx)⟩

end Sys2Proof.Proofs

/-! The SD commands (43_sd_command.md R242 to R248): the instructions that send one, the entry checks, a command that is
answered, an application command as CMD55 and the command after it; and the statements of the family 43_sd_command.md. -/

namespace Sys2Proof.Proofs
open Sys2Proof Sys2Proof.Machine

section
variable {α : Type}

/-! ### The instructions that send a command (43_sd_command.md R245, R248) -/

/-- The operands of `cmdOf` and `acmdOf`, when in range, are those of the request. -/
theorem inRange_operands {cmd arg : Int} (h : inRange cmd arg = true) :
    cmd.toNat ≤ 63 ∧ (cmd.toNat : Int) = cmd ∧ ((BitVec.ofInt 32 arg).toNat : Int) = arg := by
  simp only [inRange, decide_eq_true_eq] at h
  obtain ⟨hcmd, hcmd', harg, harg'⟩ := h
  refine ⟨by omega, Int.toNat_of_nonneg hcmd, ?_⟩
  rw [BitVec.toNat_ofInt]
  omega

/-- An instruction that sends a command by `CMD_SHAPE`, the request or a row, is SD_SEND_CMD of its operands
(log entry 9). -/
theorem exec_of_cmdOf {i : Instr} {cmd : Nat} {arg : Word32} {keep : Bool} (h : cmdOf i = some (cmd, arg, keep))
    (s : State) :
    cmd ≤ 63 ∧ exec i s = answer .reply (opSdSendCmd s.cfg.cmdShape cmd arg.toNat keep) s := by
  cases i with
  | sdSendCmd c a k =>
    rw [cmdOf] at h
    split at h
    next hrange =>
      cases h
      obtain ⟨hle, hcmd, harg⟩ := inRange_operands hrange
      rw [hcmd, harg]
      exact ⟨hle, rfl⟩
    next => nomatch h
  | cmd0GoIdleState | cmd1SendOpCond | cmd6SwitchFunc | cmd8SendIfCond | cmd9SendCsd | cmd10SendCid
  | cmd12StopTransmission | cmd13SendStatus | cmd16SetBlocklen | cmd17ReadSingleBlock | cmd18ReadMultipleBlock
  | cmd24WriteBlock | cmd25WriteMultipleBlock | cmd27ProgramCsd | cmd28SetWriteProt | cmd29ClrWriteProt
  | cmd30SendWriteProt | cmd32EraseWrBlkStartAddr | cmd33EraseWrBlkEndAddr | cmd38Erase | cmd42LockUnlock | cmd55AppCmd
  | cmd56GenCmd | cmd58ReadOcr | cmd59CrcOnOff =>
    cases h
    exact ⟨by decide, rfl⟩
  | _ => nomatch h

/-- An instruction that sends an application command by `ACMD_SHAPE`, the request or a row, is SD_SEND_ACMD of its
operands (log entry 9). -/
theorem exec_of_acmdOf {i : Instr} {cmd : Nat} {arg : Word32} {keep : Bool} (h : acmdOf i = some (cmd, arg, keep))
    (s : State) : cmd ≤ 63 ∧ exec i s = answer .reply (opSdSendAcmd cmd arg.toNat keep) s := by
  cases i with
  | sdSendAcmd c a k =>
    rw [acmdOf] at h
    split at h
    next hrange =>
      cases h
      obtain ⟨hle, hcmd, harg⟩ := inRange_operands hrange
      rw [hcmd, harg]
      exact ⟨hle, rfl⟩
    next => nomatch h
  | acmd13SdStatus | acmd22SendNumWrBlocks | acmd23SetWrBlkEraseCount | acmd41SdSendOpCond
  | acmd42SetClrCardDetect | acmd51SendScr =>
    cases h
    exact ⟨by decide, rfl⟩
  | _ => nomatch h

/-! ### The entry checks (43_sd_command.md R242, R243) -/

theorem requireCmdArg_cmdError {cmd : Int} (h : cmd < 0 ∨ 63 < cmd) (arg : Int) (s : State) :
    requireCmdArg cmd arg s = (.error (.range .cmd cmd), s) :=
  andThen_error (requireRange_error (by omega))

theorem requireCmdArg_argError {cmd arg : Int} (h : 0 ≤ cmd) (h' : cmd ≤ 63) (ha : arg < 0 ∨ 0xFFFFFFFF < arg)
    (s : State) : requireCmdArg cmd arg s = (.error (.range .arg arg), s) := by
  rw [requireCmdArg, andThen_ok (requireRange_ok ⟨h, h'⟩), requireRange_error (by omega)]
  rfl

theorem requireShape_some {table : ShapeTable} {n : Nat} {shape : Shape} (h : lookupShape table n = some shape)
    (s : State) : requireShape table n s = (.ok shape, s) := by simp only [requireShape, h]

theorem requireShape_none {table : ShapeTable} {n : Nat} (h : lookupShape table n = none) (s : State) :
    requireShape table n s = (.error (.value (.unknownCommand n)), s) := by simp only [requireShape, h]

theorem opSdSendCmd_unshaped {table : ShapeTable} {cmd : Nat} (hc : cmd ≤ 63) (h : lookupShape table cmd = none)
    (arg : Word32) (keep : Bool) (s : State) :
    opSdSendCmd table cmd arg.toNat keep s = (.error (.value (.unknownCommand cmd)), s) := by
  rw [opSdSendCmd_inRange table arg keep hc, andThen_error (requireShape_none h s)]

/-- The entry checks of SD_SEND_ACMD look up the shape of the application command before CMD55 is sent
(43_sd_command.md R248). -/
theorem opSdSendAcmd_inRange {cmd : Nat} (hc : cmd ≤ 63) (arg : Word32) (keep : Bool) (s : State) :
    opSdSendAcmd cmd arg.toNat keep s =
      (andThen (requireShape s.cfg.acmdShape cmd) fun _ =>
        andThen (opSdSendCmd s.cfg.cmdShape (55 : Nat) (0 : Word32).toNat false) fun _ =>
        opSdSendCmd s.cfg.acmdShape cmd arg.toNat keep) s := by
  have := arg.isLt
  rw [opSdSendAcmd, withState_apply, andThen_ok (requireCmdArg_ok (by omega) (by omega) (by omega) (by omega))]
  rfl

theorem opSdSendAcmd_unshaped {cmd : Nat} {s : State} (hc : cmd ≤ 63) (h : lookupShape s.cfg.acmdShape cmd = none)
    (arg : Word32) (keep : Bool) :
    opSdSendAcmd cmd arg.toNat keep s = (.error (.value (.unknownCommand cmd)), s) := by
  rw [opSdSendAcmd_inRange hc, andThen_error (requireShape_none h s)]

/-! ### The state an SD command ends in (43_sd_command.md R245) -/

theorem ready_sdEnded {s : State} (h : Ready s) (addr : Addr) (cs : Target) (tx : List Byte) (rest : List RxEvent) :
    Ready (sdEnded s addr cs tx rest) := ⟨h.ok, h.link, h.en⟩

theorem sdEnded_sdEnded (s : State) (addr addr' : Addr) (cs cs' : Target) (tx tx' : List Byte)
    (rest rest' : List RxEvent) :
    sdEnded (sdEnded s addr cs tx rest) addr' cs' tx' rest' = sdEnded s addr' cs' (tx ++ tx') rest' := by
  simp only [sdEnded, List.append_assoc]

/-- An operation that keeps the results and ends with an error delivers that error. -/
theorem answer_delivers_error {ws : List Reg} {cs : List Nat} {f : α → Value} {m : Op α} {s : State} {e : ErrorRecord}
    (h : Within ws cs m) (he : (m s).1 = .error e) :
    ∃ t, answer f m s = .next t ∧ t.results = s.results ++ [.err e] := by
  have hresults := (h.of s).1.results
  rcases hm : m s with ⟨r, t⟩
  rw [hm] at he hresults
  subst he
  exact ⟨_, answer_error hm, by rw [deliver_results, hresults]⟩

/-! ### A command that is answered (43_sd_command.md R245, R247) -/

/-- SD_SEND_CMD that succeeds, the card kept selected or deselected. -/
theorem opSdSendCmd_completes {table : ShapeTable} {cmd : Nat} {arg : Word32} {keep : Bool} {shape : Shape} {s : State}
    {tx flush : List Byte} {rx rest : List RxEvent} {reply : SdReply} (h : Ready s) (hc : cmd ≤ 63)
    (hs : lookupShape table cmd = some shape) (ht : TrySucceeds s.cfg cmd arg shape tx rx reply)
    (hl : flush.length = s.cfg.flushN)
    (hr : s.rx = rx ++ arrivals (dummyRx s.cfg flush ++ deselectRx s.cfg keep) ++ rest) :
    opSdSendCmd table cmd arg.toNat keep s =
      (.ok reply, sdEnded s (if keep then s.cfg.spiDataAddr else s.cfg.spiCsAddr) (if keep then .sd else .none)
        (tx ++ exchangesTx s.cfg (dummies s.cfg flush) ++ deselectTx s.cfg keep) rest) := by
  cases keep with
  | false => exact opSdSendCmd_succeeds h hc hs ht hl hr
  | true =>
    rw [List.append_assoc] at hr
    obtain ⟨t, hselected, rfl, htry⟩ := commandExchange_succeeds h ht hr
    rw [opSdSendCmd_shaped hc hs,
      deselectUnlessKept_ok (keep := true) (rest := rest) htry hselected hl (fun _ => rfl) rfl]
    simp [sdEnded, exchanged, cardSelected, deselectTx]

/-- SD_SEND_CMD that succeeds, by what the card answers in each part of the exchange. -/
theorem opSdSendCmd_answered {table : ShapeTable} {cmd : Nat} {arg : Word32} {keep : Bool} {shape : Shape} {s : State}
    {r : CardReply} {tok : Byte} {resp : SDResponse} {rest : List RxEvent} (h : Ready s) (hc : cmd ≤ 63)
    (hs : lookupShape table cmd = some shape) (hframe : r.frame.length = 6) (hpoll : Polled s.cfg r tok)
    (hext : r.ext.length = extraBytes shape) (hflush : r.flush.length = s.cfg.flushN)
    (hdecode : decodeResponse shape tok r.ext = .ok resp)
    (herr : sdErrorOf s.cfg.r1ErrMask s.cfg.r2ErrMask resp = false)
    (hr : s.rx = arrivals (commandRx s.cfg cmd arg keep r) ++ rest) :
    opSdSendCmd table cmd arg.toNat keep s =
      (.ok ⟨resp, r.poll ++ r.ext⟩, sdEnded s (if keep then s.cfg.spiDataAddr else s.cfg.spiCsAddr)
        (if keep then .sd else .none) (commandTx s.cfg cmd arg keep r) rest) := by
  refine opSdSendCmd_completes h hc hs (.answered r tok resp hframe hpoll hext hdecode herr) hflush ?_
  rw [hr, commandRx, List.append_assoc, arrivals_append]

/-! ### An application command (43_sd_command.md R248) -/

section
variable {cmd : Nat} {arg : Word32} {keep : Bool} {shape : Shape} {s t : State} (hc : cmd ≤ 63)
  (hs : lookupShape s.cfg.acmdShape cmd = some shape)
include hc hs

/-- CMD55 that succeeds is followed by the application command. -/
theorem opSdSendAcmd_of_cmd55_ok {reply : SdReply}
    (h : opSdSendCmd s.cfg.cmdShape (55 : Nat) (0 : Word32).toNat false s = (.ok reply, t)) :
    opSdSendAcmd cmd arg.toNat keep s = opSdSendCmd s.cfg.acmdShape cmd arg.toNat keep t := by
  rw [opSdSendAcmd_inRange hc, andThen_ok (requireShape_some hs s), andThen_ok h]

/-- An error of CMD55 ends the operation. -/
theorem opSdSendAcmd_of_cmd55_error {e : ErrorRecord}
    (h : opSdSendCmd s.cfg.cmdShape (55 : Nat) (0 : Word32).toNat false s = (.error e, t)) :
    opSdSendAcmd cmd arg.toNat keep s = (.error e, t) := by
  rw [opSdSendAcmd_inRange hc, andThen_ok (requireShape_some hs s), andThen_error h]

end

end

/-! ### The statements of the family 43_sd_command.md -/

/-- Settles O20: the two range checks in their order, then the frame. -/
theorem buildFrameCompletes : Obligations.BuildFrameCompletes := by
  refine fun cmd arg s => ⟨fun hcmd hcmd' harg harg' => ?_, fun hcmd => ?_, fun hcmd hcmd' harg => ?_⟩
  · exact answer_ok (andThen_ok (requireCmdArg_ok hcmd hcmd' harg (by omega)))
  · exact answer_error (andThen_error (requireCmdArg_cmdError hcmd arg s))
  · exact answer_error (andThen_error (requireCmdArg_argError hcmd hcmd' (by omega) s))

/-- Settles O41: every such instruction is SD_SEND_CMD, and its exchange is answered. -/
theorem sdCommandsComplete : Obligations.SdCommandsComplete := by
  intro i s cmd arg keep shape r pre tok resp rest hi hcfg hlink hen hs hframe hpoll hpre htok hncr hext hflush hdecode
    herr hr
  obtain ⟨hc, hexec⟩ := exec_of_cmdOf hi s
  rw [hexec]
  exact answer_ok (opSdSendCmd_answered ⟨hcfg, hlink, hen⟩ hc hs hframe ⟨pre, hpoll, hpre, htok, hncr⟩ hext hflush
    hdecode herr hr)

/-- Settles O42: CMD55 is answered and deselected, and from the state it leaves the application command is. -/
theorem sdApplicationCommandsComplete : Obligations.SdApplicationCommandsComplete := by
  intro i s cmd arg keep shape55 shape r55 r pre55 pre tok55 tok resp55 resp rest hi hcfg hlink hen hs55 hs hframe55
    hpoll55 hpre55 htok55 hncr55 hext55 hflush55 hdecode55 herr55 hframe hpoll hpre htok hncr hext hflush hdecode herr hr
  obtain ⟨hc, hexec⟩ := exec_of_acmdOf hi s
  have hready : Ready s := ⟨hcfg, hlink, hen⟩
  rw [arrivals_append, List.append_assoc] at hr
  have hcmd55 := opSdSendCmd_answered hready (by decide) hs55 hframe55 ⟨pre55, hpoll55, hpre55, htok55, hncr55⟩ hext55
    hflush55 hdecode55 herr55 hr
  have hacmd := (opSdSendAcmd_of_cmd55_ok hc hs hcmd55).trans (opSdSendCmd_answered (ready_sdEnded hready _ _ _ _) hc hs
    hframe ⟨pre, hpoll, hpre, htok, hncr⟩ hext hflush hdecode herr rfl)
  rw [hexec, answer_ok hacmd, sdEnded_sdEnded]
  rfl

/-- Settles O43: every such instruction is SD_SEND_CMD; the failure with its cleanups answered, and an error of the `try`
part or of the flush whatever follows it. -/
theorem failedSdCommandsDeselect : Obligations.FailedSdCommandsDeselect := by
  intro i s cmd arg keep shape hi hcfg hlink hen hs
  obtain ⟨hc, hexec⟩ := exec_of_cmdOf hi s
  have hready : Ready s := ⟨hcfg, hlink, hen⟩
  rw [hexec]
  refine ⟨fun _ _ _ _ _ _ hf hr => ?_, fun _ _ _ _ hf hr => ?_, fun _ _ _ _ _ _ _ _ _ ht hl hb hr => ?_⟩
  · exact answer_error (opSdSendCmd_fails hready hc hs hf hr)
  · exact answer_delivers_error (within_opSdSendCmd ..) (opSdSendCmd_tryError hready hc hs hf hr)
  · exact answer_delivers_error (within_opSdSendCmd ..) (opSdSendCmd_flushError hready hc hs ht hl hb hr)

/-- Settles O44: an error of CMD55 ends the operation; after a CMD55 that succeeded the failure is that of the
application command. -/
theorem failedApplicationCommandsDeselect : Obligations.FailedApplicationCommandsDeselect := by
  intro i s cmd arg keep shape55 shape hi hcfg hlink hen hs55 hs
  obtain ⟨hc, hexec⟩ := exec_of_acmdOf hi s
  have hready : Ready s := ⟨hcfg, hlink, hen⟩
  rw [hexec]
  refine ⟨fun _ _ _ _ _ _ hf hr => ?_, fun _ _ _ _ hf hr => ?_, fun _ _ _ _ _ _ _ _ _ _ ht hl hf hr => ?_⟩
  · exact answer_error (opSdSendAcmd_of_cmd55_error hc hs (opSdSendCmd_fails hready (by decide) hs55 hf hr))
  · have herr := opSdSendCmd_tryError (keep := false) hready (by decide) hs55 hf hr
    refine answer_delivers_error (within_opSdSendAcmd ..) ?_
    rw [opSdSendAcmd_of_cmd55_error hc hs (Prod.ext herr rfl)]
  · have hcmd55 := opSdSendCmd_succeeds hready (by decide) hs55 ht hl hr
    have hacmd := (opSdSendAcmd_of_cmd55_ok hc hs hcmd55).trans
      (opSdSendCmd_fails (ready_sdEnded hready _ _ _ _) hc hs hf rfl)
    rw [answer_error hacmd, sdEnded_sdEnded, deliver_sdEnded]

/-- Settles O45: the shape is looked up before anything is sent. -/
theorem undefinedIndicesAreValueErrors : Obligations.UndefinedIndicesAreValueErrors := by
  refine fun i s cmd arg keep => ⟨fun hi hs => ?_, fun hi hs => ?_⟩
  · obtain ⟨hc, hexec⟩ := exec_of_cmdOf hi s
    rw [hexec]
    exact answer_error (opSdSendCmd_unshaped hc hs arg keep s)
  · obtain ⟨hc, hexec⟩ := exec_of_acmdOf hi s
    rw [hexec]
    exact answer_error (opSdSendAcmd_unshaped hc hs arg keep)

end Sys2Proof.Proofs

/-! The SD responses (44_sd_response.md R281 to R291): the bits of an assembled word, the windows of the VDD range, what
a token and its extension bytes decode to, the error predicates; and the statements of the family 44_sd_response.md. -/

namespace Sys2Proof.Proofs
open Sys2Proof Sys2Proof.Machine

/-! ### The bits of a word assembled from bytes (44_sd_response.md R287, R289) -/

theorem getLsbD_wordOfBytes_first (b1 b2 b3 b4 : Byte) {i : Nat} (h : 24 ≤ i) :
    (wordOfBytes b1 b2 b3 b4).getLsbD i = b1.getLsbD (i - 24) := by
  simp only [wordOfBytes, BitVec.getLsbD_append]
  rw [if_neg (by omega), if_neg (by omega), if_neg (by omega)]
  congr 1

theorem getLsbD_wordOfBytes_third (b1 b2 b3 b4 : Byte) {i : Nat} (hlow : 8 ≤ i) (hhigh : i < 16) :
    (wordOfBytes b1 b2 b3 b4).getLsbD i = b3.getLsbD (i - 8) := by
  simp only [wordOfBytes, BitVec.getLsbD_append]
  rw [if_neg (by omega), if_pos (by omega)]

theorem getLsbD_wordOfBytes_last (b1 b2 b3 b4 : Byte) {i : Nat} (h : i < 8) :
    (wordOfBytes b1 b2 b3 b4).getLsbD i = b4.getLsbD i := by
  rw [wordOfBytes, BitVec.getLsbD_append, if_pos h]

theorem extractLsb'_wordOfBytes_cmdVersion (b1 b2 b3 b4 : Byte) :
    (wordOfBytes b1 b2 b3 b4).extractLsb' 28 4 = b1.extractLsb' 4 4 := by
  ext i hi
  rw [BitVec.getElem_extractLsb', BitVec.getElem_extractLsb', getLsbD_wordOfBytes_first _ _ _ _ (by omega)]
  congr 1
  omega

theorem extractLsb'_wordOfBytes_voltageAccepted (b1 b2 b3 b4 : Byte) :
    (wordOfBytes b1 b2 b3 b4).extractLsb' 8 4 = b3.extractLsb' 0 4 := by
  ext i hi
  rw [BitVec.getElem_extractLsb', BitVec.getElem_extractLsb', getLsbD_wordOfBytes_third _ _ _ _ (by omega) (by omega)]
  congr 1
  omega

theorem extractLsb'_wordOfBytes_checkPattern (b1 b2 b3 b4 : Byte) :
    (wordOfBytes b1 b2 b3 b4).extractLsb' 0 8 = b4 := by
  ext i hi
  rw [BitVec.getElem_extractLsb', Nat.zero_add, getLsbD_wordOfBytes_last _ _ _ _ hi, BitVec.getLsbD_eq_getElem]

/-! ### Set bits -/

theorem exists_getLsbD_of_ne_zero {w : Nat} {x : BitVec w} (h : x ≠ 0) : ∃ i, x.getLsbD i = true := by
  by_contra hnone
  refine h (BitVec.eq_of_getLsbD_eq fun i _ => ?_)
  rw [Bool.eq_false_iff.mpr fun hi => hnone ⟨i, hi⟩]
  exact BitVec.getLsbD_zero.symm

theorem and_ne_zero_iff {w : Nat} (x m : BitVec w) :
    x &&& m ≠ 0 ↔ ∃ i, x.getLsbD i = true ∧ m.getLsbD i = true := by
  constructor
  · intro h
    obtain ⟨i, hi⟩ := exists_getLsbD_of_ne_zero h
    exact ⟨i, by simpa only [BitVec.getLsbD_and, Bool.and_eq_true] using hi⟩
  · rintro ⟨i, hx, hm⟩ h
    have hand : (x &&& m).getLsbD i = true := by rw [BitVec.getLsbD_and, hx, hm, Bool.and_self]
    rw [h] at hand
    exact absurd hand (by simp)

/-! ### The VDD range (44_sd_response.md R288) -/

/-- What `find?` answers comes first in the list's order among the elements that meet the test. -/
theorem eq_or_rel_of_find?_eq_some {α : Type} {r : α → α → Prop} {p : α → Bool} {xs : List α} {a b : α}
    (hxs : xs.Pairwise r) (h : xs.find? p = some a) (hb : b ∈ xs) (hp : p b = true) : a = b ∨ r a b := by
  obtain ⟨-, before, after, rfl, hbefore⟩ := List.find?_eq_some_iff_append.mp h
  obtain ⟨-, hafter, -⟩ := List.pairwise_append.mp hxs
  rcases List.mem_append.mp hb with hmem | hmem
  · have hfalse := hbefore b hmem
    rw [hp] at hfalse
    cases hfalse
  · rcases List.mem_cons.mp hmem with heq | hmem
    · exact .inl heq.symm
    · exact .inr (List.rel_of_pairwise_cons hafter hmem)

theorem mem_vddBits {m : BitVec 9} {i : Nat} (h : m.getLsbD i = true) : i ∈ vddBits :=
  List.mem_range.mpr (BitVec.lt_of_getLsbD h)

theorem find?_vddBits_le {m : BitVec 9} {lo i : Nat} (h : vddBits.find? m.getLsbD = some lo)
    (hi : m.getLsbD i = true) : lo ≤ i := by
  rcases eq_or_rel_of_find?_eq_some List.pairwise_lt_range h (mem_vddBits hi) hi with heq | hlt <;> omega

theorem le_find?_reverse_vddBits {m : BitVec 9} {hi i : Nat} (h : vddBits.reverse.find? m.getLsbD = some hi)
    (hset : m.getLsbD i = true) : i ≤ hi := by
  have hdesc : vddBits.reverse.Pairwise (· > ·) := List.pairwise_reverse.mpr List.pairwise_lt_range
  rcases eq_or_rel_of_find?_eq_some hdesc h (List.mem_reverse.mpr (mem_vddBits hset)) hset with heq | hgt <;> omega

/-- VDD_RANGE by its two searches, of which the first answers nothing above what the second does. -/
theorem vddRange_of_find? {m : BitVec 9} {lo hi : Nat} (hlo : vddBits.find? m.getLsbD = some lo)
    (hhi : vddBits.reverse.find? m.getLsbD = some hi) (h : lo ≤ hi) : vddRange m = .ok (some (27 + lo, 28 + hi)) := by
  simp only [vddRange, hlo, hhi]
  exact if_neg (by omega)

/-! ### What the decoders answer (44_sd_response.md R281 to R290) -/

theorem decodeR1_of_bit7_clear {t : Byte} (h : t.getLsbD 7 = false) :
    decodeR1 t = .ok ⟨t.getLsbD 0, t.getLsbD 1, t.getLsbD 2, t.getLsbD 3, t.getLsbD 4, t.getLsbD 5, t.getLsbD 6, t⟩ := by
  rw [decodeR1, h]
  rfl

theorem decodeR1_of_bit7_set {t : Byte} (h : t.getLsbD 7 = true) : decodeR1 t = .error (.value (.invalidToken t)) :=
  if_pos h

theorem decodeR1_inv {t : Byte} {r : R1Rec} (h : decodeR1 t = .ok r) :
    r = ⟨t.getLsbD 0, t.getLsbD 1, t.getLsbD 2, t.getLsbD 3, t.getLsbD 4, t.getLsbD 5, t.getLsbD 6, t⟩ := by
  cases hbit : t.getLsbD 7 with
  | false => exact (Except.ok.inj ((decodeR1_of_bit7_clear hbit).symm.trans h)).symm
  | true => cases (decodeR1_of_bit7_set hbit).symm.trans h

/-- Every shape begins with the token (44_sd_response.md R284 to R290), so its refusal is the response's. -/
theorem decodeResponse_of_decodeR1_error {t : Byte} {e : ErrorRecord} (h : decodeR1 t = .error e) (shape : Shape)
    (ext : List Byte) : decodeResponse shape t ext = .error e := by
  cases shape <;> simp only [decodeResponse, decodeR1b, decodeR2, decodeR3, decodeR7, h] <;> rfl

section
variable {t : Byte} {r : R1Rec} (h : decodeR1 t = .ok r)
include h

theorem decodeResponse_r1b (b : Byte) : decodeResponse .r1b t [b] = .ok (.r1b ⟨r, decide (b = 0x00), b⟩) := by
  simp only [decodeResponse, decodeR1b, h]
  rfl

theorem decodeResponse_r2 (b : Byte) :
    decodeResponse .r2 t [b] =
      .ok (.r2 ⟨r, b.getLsbD 0, b.getLsbD 1, b.getLsbD 2, b.getLsbD 3, b.getLsbD 4, b.getLsbD 5, b.getLsbD 6,
        b.getLsbD 7, b⟩) := by
  simp only [decodeResponse, decodeR2, h]
  rfl

theorem decodeR3_ok {b1 b2 b3 b4 : Byte} {vdd : Option (Nat × Nat)}
    (hvdd : vddRange ((wordOfBytes b1 b2 b3 b4).extractLsb' 15 9) = .ok vdd) :
    decodeR3 t b1 b2 b3 b4 =
      .ok ⟨r, wordOfBytes b1 b2 b3 b4, !b1.getLsbD 7, b1.getLsbD 6, b1.getLsbD 5, b1.getLsbD 3, b1.getLsbD 0,
        b4.getLsbD 7, vdd⟩ := by
  simp (disch := omega) only [decodeR3, h, hvdd, Except.map, getLsbD_wordOfBytes_first, getLsbD_wordOfBytes_last,
    Nat.reduceSub]

theorem decodeR7_ok (b1 b2 b3 b4 : Byte) :
    decodeR7 t b1 b2 b3 b4 =
      .ok ⟨r, b1.extractLsb' 4 4, voltageAccepted (b3.extractLsb' 0 4), b3.extractLsb' 0 4, b4⟩ := by
  simp only [decodeR7, h, extractLsb'_wordOfBytes_cmdVersion, extractLsb'_wordOfBytes_voltageAccepted,
    extractLsb'_wordOfBytes_checkPattern]
  rfl

end

/-! ### The error predicates (44_sd_response.md R282, R286) -/

theorem r1Error_iff (m : Byte) (r : R1Rec) : r1Error m r = true ↔ r.token &&& m ≠ 0 := bne_iff_ne

theorem r1Error_eq_decide (m : Byte) (r : R1Rec) : r1Error m r = decide (r.token &&& m ≠ 0) :=
  Bool.eq_iff_iff.mpr ((r1Error_iff m r).trans decide_eq_true_iff.symm)

theorem r2Error_eq_decide (m1 m2 : Byte) (r : R2Rec) :
    r2Error m1 m2 r = decide (r.r1.token &&& m1 ≠ 0 ∨ r.r2Byte &&& m2 ≠ 0) := by
  rw [r2Error, r1Error_eq_decide, Bool.decide_or, decide_not (p := r.r2Byte &&& m2 = 0)]
  rfl

/-- The default R1_ERR_MASK selects the six error flags, and not `in_idle_state` (44_sd_response.md R282). -/
theorem getLsbD_defaultR1ErrMask (i : Nat) : (0x7E#8).getLsbD i = true ↔ 1 ≤ i ∧ i ≤ 6 := by
  by_cases h : i < 8
  · revert h i
    decide
  · refine iff_of_false ?_ (by omega)
    rw [BitVec.getLsbD_of_ge _ i (by omega)]
    exact Bool.false_ne_true

/-! ### A computed result on the host port (10_state.md R21) -/

theorem answer_computed_ok {α : Type} {f : α → Value} {c : Except ErrorRecord α} {a : α} (h : c = .ok a) (s : State) :
    answer f (computed c) s = .next (deliver (.ok (f a)) s) := answer_ok (by rw [h, computed_apply])

theorem answer_computed_error {α : Type} {f : α → Value} {c : Except ErrorRecord α} {e : ErrorRecord}
    (h : c = .error e) (s : State) : answer f (computed c) s = .next (deliver (.err e) s) :=
  answer_error (by rw [h, computed_apply])

/-! ### The statements of the family 44_sd_response.md -/

/-- Settles O14: the token is accepted or refused by its bit 7. -/
theorem decodeR1CompletesWithSevenFlags : Obligations.DecodeR1CompletesWithSevenFlags := by
  intro t s
  constructor
  · intro hbit
    exact answer_computed_ok (decodeR1_of_bit7_clear hbit) s
  · intro hbit
    exact answer_computed_error (decodeR1_of_bit7_set hbit) s

/-- Settles O15: a mask selects a set bit of the token, and the default mask's six bits are the six flags. -/
theorem r1ErrorIsAnyOfSixFlags : Obligations.R1ErrorIsAnyOfSixFlags := by
  refine ⟨r1Error_iff, fun t r hr => ?_⟩
  obtain rfl := decodeR1_inv hr
  have hbits : (∃ i, t.getLsbD i = true ∧ (0x7E#8).getLsbD i = true) ↔ ∃ i, t.getLsbD i = true ∧ 1 ≤ i ∧ i ≤ 6 := by
    simp only [getLsbD_defaultR1ErrMask]
  refine ((r1Error_iff _ _).trans ((and_ne_zero_iff t 0x7E#8).trans hbits)).trans ⟨?_, ?_⟩
  · rintro ⟨i, hset, hlow, hhigh⟩
    interval_cases i <;> simp [hset]
  · rintro (h | h | h | h | h | h) <;> exact ⟨_, h, by decide, by decide⟩

/-- Settles O16: the token's flags with the extension byte's, or the token's refusal. -/
theorem decodeR1bAndR2Complete : Obligations.DecodeR1bAndR2Complete := by
  intro t b s
  constructor
  · intro r hr
    exact ⟨answer_computed_ok (decodeResponse_r1b hr b) s, answer_computed_ok (decodeResponse_r2 hr b) s⟩
  · intro hbit
    have herr := decodeResponse_of_decodeR1_error (decodeR1_of_bit7_set hbit)
    exact ⟨answer_computed_error (herr .r1b [b]) s, answer_computed_error (herr .r2 [b]) s⟩

/-- Settles O17: the fields of the assembled word are bits of its bytes. -/
theorem decodeR3AndR7Complete : Obligations.DecodeR3AndR7Complete := by
  intro t b1 b2 b3 b4 s
  refine ⟨fun r vdd hr hvdd => ?_, fun r hr => ?_, fun hbit => ?_⟩
  · exact answer_computed_ok (congrArg (Except.map SDResponse.r3) (decodeR3_ok hr hvdd)) s
  · exact answer_computed_ok (congrArg (Except.map SDResponse.r7) (decodeR7_ok hr b1 b2 b3 b4)) s
  · have herr := decodeResponse_of_decodeR1_error (decodeR1_of_bit7_set hbit)
    exact ⟨answer_computed_error (herr .r3 [b1, b2, b3, b4]) s, answer_computed_error (herr .r7 [b1, b2, b3, b4]) s⟩

/-- Settles O18: when a window is set, the search from below finds the lowest and the search from above the highest. -/
theorem vddRangeIsLowestToHighest : Obligations.VddRangeIsLowestToHighest := by
  refine fun m => ⟨?_, fun hne => ?_⟩
  · rintro rfl
    rfl
  · obtain ⟨i, hset⟩ := exists_getLsbD_of_ne_zero hne
    obtain ⟨lo, hlo⟩ := Option.isSome_iff_exists.mp (List.find?_isSome.mpr ⟨i, mem_vddBits hset, hset⟩)
    obtain ⟨hi, hhi⟩ := Option.isSome_iff_exists.mp
      (List.find?_isSome.mpr ⟨i, List.mem_reverse.mpr (mem_vddBits hset), hset⟩)
    have hloSet := List.find?_some hlo
    have hhiSet := List.find?_some hhi
    have hle := find?_vddBits_le hlo hhiSet
    exact ⟨lo, hi, vddRange_of_find? hlo hhi hle, hle, Nat.le_of_lt_succ (BitVec.lt_of_getLsbD hhiSet), hloSet, hhiSet,
      fun j hj => ⟨find?_vddBits_le hlo hj, le_find?_reverse_vddBits hhi hj⟩⟩

/-- Settles O19: the predicate of each shape, with the masks of the configuration. -/
theorem sdErrorCompletesByShape : Obligations.SdErrorCompletesByShape := by
  intro s resp
  have hexec : exec (.sdError resp) s =
      .next (deliver (.ok (.bit (sdErrorOf s.cfg.r1ErrMask s.cfg.r2ErrMask resp))) s) := rfl
  rw [hexec]
  cases resp with
  | r1 | r1b | r3 | r7 =>
    rw [sdErrorOf, r1Error_eq_decide]
    rfl
  | r2 =>
    rw [sdErrorOf, r2Error_eq_decide]
    rfl

end Sys2Proof.Proofs


/-! The two forms of the CRC7 register, bit by bit and byte by byte; and the statements of the family 45_crc7.md. -/

namespace Sys2Proof.Proofs
open Sys2Proof Sys2Proof.Machine

/-! ### The 7-bit register (45_crc7.md R320) -/

theorem byteBits_eq_map (b : Byte) : byteBits b = ([7, 6, 5, 4, 3, 2, 1, 0] : List Nat).map b.getLsbD := rfl

theorem crc7Byte_eq_foldl_indices (c : BitVec 7) (b : Byte) :
    crc7Byte c b = ([7, 6, 5, 4, 3, 2, 1, 0] : List Nat).foldl (fun c i => crc7Bit c (b.getLsbD i)) c := by
  rw [crc7Byte, byteBits_eq_map, List.foldl_map]

theorem crc7Of_nil : crc7Of [] = 0 := rfl

theorem crc7Of_concat (bs : List Byte) (b : Byte) : crc7Of (bs ++ [b]) = crc7Byte (crc7Of bs) b :=
  List.foldl_concat ..

theorem exec_crc7 (bs : List Byte) (s : State) : exec (.crc7 bs) s = .next (deliver (.ok (.crc (crc7Of bs))) s) :=
  answer_ok (done_apply _ s)

/-! ### The left-aligned form (45_crc7.md R321) -/

/-- The place of a 7-bit register in a byte: bits 7:1. -/
def leftAligned (c : BitVec 7) : Byte := BitVec.setWidth 8 c <<< 1

theorem leftAligned_zero : leftAligned 0 = 0 := rfl

theorem leftAligned_generator : leftAligned 0x09#7 = 0x12#8 := rfl

/-- Every bit moves one place up, and bit 0 is clear. -/
theorem getLsbD_leftAligned (c : BitVec 7) (i : Nat) :
    (leftAligned c).getLsbD i = (decide (1 ≤ i) && c.getLsbD (i - 1)) := by
  simp only [leftAligned, BitVec.getLsbD_shiftLeft, BitVec.getLsbD_setWidth]
  grind

theorem getLsbD_leftAligned_zero (c : BitVec 7) : (leftAligned c).getLsbD 0 = false := getLsbD_leftAligned c 0

theorem getLsbD_leftAligned_top (c : BitVec 7) : (leftAligned c).getLsbD 7 = c.getLsbD 6 := getLsbD_leftAligned c 7

theorem leftAligned_xor (c d : BitVec 7) : leftAligned (c ^^^ d) = leftAligned c ^^^ leftAligned d := by
  simp only [leftAligned, BitVec.setWidth_xor, BitVec.shiftLeft_xor_distrib]

/-- The bit a 7-bit shift drops is the one that the 8-bit shift moves out of the byte. -/
theorem leftAligned_shiftLeft (c : BitVec 7) : leftAligned (c <<< 1) = leftAligned c <<< 1 := by
  refine BitVec.eq_of_getLsbD_eq fun i hi => ?_
  simp only [getLsbD_leftAligned, BitVec.getLsbD_shiftLeft]
  grind

theorem crc7Bit8_leftAligned (c : BitVec 7) (bit : Bool) :
    crc7Bit8 (leftAligned c) bit = leftAligned (crc7Bit c bit) := by
  rw [crc7Bit8, crc7Bit, getLsbD_leftAligned_top, apply_ite leftAligned, leftAligned_xor, leftAligned_generator,
    leftAligned_shiftLeft]

/-- Both registers start at 0 and keep in step, bit for bit of each byte of the message. -/
theorem crc7Of8_eq_leftAligned (bs : List Byte) : crc7Of8 bs = leftAligned (crc7Of bs) := by
  have hbyte (c : BitVec 7) (b : Byte) : (byteBits b).foldl crc7Bit8 (leftAligned c) = leftAligned (crc7Byte c b) :=
    List.foldl_hom leftAligned crc7Bit8_leftAligned
  rw [crc7Of8, ← leftAligned_zero]
  exact List.foldl_hom leftAligned hbyte

/-! ### The statements of the family 45_crc7.md -/

/-- Settles O6: the 8-bit register is the 7-bit one, left-aligned, and the frame byte sets its bit 0. -/
theorem eightBitFormGivesTheSameCrc : Obligations.EightBitFormGivesTheSameCrc := by
  intro bs
  rw [crc7Of8_eq_leftAligned]
  exact ⟨rfl, getLsbD_leftAligned_zero _, (crcByte_eq_shift _).symm⟩

/-- Settles O7: the result is delivered and nothing else happens, and the last byte is folded in bit by bit. -/
theorem crc7CompletesByItsRegister : Obligations.Crc7CompletesByItsRegister :=
  ⟨exec_crc7, crc7Of_nil, fun bs b => (crc7Of_concat bs b).trans (crc7Byte_eq_foldl_indices _ b)⟩

/-- Settles O8: the register is run over the bits of each message of the table. -/
theorem crc7HasItsTabledValues : Obligations.Crc7HasItsTabledValues := by
  unfold Obligations.Crc7HasItsTabledValues
  simp [crc7Of, crc7Byte, byteBits, crc7Bit, crcByte]

end Sys2Proof.Proofs

/-! The errors (60_exceptions.md R334 to R348): the raise matrix, the session and its cleanup, the entry checks and what
turns an operation away before any I/O; and the statements of the family 60_exceptions.md. -/

namespace Sys2Proof.Proofs
open Sys2Proof Sys2Proof.Machine

section
variable {α β : Type}

/-! ### The raise matrix (60_exceptions.md R338) -/

/-- An instruction that delivers an error delivers one of its row: an arrival delivers nothing, and an operation that
keeps to the row has raised it. -/
theorem errorCode_mem_codesOf {i : Instr} {s t : State} {e : ErrorRecord} (h : exec i s = .next t)
    (hres : t.results = s.results ++ [.err e]) : errorCode e ∈ codesOf i := by
  rcases exec_next_cases h with ⟨bs, -, -, rfl⟩ | ⟨-, _, m, r, hrow, rfl, hraised⟩
  · simp at hres
  · obtain ⟨hstays, hcodes⟩ := hrow.within.of s
    rw [deliver_results, hstays.results, List.append_cancel_left_eq] at hres
    exact hcodes e (hraised e (List.singleton_inj.mp hres))

/-! ### Operations that succeed (60_exceptions.md R339, R346) -/

theorem andThen_eq_ok {m : Op α} {k : α → Op β} {s u : State} {b : β} (h : andThen m k s = (.ok b, u)) :
    ∃ a t, m s = (.ok a, t) ∧ k a t = (.ok b, u) := by
  rcases andThen_cases m k s with ⟨a, t, hm, hmk⟩ | ⟨e, t, -, hmk⟩
  · exact ⟨a, t, hm, hmk.symm.trans h⟩
  · cases hmk.symm.trans h

/-- A main part with a cleanup succeeds only when both do. -/
theorem withCleanup_eq_ok {m : Op α} {c : Op Unit} {s u : State} {a : α} (h : withCleanup m c s = (.ok a, u)) :
    ∃ t, m s = (.ok a, t) ∧ c t = (.ok (), u) := by
  rcases hm : m s with ⟨_ | b, t⟩
  · cases (withCleanup_error hm).symm.trans h
  · rcases hc : c t with ⟨_ | _, v⟩ <;> cases (withCleanup_apply hm hc).symm.trans h
    exact ⟨t, rfl, hc⟩

/-! ### The end of a session (41_debug_core.md R183, 60_exceptions.md R346) -/

theorem opDisableCore_eq_ok {s t : State} (h : opDisableCore s = (.ok (), t)) : t.en = false := by
  obtain ⟨_, u, -, h⟩ := andThen_eq_ok h
  rw [withState_apply] at h
  obtain ⟨_, v, -, h⟩ := andThen_eq_ok h
  cases h
  rfl

theorem disableIfEnabled_eq_ok {s t : State} (h : disableIfEnabled s = (.ok (), t)) : t.en = false := by
  cases he : s.en with
  | true =>
    rw [disableIfEnabled, withState_apply, if_pos he] at h
    exact opDisableCore_eq_ok h
  | false =>
    cases (disableIfEnabled_disabled he).symm.trans h
    exact he

/-- A session succeeds only when its final disable does. -/
theorem session_eq_ok {body : Op α} {s t : State} {a : α} (h : session body s = (.ok a, t)) : t.en = false := by
  obtain ⟨_, u, -, h⟩ := andThen_eq_ok h
  obtain ⟨v, -, h⟩ := withCleanup_eq_ok h
  exact disableIfEnabled_eq_ok h

/-- A session, its enable acknowledged and its body failed: the body's error, whatever the cleanup does. -/
theorem session_bodyError {body : Op α} {s u : State} {e : ErrorRecord} {rest : List RxEvent} (hl : s.link = .opened)
    (he : s.en = false) (hrx : s.rx = arrivals cfgWrAckPacket ++ rest)
    (hbody : body { s with en := true, tx := s.tx ++ cfgWrPacket (cfgByte true s.ai), rx := rest } = (.error e, u)) :
    session body s = (.error e, (disableIfEnabled u).2) := by
  rw [session, andThen_ok (opEnableCore_ok hl he hrx), withCleanup_error hbody]

theorem requestsAdmissible_of_exec_next {body : Requests} {s t : State} (h : exec (.withCoreEnabled body) s = .next t) :
    requestsAdmissible body = true := by
  by_contra hbody
  obtain ⟨q, hq⟩ := exec_ofRequest_inadmissible (r := .withCoreEnabled body) (Bool.eq_false_iff.mpr hbody) s
  cases hq.symm.trans h

/-! ### Operands out of range (60_exceptions.md R335) -/

theorem requirePositiveHz_error {q : Rat} (h : q ≤ 0) (s : State) :
    requirePositiveHz q s = (.error (.range .targetHz q), s) := if_pos (Rat.num_nonpos.mpr h)

/-- Both commands check their operands before anything else, in the same order. -/
theorem exec_sdSend_rangeError {cmd arg : Int} {s : State} {e : ErrorRecord}
    (h : requireCmdArg cmd arg s = (.error e, s)) (keep : Bool) :
    exec (.sdSendCmd cmd arg keep) s = .next (deliver (.err e) s) ∧
      exec (.sdSendAcmd cmd arg keep) s = .next (deliver (.err e) s) :=
  ⟨answer_error (andThen_error h), answer_error (andThen_error h)⟩

/-! ### Operations turned away for the mode (60_exceptions.md R334, R345) -/

/-- The mode of the state turns away every operation that requires `Enabled`, with `q` as what is required and nothing
changed. -/
def Barred (q : Required) (s : State) : Prop := ∀ op, requireOpenEnabled op s = (.error (.state op q), s)

theorem barred_of_closed {s : State} (h : s.link = .closed) : Barred .linkOpen s :=
  fun _ => requireOpenEnabled_closed h

theorem barred_of_disabled {s : State} (h : s.link = .opened) (he : s.en = false) : Barred .enabled s :=
  fun _ => requireOpenEnabled_disabled h he

section
variable {q : Required} {s : State} (h : Barred q s)
include h

theorem opSpiSelect_barred (target : Target) : opSpiSelect target s = (.error (.state .spiSelect q), s) :=
  andThen_error (h .spiSelect)

theorem opSpiWrite_barred (data : List Byte) : opSpiWrite data s = (.error (.state .spiWriteRead q), s) :=
  mapValue_error (andThen_error (h .spiWriteRead))

theorem opSetAddress_barred {addr : Int} (ha : 0 ≤ addr ∧ addr ≤ 0xFFFF) :
    opSetAddress addr s = (.error (.state .setAddress q), s) := by
  rw [opSetAddress, andThen_ok (requireRange_ok ha), andThen_error (h .setAddress)]

theorem opRead_barred {length : Int} (hn : 1 ≤ length ∧ length ≤ 0xFFFF) :
    opRead length s = (.error (.state .read q), s) := by
  rw [opRead, andThen_ok (requireRange_ok hn), andThen_error (h .read)]

theorem opSpiSetSpeed_barred {hz : Rat} (hhz : 0 < hz) :
    opSpiSetSpeed hz s = (.error (.state .spiSetSpeed q), s) := by
  rw [opSpiSetSpeed, andThen_ok (requirePositiveHz_ok hhz s), andThen_error (h .spiSetSpeed)]

/-- An SD command ends at its SPI_SELECT, and its flush and its deselect are turned away as well (43_sd_command.md R245,
R246). -/
theorem opSdSendCmd_barred {table : ShapeTable} {cmd : Nat} (hc : cmd ≤ 63)
    (hs : (lookupShape table cmd).isSome = true) (arg : Word32) (keep : Bool) :
    opSdSendCmd table cmd arg.toNat keep s = (.error (.state .spiSelect q), s) := by
  obtain ⟨shape, hshape⟩ := Option.isSome_iff_exists.mp hs
  have htry : commandExchange cmd arg shape s = (.error (.state .spiSelect q), s) :=
    andThen_error (opSpiSelect_barred h .sd)
  have hflush : flushDummies s = (.error (.state .spiWriteRead q), s) := opSpiWrite_barred h _
  rw [opSdSendCmd_shaped hc hshape, deselectUnlessKept_error htry, hflush, opSpiSelect_barred h]

/-- An application command ends at the SPI_SELECT of its CMD55 (43_sd_command.md R248). -/
theorem opSdSendAcmd_barred {cmd : Nat} (hc : cmd ≤ 63) (hs : (lookupShape s.cfg.acmdShape cmd).isSome = true)
    (hs55 : (lookupShape s.cfg.cmdShape 55).isSome = true) (arg : Word32) (keep : Bool) :
    opSdSendAcmd cmd arg.toNat keep s = (.error (.state .spiSelect q), s) := by
  obtain ⟨shape, hshape⟩ := Option.isSome_iff_exists.mp hs
  exact opSdSendAcmd_of_cmd55_error hc hshape (opSdSendCmd_barred h (by decide) hs55 _ _)

theorem exec_barred_of_cmdOf {i : Instr} {cmd : Nat} {arg : Word32} {keep : Bool} {op : OpName}
    (hi : cmdOf i = some (cmd, arg, keep)) (hcheck : cmdLinkCheck s.cfg cmd = some op) :
    exec i s = .next (deliver (.err (.state op q)) s) := by
  obtain ⟨hc, hexec⟩ := exec_of_cmdOf hi s
  obtain ⟨hs, hop⟩ := Option.ite_none_right_eq_some.mp hcheck
  cases hop
  rw [hexec, answer_error (opSdSendCmd_barred h hc hs arg keep)]

theorem exec_barred_of_acmdOf {i : Instr} {cmd : Nat} {arg : Word32} {keep : Bool} {op : OpName}
    (hi : acmdOf i = some (cmd, arg, keep)) (hcheck : acmdLinkCheck s.cfg cmd = some op) :
    exec i s = .next (deliver (.err (.state op q)) s) := by
  obtain ⟨hc, hexec⟩ := exec_of_acmdOf hi s
  obtain ⟨⟨hs, hs55⟩, hop⟩ := Option.ite_none_right_eq_some.mp hcheck
  cases hop
  rw [hexec, answer_error (opSdSendAcmd_barred h hc hs hs55 arg keep)]

/-- Every instruction that requires `Enabled`, its other entry checks passed: a range check comes before, a
pseudo-operation is its expansion, an SD command ends at its SPI_SELECT (60_exceptions.md R334). -/
theorem exec_barred {i : Instr} {op : OpName} (hi : needsEnabled i = true) (hcheck : linkCheckOf s.cfg i = some op) :
    exec i s = .next (deliver (.err (.state op q)) s) := by
  cases i with
  | disableCore | setAutoIncrement | enableAutoIncrement | disableAutoIncrement | write | spiSelect | spiDeselect
  | spiWriteRead =>
    cases hcheck
    exact answer_error (andThen_error (h _))
  | spiWrite data =>
    cases hcheck
    exact answer_error (opSpiWrite_barred h data)
  | setAddress addr =>
    obtain ⟨haddr, hop⟩ := Option.ite_none_right_eq_some.mp hcheck
    cases hop
    exact answer_error (opSetAddress_barred h haddr)
  | read length =>
    obtain ⟨hlength, hop⟩ := Option.ite_none_right_eq_some.mp hcheck
    cases hop
    exact answer_error (opRead_barred h hlength)
  | spiSetSpeed hz =>
    obtain ⟨hhz, hop⟩ := Option.ite_none_right_eq_some.mp hcheck
    cases hop
    exact answer_error (opSpiSetSpeed_barred h hhz)
  | sdSendCmd cmd arg keep =>
    obtain ⟨hrange, hcheck⟩ := Option.ite_none_right_eq_some.mp hcheck
    exact exec_barred_of_cmdOf h (if_pos hrange) hcheck
  | sdSendAcmd cmd arg keep =>
    obtain ⟨hrange, hcheck⟩ := Option.ite_none_right_eq_some.mp hcheck
    exact exec_barred_of_acmdOf h (if_pos hrange) hcheck
  | cmd0GoIdleState | cmd1SendOpCond | cmd6SwitchFunc | cmd8SendIfCond | cmd9SendCsd | cmd10SendCid
  | cmd12StopTransmission | cmd13SendStatus | cmd16SetBlocklen | cmd17ReadSingleBlock | cmd18ReadMultipleBlock
  | cmd24WriteBlock | cmd25WriteMultipleBlock | cmd27ProgramCsd | cmd28SetWriteProt | cmd29ClrWriteProt
  | cmd30SendWriteProt | cmd32EraseWrBlkStartAddr | cmd33EraseWrBlkEndAddr | cmd38Erase | cmd42LockUnlock | cmd55AppCmd
  | cmd56GenCmd | cmd58ReadOcr | cmd59CrcOnOff => exact exec_barred_of_cmdOf h rfl hcheck
  | acmd13SdStatus | acmd22SendNumWrBlocks | acmd23SetWrBlkEraseCount | acmd41SdSendOpCond
  | acmd42SetClrCardDetect | acmd51SendScr => exact exec_barred_of_acmdOf h rfl hcheck
  | _ => nomatch hi

end

/-- The instructions that require an open link and not `Enabled`: their first check is the link's (60_exceptions.md
R345). -/
theorem exec_closed_of_linkCheck {i : Instr} {s : State} {op : OpName} (hl : s.link = .closed)
    (hi : needsEnabled i = false) (hcheck : linkCheckOf s.cfg i = some op) :
    exec i s = .next (deliver (.err (.state op .linkOpen)) s) := by
  cases i with
  | enableCore | readConfig | cfgRd | cfgWr | setAddr | rd | wr =>
    cases hcheck
    exact answer_error (andThen_error (requireLink_closed hl))
  | withCoreEnabled body =>
    obtain ⟨hbody, hop⟩ := Option.ite_none_right_eq_some.mp hcheck
    cases hop
    rw [exec_withCoreEnabled hbody]
    exact answer_error (andThen_error (andThen_error (requireLink_closed hl)))
  | sendAndExpect packet pattern n ctx =>
    obtain ⟨hn, hop⟩ := Option.ite_none_right_eq_some.mp hcheck
    cases hop
    rw [exec_sendAndExpect hn]
    exact answer_error (andThen_error (requireLink_closed hl))
  | init | close | scatter | sdBuildFrame | sdDecodeR1 | sdDecodeR1b | sdDecodeR2 | sdDecodeR3 | sdDecodeR7 | sdError
  | crc7 | cfgRdAck | cfgWrAck | setAddrAck | rdAck | wrAck => nomatch hcheck
  | _ => nomatch hi

theorem opEnableCore_enabled {s : State} (hl : s.link = .opened) (he : s.en = true) :
    opEnableCore s = (.error (.state .enableCore .disabled), s) := by
  rw [opEnableCore, andThen_ok (requireLink_opened hl), withState_apply, if_pos he, raise_apply]

/-! ### The pure operations (30_encoding.md R110) -/

/-- No row of a pure instruction lists StateError (60_exceptions.md R338). -/
theorem stateError_not_mem_codesOf {i : Instr} (h : isPure i = true) (op : OpName) (q : Required) :
    errorCode (.state op q) ∉ codesOf i := by
  cases i with
  | scatter | sdBuildFrame | sdDecodeR1 | sdDecodeR1b | sdDecodeR2 | sdDecodeR3 | sdDecodeR7 | sdError | crc7 =>
    simp [codesOf, rowCodes, errorCode]
  | _ => nomatch h

theorem exec_pure_next {i : Instr} (h : isPure i = true) (s : State) : ∃ t, exec i s = .next t := by
  cases i with
  | scatter | sdBuildFrame | sdDecodeR1 | sdDecodeR1b | sdDecodeR2 | sdDecodeR3 | sdDecodeR7 | sdError | crc7 =>
    exact ⟨_, rfl⟩
  | _ => nomatch h

end

/-! ### The statements of the family 60_exceptions.md -/

/-- Settles O59: the errors of an instruction are those of its row, and the row of a session lists those of its body. -/
theorem errorsFollowTheRaiseMatrix : Obligations.ErrorsFollowTheRaiseMatrix := by
  intro i s t e h hres
  rw [mayRaise_eq, decide_eq_true_eq]
  exact errorCode_mem_codesOf h hres

/-- Settles O37: the body's error is the session's, and the final disable runs after it as after a success; a session
that delivers a value has succeeded, its final disable included. -/
theorem sessionReportsTheFirstErrorAndDisables : Obligations.SessionReportsTheFirstErrorAndDisables := by
  refine ⟨fun body s u e rest hbody hlink hen hrx hperform => ?_, fun body s t v h hres => ?_⟩
  · have hsession := session_bodyError hlink hen hrx hperform
    have hresults := ((within_session (within_performAll body)).of s).1.results
    rw [hsession] at hresults
    refine ⟨_, (exec_withCoreEnabled hbody s).trans (answer_error hsession), ?_, fun rest' hue hul hurx => ?_⟩
    · rw [deliver_results, hresults]
    · rw [disableIfEnabled_enabled hul hue hurx, deliver_en]
  · rw [exec_withCoreEnabled (requestsAdmissible_of_exec_next h)] at h
    rcases answer_cases .results (session (performAll body)) s with ⟨vs, u, hs, ha⟩ | ⟨e, u, -, ha⟩ <;>
      cases ha.symm.trans h
    · rw [deliver_en]
      exact session_eq_ok hs
    · simp at hres

/-- Settles O46: each operation begins with the checks of its operands, and the check that fails leaves the state. -/
theorem rangeErrorsComeFirst : Obligations.RangeErrorsComeFirst := by
  refine fun s => ⟨fun a ha => ?_, fun n hn => ?_, fun q hq => ?_, fun cmd arg keep hcmd => ?_,
    fun cmd arg keep hcmd hcmd' harg => ?_⟩
  · exact answer_error (andThen_error (requireRange_error (by omega)))
  · exact answer_error (andThen_error (requireRange_error (by omega)))
  · exact answer_error (andThen_error (requirePositiveHz_error hq s))
  · exact exec_sdSend_rangeError (requireCmdArg_cmdError hcmd arg s) keep
  · exact exec_sdSend_rangeError (requireCmdArg_argError hcmd hcmd' harg s) keep

/-- Settles O47: a closed link bars what requires `Enabled`, and the rest that does wire I/O checks the link first; a
pure operation delivers its result to the state it started from. -/
theorem closedLinkTurnsWireOperationsAway : Obligations.ClosedLinkTurnsWireOperationsAway := by
  refine ⟨fun i s op hlink hcheck => ?_, fun i s hpure => ?_⟩
  · cases hneeds : needsEnabled i with
    | true => exact exec_barred (barred_of_closed hlink) hneeds hcheck
    | false => exact exec_closed_of_linkCheck hlink hneeds hcheck
  · obtain ⟨t, ht⟩ := exec_pure_next hpure s
    obtain ⟨r, rfl⟩ := exec_pure hpure ht
    refine ⟨r, ht, fun op q hr => stateError_not_mem_codesOf hpure op q (errorCode_mem_codesOf ht ?_)⟩
    rw [deliver_results, hr]

/-- Settles O48: ENABLE_CORE, which a session begins with, finds the core enabled; a disabled core bars what requires
`Enabled`. -/
theorem wrongEnablementIsAStateError : Obligations.WrongEnablementIsAStateError := by
  refine ⟨fun s hlink hen => ?_, fun i s op hlink hen hneeds hcheck => ?_⟩
  · have henable := opEnableCore_enabled hlink hen
    refine ⟨answer_error henable, fun body hbody => ?_⟩
    exact (exec_withCoreEnabled hbody s).trans (answer_error (andThen_error henable))
  · exact exec_barred (barred_of_disabled hlink hen) hneeds hcheck

/-- Settles O50: the parameters are checked first, and then there is no request to take. -/
theorem idleStepsChangeNothing : Obligations.IdleStepsChangeNothing := by
  refine fun s => ⟨fun hcfg hreq => ?_, fun hbad => ?_⟩
  · simp only [step, hcfg, hreq, if_true]
  · exact if_neg (mt configOk_bounds hbad)

end Sys2Proof.Proofs

/-! The power-on state (70_reset_and_hazards.md R370): its mode, and the statement of the family
70_reset_and_hazards.md. -/

namespace Sys2Proof.Proofs
open Sys2Proof Sys2Proof.Machine

/-- A row of the table of modes (60_exceptions.md R348). -/
theorem modeOf_closed_disabled {s : State} (hlink : s.link = .closed) (hen : s.en = false) :
    modeOf s = some .uninitialised := by
  rw [modeOf, hlink, hen]

/-- Settles O51: the registers are written out in the reset state, and the mode follows from LINK and EN. -/
theorem resetIsThePowerOnState : Obligations.ResetIsThePowerOnState := by
  have hlink : State.reset.link = .closed := rfl
  have hen : State.reset.en = false := rfl
  exact ⟨hlink, hen, rfl, rfl, rfl, rfl, rfl, rfl, modeOf_closed_disabled hlink hen⟩

end Sys2Proof.Proofs
